-- ==== Sys2Proof/Word.lean ====
section
/-!
DEFINITION. The word types: a byte is 8 bits, a doubleword 32, a quadword 64 (spec/00_scope.md R3, R17). Bit 0 is
the least significant bit of each (R7).
-/

namespace Sys2Proof

/-- The addressable unit of memory, 8 bits (R60). -/
abbrev Byte := BitVec 8

/-- A doubleword: an integer register, a linear address, EIP (R3). -/
abbrev Dword := BitVec 32

/-- A quadword: the contents of an MMX register (R30). -/
abbrev Qword := BitVec 64

end Sys2Proof
end

