-- ==== Sys2Proof/Config.lean ====
section
/-!
DEFINITION. What the launch of a run fixes by name (modes, address sizes, segments), what an unwritten byte of memory
reads as, the reset values taken from the hardware's family, and the one free value of the model.
-/

namespace Sys2Proof

/-- The three processor modes (spec/10_state.md R43). -/
inductive Mode where
  | protectedMode
  | realAddress
  | virtual8086
  deriving DecidableEq, Repr

/-- The effective address width AddrSize (spec/30_encoding.md R104). -/
inductive AddrSize where
  | a16
  | a32
  deriving DecidableEq, Repr

/-- The six segments a memory operand can lie in (spec/10_state.md R45). -/
inductive SegReg where
  | cs
  | ds
  | es
  | fs
  | gs
  | ss
  deriving DecidableEq, Repr

/-- The kind of a data memory access (spec/20_memory.md R67). -/
inductive AccessKind where
  | read
  | write
  deriving DecidableEq, Repr

/-- What a byte of memory that the launch does not list and nothing has written reads as.
DESIGN CHOICE, unsafe: the spec gives no launch contents (spec/10_state.md R47). notes/assumptions/4.md. -/
def Config.unwrittenByte : Byte := 0#8

/-- EDX after reset: the processor signature of the family's Pentium processor with MMX technology.
PRESUMED, unsafe (spec/10_state.md R47, information column). notes/assumptions/1.md. -/
def Config.processorSignature : Dword := 0x00000543#32

/-- The default address size after reset: 16, as in real-address mode (spec/30_encoding.md R104).
PRESUMED, unsafe. notes/assumptions/1.md. -/
def Config.resetAddrSize : AddrSize := .a16

/-- FREE VALUE: which of several memory faults of ONE access is reported. The spec leaves it inside the AccessCheck
oracle and says that proofs must not depend on it (spec/20_memory.md R67, spec/60_exceptions.md R244, D21, U8); it is a
function of AccessCheck's arguments. It is consulted only when two or more fault conditions hold at once.
DESIGN CHOICE, safe. notes/assumptions/7.md. -/
opaque Config.faultChoice : Mode → BitVec 2 → SegReg → Dword → Nat → AccessKind → Nat

end Sys2Proof
end

