-- ==== Sys2Proof/Syntax.lean ====
section
/-!
DEFINITION. The syntax: register names, memory operands as the ModR/M, SIB and displacement bytes give them, prefixes,
and one constructor of Instr for each of the 57 rows of spec/opcode_table.json.
-/

namespace Sys2Proof

/-- The eight MMX registers (spec/10_state.md R30). -/
inductive Mm where
  | mm0
  | mm1
  | mm2
  | mm3
  | mm4
  | mm5
  | mm6
  | mm7
  deriving DecidableEq, Repr

/-- The eight integer registers (spec/10_state.md R36). -/
inductive Gpr where
  | eax
  | ecx
  | edx
  | ebx
  | esp
  | ebp
  | esi
  | edi
  deriving DecidableEq, Repr

/-- The register part of a 16-bit address, one per value of rm (spec/30_encoding.md R102). -/
inductive Base16 where
  | bxSi
  | bxDi
  | bpSi
  | bpDi
  | si
  | di
  | bp
  | bx
  deriving DecidableEq, Repr

/-- A 16-bit address (R102): mod = 00 with a register part, the disp16 alone, or a register part with a displacement. -/
inductive Addr16 where
  /-- mod = 00, rm other than 110. -/
  | base (b : Base16)
  /-- mod = 00, rm = 110: the disp16 alone. -/
  | disp16 (disp : BitVec 16)
  /-- mod = 01. -/
  | baseDisp8 (b : Base16) (disp : Byte)
  /-- mod = 10. -/
  | baseDisp16 (b : Base16) (disp : BitVec 16)
  deriving DecidableEq, Repr

/-- The scaled index of a SIB byte (R94, R100); `none` is index = 100, whose scale bits are kept but not used. -/
structure ScaledIndex where
  scale : BitVec 2
  index : Option Gpr
  deriving DecidableEq, Repr

/-- A 32-bit address (R99, R100). -/
inductive Addr32 where
  /-- mod = 00, rm other than 100 and 101: the register. -/
  | reg (r : Gpr)
  /-- mod = 00, rm = 101: the disp32 alone. -/
  | disp32 (disp : Dword)
  /-- mod = 01, rm other than 100. -/
  | regDisp8 (r : Gpr) (disp : Byte)
  /-- mod = 10, rm other than 100. -/
  | regDisp32 (r : Gpr) (disp : Dword)
  /-- mod = 00, rm = 100, SIB base other than 101. -/
  | sib (x : ScaledIndex) (base : Gpr)
  /-- mod = 00, rm = 100, SIB base = 101: no base register, disp32. -/
  | sibNoBase (x : ScaledIndex) (disp : Dword)
  /-- mod = 01, rm = 100. -/
  | sibDisp8 (x : ScaledIndex) (base : Gpr) (disp : Byte)
  /-- mod = 10, rm = 100. -/
  | sibDisp32 (x : ScaledIndex) (base : Gpr) (disp : Dword)
  deriving DecidableEq, Repr

/-- An address of either size. -/
inductive Addr where
  | a16 (a : Addr16)
  | a32 (a : Addr32)
  deriving DecidableEq, Repr

/-- The prefixes admitted before a memory form (spec/30_encoding.md R111): at most one segment override and at most
one 67h, in either order. -/
inductive Prefixes where
  | none
  | seg (s : SegReg)
  | addr
  | segAddr (s : SegReg)
  | addrSeg (s : SegReg)
  deriving DecidableEq, Repr

/-- A memory operand: its prefixes and its address. -/
structure MemOperand where
  prefixes : Prefixes
  addr : Addr
  deriving DecidableEq, Repr

/-- An r/m operand (R92): a register (mod = 11) or memory. `Rm Mm` is mm/m64 or mm/m32, `Rm Gpr` is r/m32. -/
inductive Rm (ρ : Type) where
  | reg (r : ρ)
  | mem (m : MemOperand)
  deriving DecidableEq, Repr

/-- The 57 instruction forms, in the order of spec/opcode_table.json. -/
inductive Instr where
  /-- `EMMS`, `0F 77` (R225). -/
  | emms
  /-- `MOVD mm, r/m32`, `0F 6E /r` (R216). -/
  | movdLoad (d : Mm) (src : Rm Gpr)
  /-- `MOVD r/m32, mm`, `0F 7E /r` (R217). -/
  | movdStore (dst : Rm Gpr) (src : Mm)
  /-- `MOVQ mm, mm/m64`, `0F 6F /r` (R218). -/
  | movqLoad (d : Mm) (src : Rm Mm)
  /-- `MOVQ mm/m64, mm`, `0F 7F /r` (R219). -/
  | movqStore (dst : Rm Mm) (src : Mm)
  /-- `PACKSSWB mm, mm/m64`, `0F 63 /r` (R171). -/
  | packsswb (d : Mm) (src : Rm Mm)
  /-- `PACKSSDW mm, mm/m64`, `0F 6B /r` (R172). -/
  | packssdw (d : Mm) (src : Rm Mm)
  /-- `PACKUSWB mm, mm/m64`, `0F 67 /r` (R173). -/
  | packuswb (d : Mm) (src : Rm Mm)
  /-- `PADDB mm, mm/m64`, `0F FC /r` (R131). -/
  | paddb (d : Mm) (src : Rm Mm)
  /-- `PADDW mm, mm/m64`, `0F FD /r` (R132). -/
  | paddw (d : Mm) (src : Rm Mm)
  /-- `PADDD mm, mm/m64`, `0F FE /r` (R133). -/
  | paddd (d : Mm) (src : Rm Mm)
  /-- `PADDSB mm, mm/m64`, `0F EC /r` (R134). -/
  | paddsb (d : Mm) (src : Rm Mm)
  /-- `PADDSW mm, mm/m64`, `0F ED /r` (R135). -/
  | paddsw (d : Mm) (src : Rm Mm)
  /-- `PADDUSB mm, mm/m64`, `0F DC /r` (R136). -/
  | paddusb (d : Mm) (src : Rm Mm)
  /-- `PADDUSW mm, mm/m64`, `0F DD /r` (R137). -/
  | paddusw (d : Mm) (src : Rm Mm)
  /-- `PAND mm, mm/m64`, `0F DB /r` (R186). -/
  | pand (d : Mm) (src : Rm Mm)
  /-- `PANDN mm, mm/m64`, `0F DF /r` (R187). -/
  | pandn (d : Mm) (src : Rm Mm)
  /-- `PCMPEQB mm, mm/m64`, `0F 74 /r` (R161). -/
  | pcmpeqb (d : Mm) (src : Rm Mm)
  /-- `PCMPEQW mm, mm/m64`, `0F 75 /r` (R162). -/
  | pcmpeqw (d : Mm) (src : Rm Mm)
  /-- `PCMPEQD mm, mm/m64`, `0F 76 /r` (R163). -/
  | pcmpeqd (d : Mm) (src : Rm Mm)
  /-- `PCMPGTB mm, mm/m64`, `0F 64 /r` (R164). -/
  | pcmpgtb (d : Mm) (src : Rm Mm)
  /-- `PCMPGTW mm, mm/m64`, `0F 65 /r` (R165). -/
  | pcmpgtw (d : Mm) (src : Rm Mm)
  /-- `PCMPGTD mm, mm/m64`, `0F 66 /r` (R166). -/
  | pcmpgtd (d : Mm) (src : Rm Mm)
  /-- `PMADDWD mm, mm/m64`, `0F F5 /r` (R145). -/
  | pmaddwd (d : Mm) (src : Rm Mm)
  /-- `PMULHW mm, mm/m64`, `0F E5 /r` (R146). -/
  | pmulhw (d : Mm) (src : Rm Mm)
  /-- `PMULLW mm, mm/m64`, `0F D5 /r` (R147). -/
  | pmullw (d : Mm) (src : Rm Mm)
  /-- `POR mm, mm/m64`, `0F EB /r` (R188). -/
  | por (d : Mm) (src : Rm Mm)
  /-- `PSLLW mm, mm/m64`, `0F F1 /r` (R195). -/
  | psllw (d : Mm) (src : Rm Mm)
  /-- `PSLLW mm, imm8`, `0F 71 /6 ib` (R196). -/
  | psllwImm (d : Mm) (imm : Byte)
  /-- `PSLLD mm, mm/m64`, `0F F2 /r` (R197). -/
  | pslld (d : Mm) (src : Rm Mm)
  /-- `PSLLD mm, imm8`, `0F 72 /6 ib` (R198). -/
  | pslldImm (d : Mm) (imm : Byte)
  /-- `PSLLQ mm, mm/m64`, `0F F3 /r` (R199). -/
  | psllq (d : Mm) (src : Rm Mm)
  /-- `PSLLQ mm, imm8`, `0F 73 /6 ib` (R200). -/
  | psllqImm (d : Mm) (imm : Byte)
  /-- `PSRAW mm, mm/m64`, `0F E1 /r` (R207). -/
  | psraw (d : Mm) (src : Rm Mm)
  /-- `PSRAW mm, imm8`, `0F 71 /4 ib` (R208). -/
  | psrawImm (d : Mm) (imm : Byte)
  /-- `PSRAD mm, mm/m64`, `0F E2 /r` (R209). -/
  | psrad (d : Mm) (src : Rm Mm)
  /-- `PSRAD mm, imm8`, `0F 72 /4 ib` (R210). -/
  | psradImm (d : Mm) (imm : Byte)
  /-- `PSRLW mm, mm/m64`, `0F D1 /r` (R201). -/
  | psrlw (d : Mm) (src : Rm Mm)
  /-- `PSRLW mm, imm8`, `0F 71 /2 ib` (R202). -/
  | psrlwImm (d : Mm) (imm : Byte)
  /-- `PSRLD mm, mm/m64`, `0F D2 /r` (R203). -/
  | psrld (d : Mm) (src : Rm Mm)
  /-- `PSRLD mm, imm8`, `0F 72 /2 ib` (R204). -/
  | psrldImm (d : Mm) (imm : Byte)
  /-- `PSRLQ mm, mm/m64`, `0F D3 /r` (R205). -/
  | psrlq (d : Mm) (src : Rm Mm)
  /-- `PSRLQ mm, imm8`, `0F 73 /2 ib` (R206). -/
  | psrlqImm (d : Mm) (imm : Byte)
  /-- `PSUBB mm, mm/m64`, `0F F8 /r` (R138). -/
  | psubb (d : Mm) (src : Rm Mm)
  /-- `PSUBW mm, mm/m64`, `0F F9 /r` (R139). -/
  | psubw (d : Mm) (src : Rm Mm)
  /-- `PSUBD mm, mm/m64`, `0F FA /r` (R140). -/
  | psubd (d : Mm) (src : Rm Mm)
  /-- `PSUBSB mm, mm/m64`, `0F E8 /r` (R141). -/
  | psubsb (d : Mm) (src : Rm Mm)
  /-- `PSUBSW mm, mm/m64`, `0F E9 /r` (R142). -/
  | psubsw (d : Mm) (src : Rm Mm)
  /-- `PSUBUSB mm, mm/m64`, `0F D8 /r` (R143). -/
  | psubusb (d : Mm) (src : Rm Mm)
  /-- `PSUBUSW mm, mm/m64`, `0F D9 /r` (R144). -/
  | psubusw (d : Mm) (src : Rm Mm)
  /-- `PUNPCKHBW mm, mm/m64`, `0F 68 /r` (R174). -/
  | punpckhbw (d : Mm) (src : Rm Mm)
  /-- `PUNPCKHWD mm, mm/m64`, `0F 69 /r` (R175). -/
  | punpckhwd (d : Mm) (src : Rm Mm)
  /-- `PUNPCKHDQ mm, mm/m64`, `0F 6A /r` (R176). -/
  | punpckhdq (d : Mm) (src : Rm Mm)
  /-- `PUNPCKLBW mm, mm/m32`, `0F 60 /r` (R177). -/
  | punpcklbw (d : Mm) (src : Rm Mm)
  /-- `PUNPCKLWD mm, mm/m32`, `0F 61 /r` (R178). -/
  | punpcklwd (d : Mm) (src : Rm Mm)
  /-- `PUNPCKLDQ mm, mm/m32`, `0F 62 /r` (R179). -/
  | punpckldq (d : Mm) (src : Rm Mm)
  /-- `PXOR mm, mm/m64`, `0F EF /r` (R189). -/
  | pxor (d : Mm) (src : Rm Mm)
  deriving DecidableEq, Repr

end Sys2Proof
end

