-- ==== Sys2Proof/WellFormed.lean ====
section
/-!
DEFINITION. The syntactic checks: which terms of Syntax are instructions the encoding can express. Only a memory
operand can be ill formed: a base register whose encoding is taken by another address form (R99, R100, R102), an index
of ESP (R100), and an address whose size is not the one that the default address size and the prefix 67h select (R104).
-/

namespace Sys2Proof

/-- mod = 00 with rm = 110 is disp16 alone, so BP has no form without a displacement (R102). -/
def Addr16.wf : Addr16 → Bool
  | .base b => b != .bp
  | .disp16 _ => true
  | .baseDisp8 _ _ => true
  | .baseDisp16 _ _ => true

/-- index = 100 means no index, so ESP is never one (R100). -/
def ScaledIndex.wf (x : ScaledIndex) : Bool := x.index != some .esp

/-- rm = 100 announces a SIB byte, so ESP is no plain base; rm = 101 and SIB base = 101 with mod = 00 mean no base
register, so EBP has no form without a displacement (R99, R100). -/
def Addr32.wf : Addr32 → Bool
  | .reg r => r != .esp && r != .ebp
  | .disp32 _ => true
  | .regDisp8 r _ => r != .esp
  | .regDisp32 r _ => r != .esp
  | .sib x b => x.wf && b != .ebp
  | .sibNoBase x _ => x.wf
  | .sibDisp8 x _ _ => x.wf
  | .sibDisp32 x _ _ => x.wf

def Addr.wf : Addr → Bool
  | .a16 a => a.wf
  | .a32 a => a.wf

/-- The size of an address. -/
def Addr.size : Addr → AddrSize
  | .a16 _ => .a16
  | .a32 _ => .a32

/-- The other address size (R104). -/
def AddrSize.other : AddrSize → AddrSize
  | .a16 => .a32
  | .a32 => .a16

/-- Whether a 67h is among the prefixes. -/
def Prefixes.has67 : Prefixes → Bool
  | .none => false
  | .seg _ => false
  | .addr => true
  | .segAddr _ => true
  | .addrSeg _ => true

/-- The address size of one instruction: the default, or the other one under a prefix 67h (R104). -/
def Prefixes.addrSize (p : Prefixes) (dflt : AddrSize) : AddrSize :=
  if p.has67 then dflt.other else dflt

def MemOperand.wf (dflt : AddrSize) (m : MemOperand) : Bool :=
  m.addr.wf && m.addr.size == m.prefixes.addrSize dflt

/-- The memory operand of an r/m operand, where it has one (mod other than 11). -/
def Rm.mem? {ρ : Type} : Rm ρ → Option MemOperand
  | .reg _ => none
  | .mem m => some m

/-- The memory operand of an instruction, where it has one: at most one (R63, R241). -/
def Instr.memOperand? : Instr → Option MemOperand
  | .emms => none
  | .movdLoad _ src => src.mem?
  | .movdStore dst _ => dst.mem?
  | .movqLoad _ src => src.mem?
  | .movqStore dst _ => dst.mem?
  | .packsswb _ src => src.mem?
  | .packssdw _ src => src.mem?
  | .packuswb _ src => src.mem?
  | .paddb _ src => src.mem?
  | .paddw _ src => src.mem?
  | .paddd _ src => src.mem?
  | .paddsb _ src => src.mem?
  | .paddsw _ src => src.mem?
  | .paddusb _ src => src.mem?
  | .paddusw _ src => src.mem?
  | .pand _ src => src.mem?
  | .pandn _ src => src.mem?
  | .pcmpeqb _ src => src.mem?
  | .pcmpeqw _ src => src.mem?
  | .pcmpeqd _ src => src.mem?
  | .pcmpgtb _ src => src.mem?
  | .pcmpgtw _ src => src.mem?
  | .pcmpgtd _ src => src.mem?
  | .pmaddwd _ src => src.mem?
  | .pmulhw _ src => src.mem?
  | .pmullw _ src => src.mem?
  | .por _ src => src.mem?
  | .psllw _ src => src.mem?
  | .psllwImm _ _ => none
  | .pslld _ src => src.mem?
  | .pslldImm _ _ => none
  | .psllq _ src => src.mem?
  | .psllqImm _ _ => none
  | .psraw _ src => src.mem?
  | .psrawImm _ _ => none
  | .psrad _ src => src.mem?
  | .psradImm _ _ => none
  | .psrlw _ src => src.mem?
  | .psrlwImm _ _ => none
  | .psrld _ src => src.mem?
  | .psrldImm _ _ => none
  | .psrlq _ src => src.mem?
  | .psrlqImm _ _ => none
  | .psubb _ src => src.mem?
  | .psubw _ src => src.mem?
  | .psubd _ src => src.mem?
  | .psubsb _ src => src.mem?
  | .psubsw _ src => src.mem?
  | .psubusb _ src => src.mem?
  | .psubusw _ src => src.mem?
  | .punpckhbw _ src => src.mem?
  | .punpckhwd _ src => src.mem?
  | .punpckhdq _ src => src.mem?
  | .punpcklbw _ src => src.mem?
  | .punpcklwd _ src => src.mem?
  | .punpckldq _ src => src.mem?
  | .pxor _ src => src.mem?

/-- Well-formedness under a default address size. -/
def Instr.wf (dflt : AddrSize) (i : Instr) : Bool :=
  match i.memOperand? with
  | none => true
  | some m => m.wf dflt

end Sys2Proof
end

