-- ==== Sys2Proof/Decode.lean ====
section
/-!
DEFINITION. The decoder, total on every list of bytes and rejecting by name, and after it the encoder, both from the
encoding rules of spec/30_encoding.md (R90 to R116), the length of an instruction (R106), and the entry point for the
rows of spec/opcode_table.json.
-/

namespace Sys2Proof

/-- Why a byte sequence is no admitted instruction; which name is reported where several fit is the decoder's.
DESIGN CHOICE, safe. notes/assumptions/15.md. -/
inductive DecodeError where
  /-- The bytes end before the instruction does. -/
  | truncated
  /-- The opcode bytes are none of the 57 forms': not an MMX instruction (R109). -/
  | notMmx
  /-- 0F 71, 72 or 73 with a /digit that the spec does not define (R97, R109). -/
  | undefinedDigit
  /-- 0F 71, 72 or 73 with mod other than 11 (R109). -/
  | groupMemoryOperand
  /-- A prefix 66h, F0h, F2h or F3h (R111). -/
  | refusedPrefix
  /-- A second segment override or a second 67h (R111). -/
  | repeatedPrefix
  /-- A segment override or 67h before a form without a memory operand (R111). -/
  | prefixWithoutMemory
  deriving DecidableEq, Repr

/-! ### Register and segment numbers -/

/-- The 3-bit field that names an MMX register (R96). -/
def Mm.code : Mm → BitVec 3
  | .mm0 => 0
  | .mm1 => 1
  | .mm2 => 2
  | .mm3 => 3
  | .mm4 => 4
  | .mm5 => 5
  | .mm6 => 6
  | .mm7 => 7

def Mm.ofCode (c : BitVec 3) : Mm :=
  match c.toNat with
  | 0 => .mm0
  | 1 => .mm1
  | 2 => .mm2
  | 3 => .mm3
  | 4 => .mm4
  | 5 => .mm5
  | 6 => .mm6
  | _ => .mm7

/-- The 3-bit field that names an integer register (R96). -/
def Gpr.code : Gpr → BitVec 3
  | .eax => 0
  | .ecx => 1
  | .edx => 2
  | .ebx => 3
  | .esp => 4
  | .ebp => 5
  | .esi => 6
  | .edi => 7

def Gpr.ofCode (c : BitVec 3) : Gpr :=
  match c.toNat with
  | 0 => .eax
  | 1 => .ecx
  | 2 => .edx
  | 3 => .ebx
  | 4 => .esp
  | 5 => .ebp
  | 6 => .esi
  | _ => .edi

/-- The rm field of a 16-bit address (R102). -/
def Base16.code : Base16 → BitVec 3
  | .bxSi => 0
  | .bxDi => 1
  | .bpSi => 2
  | .bpDi => 3
  | .si => 4
  | .di => 5
  | .bp => 6
  | .bx => 7

def Base16.ofCode (c : BitVec 3) : Base16 :=
  match c.toNat with
  | 0 => .bxSi
  | 1 => .bxDi
  | 2 => .bpSi
  | 3 => .bpDi
  | 4 => .si
  | 5 => .di
  | 6 => .bp
  | _ => .bx

/-- The segment-override bytes (R105). -/
def SegReg.byte : SegReg → Byte
  | .es => 0x26
  | .cs => 0x2E
  | .ss => 0x36
  | .ds => 0x3E
  | .fs => 0x64
  | .gs => 0x65

/-- What a byte is as a prefix (R111). -/
inductive PrefixByte where
  | seg (s : SegReg)
  | addr
  | refused
  | no
  deriving DecidableEq, Repr

def prefixByte (b : Byte) : PrefixByte :=
  if b = 0x26 then .seg .es
  else if b = 0x2E then .seg .cs
  else if b = 0x36 then .seg .ss
  else if b = 0x3E then .seg .ds
  else if b = 0x64 then .seg .fs
  else if b = 0x65 then .seg .gs
  else if b = 0x67 then .addr
  else if b = 0x66 || b = 0xF0 || b = 0xF2 || b = 0xF3 then .refused
  else .no

/-- The prefixes at the head of a byte sequence, and the rest (R111). -/
def scanPrefixes : List Byte → Except DecodeError (Prefixes × List Byte)
  | [] => .error .truncated
  | b :: bs =>
    match prefixByte b with
    | .refused => .error .refusedPrefix
    | .no => .ok (.none, b :: bs)
    | .seg s =>
      match bs with
      | [] => .error .truncated
      | c :: cs =>
        match prefixByte c with
        | .refused => .error .refusedPrefix
        | .seg _ => .error .repeatedPrefix
        | .no => .ok (.seg s, c :: cs)
        | .addr =>
          match cs with
          | [] => .error .truncated
          | e :: es =>
            match prefixByte e with
            | .refused => .error .refusedPrefix
            | .no => .ok (.segAddr s, e :: es)
            | .seg _ => .error .repeatedPrefix
            | .addr => .error .repeatedPrefix
    | .addr =>
      match bs with
      | [] => .error .truncated
      | c :: cs =>
        match prefixByte c with
        | .refused => .error .refusedPrefix
        | .addr => .error .repeatedPrefix
        | .no => .ok (.addr, c :: cs)
        | .seg s =>
          match cs with
          | [] => .error .truncated
          | e :: es =>
            match prefixByte e with
            | .refused => .error .refusedPrefix
            | .no => .ok (.addrSeg s, e :: es)
            | .seg _ => .error .repeatedPrefix
            | .addr => .error .repeatedPrefix

/-! ### ModR/M, SIB and displacement -/

/-- Bits 7..6 of a ModR/M or SIB byte (R93, R94). -/
def fieldHi (b : Byte) : BitVec 2 := b.extractLsb' 6 2

/-- Bits 5..3 (R93, R94). -/
def fieldMid (b : Byte) : BitVec 3 := b.extractLsb' 3 3

/-- Bits 2..0 (R93, R94). -/
def fieldLo (b : Byte) : BitVec 3 := b.extractLsb' 0 3

/-- A byte from its three fields (R93, R94). -/
def fieldsByte (hi : BitVec 2) (mid lo : BitVec 3) : Byte := hi ++ mid ++ lo

/-- A two-byte displacement, least significant byte first (R62, R102), and the rest. -/
def takeDisp16 : List Byte → Option (BitVec 16 × List Byte)
  | b0 :: b1 :: bs => some (b1 ++ b0, bs)
  | _ => none

/-- A four-byte displacement, least significant byte first (R62, R99), and the rest. -/
def takeDisp32 : List Byte → Option (Dword × List Byte)
  | b0 :: b1 :: b2 :: b3 :: bs => some (b3 ++ b2 ++ b1 ++ b0, bs)
  | _ => none

/-- A one-byte displacement and the rest. -/
def takeDisp8 : List Byte → Option (Byte × List Byte)
  | b0 :: bs => some (b0, bs)
  | [] => none

/-- A 16-bit address from mod (other than 11), rm and the bytes after ModR/M (R102). -/
def decodeAddr16 (mod : BitVec 2) (rm : BitVec 3) (bs : List Byte) : Option (Addr16 × List Byte) :=
  if mod = 0 then
    if rm = 6 then (takeDisp16 bs).map fun (d, bs) => (.disp16 d, bs)
    else some (.base (Base16.ofCode rm), bs)
  else if mod = 1 then (takeDisp8 bs).map fun (d, bs) => (.baseDisp8 (Base16.ofCode rm) d, bs)
  else (takeDisp16 bs).map fun (d, bs) => (.baseDisp16 (Base16.ofCode rm) d, bs)

/-- The scaled index of a SIB byte (R94, R100). -/
def decodeIndex (sib : Byte) : ScaledIndex :=
  { scale := fieldHi sib, index := if fieldMid sib = 4 then none else some (Gpr.ofCode (fieldMid sib)) }

/-- The address forms with a SIB byte (R100, R101). -/
def decodeSib (mod : BitVec 2) (sib : Byte) (bs : List Byte) : Option (Addr32 × List Byte) :=
  if mod = 0 then
    if fieldLo sib = 5 then (takeDisp32 bs).map fun (d, bs) => (.sibNoBase (decodeIndex sib) d, bs)
    else some (.sib (decodeIndex sib) (Gpr.ofCode (fieldLo sib)), bs)
  else if mod = 1 then
    (takeDisp8 bs).map fun (d, bs) => (.sibDisp8 (decodeIndex sib) (Gpr.ofCode (fieldLo sib)) d, bs)
  else (takeDisp32 bs).map fun (d, bs) => (.sibDisp32 (decodeIndex sib) (Gpr.ofCode (fieldLo sib)) d, bs)

/-- A 32-bit address from mod (other than 11), rm and the bytes after ModR/M (R99, R100, R101). -/
def decodeAddr32 (mod : BitVec 2) (rm : BitVec 3) (bs : List Byte) : Option (Addr32 × List Byte) :=
  if rm = 4 then
    match bs with
    | [] => none
    | sib :: bs => decodeSib mod sib bs
  else if mod = 0 then
    if rm = 5 then (takeDisp32 bs).map fun (d, bs) => (.disp32 d, bs)
    else some (.reg (Gpr.ofCode rm), bs)
  else if mod = 1 then (takeDisp8 bs).map fun (d, bs) => (.regDisp8 (Gpr.ofCode rm) d, bs)
  else (takeDisp32 bs).map fun (d, bs) => (.regDisp32 (Gpr.ofCode rm) d, bs)

def decodeAddr (size : AddrSize) (mod : BitVec 2) (rm : BitVec 3) (bs : List Byte) : Option (Addr × List Byte) :=
  match size with
  | .a16 => (decodeAddr16 mod rm bs).map fun (a, bs) => (.a16 a, bs)
  | .a32 => (decodeAddr32 mod rm bs).map fun (a, bs) => (.a32 a, bs)

/-- The r/m operand of format RM (R92): a register when mod = 11, and then no prefix is admitted (R111); else memory. -/
def decodeRm {ρ : Type} (ofCode : BitVec 3 → ρ) (dflt : AddrSize) (p : Prefixes) (modrm : Byte) (bs : List Byte) :
    Except DecodeError (Rm ρ × List Byte) :=
  if fieldHi modrm = 3 then
    if p = .none then .ok (.reg (ofCode (fieldLo modrm)), bs) else .error .prefixWithoutMemory
  else
    match decodeAddr (p.addrSize dflt) (fieldHi modrm) (fieldLo modrm) bs with
    | none => .error .truncated
    | some (a, bs) => .ok (.mem { prefixes := p, addr := a }, bs)

/-! ### The opcode map -/

/-- An instruction as its format lays it out (R91): the second opcode byte and the operands by their fields. -/
inductive Shape where
  /-- Format E. -/
  | e (op : Byte)
  /-- Format RI: op, digit, rm, imm8. -/
  | ri (op : Byte) (digit : BitVec 3) (d : Mm) (imm : Byte)
  /-- Format RM with an mm/m64 or mm/m32 operand: op, reg, rm. -/
  | mm (op : Byte) (reg : Mm) (rm : Rm Mm)
  /-- Format RM with an r/m32 operand: op, reg, rm. -/
  | gpr (op : Byte) (reg : Mm) (rm : Rm Gpr)
  deriving DecidableEq, Repr

/-- One row of the opcode map for the forms with an mm/m64 or mm/m32 operand: the second opcode byte and the form. -/
abbrev MmRow := Byte × (Mm → Rm Mm → Instr)

/-- R115, the rows of spec/45_data_transfer.md. -/
def dataTransferRows : List MmRow := [
  (0x6F, fun reg rm => .movqLoad reg rm),
  (0x7F, fun reg rm => .movqStore rm reg)]

/-- R115, the rows of spec/40_arithmetic.md. -/
def arithmeticRows : List MmRow := [
  (0xFC, fun reg rm => .paddb reg rm),
  (0xFD, fun reg rm => .paddw reg rm),
  (0xFE, fun reg rm => .paddd reg rm),
  (0xEC, fun reg rm => .paddsb reg rm),
  (0xED, fun reg rm => .paddsw reg rm),
  (0xDC, fun reg rm => .paddusb reg rm),
  (0xDD, fun reg rm => .paddusw reg rm),
  (0xF5, fun reg rm => .pmaddwd reg rm),
  (0xE5, fun reg rm => .pmulhw reg rm),
  (0xD5, fun reg rm => .pmullw reg rm),
  (0xF8, fun reg rm => .psubb reg rm),
  (0xF9, fun reg rm => .psubw reg rm),
  (0xFA, fun reg rm => .psubd reg rm),
  (0xE8, fun reg rm => .psubsb reg rm),
  (0xE9, fun reg rm => .psubsw reg rm),
  (0xD8, fun reg rm => .psubusb reg rm),
  (0xD9, fun reg rm => .psubusw reg rm)]

/-- R115, the rows of spec/41_comparison.md. -/
def comparisonRows : List MmRow := [
  (0x74, fun reg rm => .pcmpeqb reg rm),
  (0x75, fun reg rm => .pcmpeqw reg rm),
  (0x76, fun reg rm => .pcmpeqd reg rm),
  (0x64, fun reg rm => .pcmpgtb reg rm),
  (0x65, fun reg rm => .pcmpgtw reg rm),
  (0x66, fun reg rm => .pcmpgtd reg rm)]

/-- R115, the rows of spec/42_conversion.md. -/
def conversionRows : List MmRow := [
  (0x63, fun reg rm => .packsswb reg rm),
  (0x6B, fun reg rm => .packssdw reg rm),
  (0x67, fun reg rm => .packuswb reg rm),
  (0x68, fun reg rm => .punpckhbw reg rm),
  (0x69, fun reg rm => .punpckhwd reg rm),
  (0x6A, fun reg rm => .punpckhdq reg rm),
  (0x60, fun reg rm => .punpcklbw reg rm),
  (0x61, fun reg rm => .punpcklwd reg rm),
  (0x62, fun reg rm => .punpckldq reg rm)]

/-- R115, the rows of spec/43_logical.md. -/
def logicalRows : List MmRow := [
  (0xDB, fun reg rm => .pand reg rm),
  (0xDF, fun reg rm => .pandn reg rm),
  (0xEB, fun reg rm => .por reg rm),
  (0xEF, fun reg rm => .pxor reg rm)]

/-- R115, the rows of spec/44_shift.md. -/
def shiftRows : List MmRow := [
  (0xF1, fun reg rm => .psllw reg rm),
  (0xF2, fun reg rm => .pslld reg rm),
  (0xF3, fun reg rm => .psllq reg rm),
  (0xE1, fun reg rm => .psraw reg rm),
  (0xE2, fun reg rm => .psrad reg rm),
  (0xD1, fun reg rm => .psrlw reg rm),
  (0xD2, fun reg rm => .psrld reg rm),
  (0xD3, fun reg rm => .psrlq reg rm)]

/-- The opcode map for the forms with an mm/m64 or mm/m32 operand (R115). -/
def mmRows : List MmRow :=
  dataTransferRows ++ arithmeticRows ++ comparisonRows ++ conversionRows ++ logicalRows ++ shiftRows

/-- The /digit groups 71, 72 and 73 (R97): second opcode byte and digit, and the form. -/
def groupRows : List ((Byte × BitVec 3) × (Mm → Byte → Instr)) := [
  ((0x71, 6), fun d imm => .psllwImm d imm),
  ((0x72, 6), fun d imm => .pslldImm d imm),
  ((0x73, 6), fun d imm => .psllqImm d imm),
  ((0x71, 4), fun d imm => .psrawImm d imm),
  ((0x72, 4), fun d imm => .psradImm d imm),
  ((0x71, 2), fun d imm => .psrlwImm d imm),
  ((0x72, 2), fun d imm => .psrldImm d imm),
  ((0x73, 2), fun d imm => .psrlqImm d imm)]

/-- The forms with an r/m32 operand (R216, R217). -/
def gprRows : List (Byte × (Mm → Rm Gpr → Instr)) := [
  (0x6E, fun reg rm => .movdLoad reg rm),
  (0x7E, fun reg rm => .movdStore rm reg)]

/-- The format that a second opcode byte selects (R91, R115). -/
inductive Format where
  | e
  | ri
  | mm
  | gpr
  deriving DecidableEq, Repr

/-- The format of a second opcode byte; none for a byte that selects none of the 57 forms (R109, R115). -/
def opFormat (op : Byte) : Option Format :=
  if op = 0x77 then some .e
  else if op = 0x71 || op = 0x72 || op = 0x73 then some .ri
  else if (gprRows.lookup op).isSome then some .gpr
  else if (mmRows.lookup op).isSome then some .mm
  else none

/-- The instruction of a shape, by the opcode map. -/
def Shape.instr : Shape → Except DecodeError Instr
  | .e op => if op = 0x77 then .ok .emms else .error .notMmx
  | .ri op digit d imm =>
    match groupRows.lookup (op, digit) with
    | some f => .ok (f d imm)
    | none => .error .undefinedDigit
  | .mm op reg rm =>
    match mmRows.lookup op with
    | some f => .ok (f reg rm)
    | none => .error .notMmx
  | .gpr op reg rm =>
    match gprRows.lookup op with
    | some f => .ok (f reg rm)
    | none => .error .notMmx

/-- The bytes after 0F and the second opcode byte, by format. -/
def decodeOperands (dflt : AddrSize) (p : Prefixes) (op : Byte) (fmt : Format) (bs : List Byte) :
    Except DecodeError (Shape × List Byte) :=
  match fmt with
  | .e => if p = .none then .ok (.e op, bs) else .error .prefixWithoutMemory
  | .ri =>
    match bs with
    | [] => .error .truncated
    | modrm :: bs =>
      if fieldHi modrm = 3 then
        if p = .none then
          match bs with
          | [] => .error .truncated
          | imm :: bs => .ok (.ri op (fieldMid modrm) (Mm.ofCode (fieldLo modrm)) imm, bs)
        else .error .prefixWithoutMemory
      else .error .groupMemoryOperand
  | .mm =>
    match bs with
    | [] => .error .truncated
    | modrm :: bs =>
      match decodeRm Mm.ofCode dflt p modrm bs with
      | .error e => .error e
      | .ok (rm, bs) => .ok (.mm op (Mm.ofCode (fieldMid modrm)) rm, bs)
  | .gpr =>
    match bs with
    | [] => .error .truncated
    | modrm :: bs =>
      match decodeRm Gpr.ofCode dflt p modrm bs with
      | .error e => .error e
      | .ok (rm, bs) => .ok (.gpr op (Mm.ofCode (fieldMid modrm)) rm, bs)

/-- The shape at the head of a byte sequence and the rest: prefixes, 0F, second opcode byte, operands (R90, R106). -/
def decodeShape (dflt : AddrSize) (bytes : List Byte) : Except DecodeError (Shape × List Byte) :=
  match scanPrefixes bytes with
  | .error e => .error e
  | .ok (p, rest) =>
    match rest with
    | [] => .error .truncated
    | b0 :: bs =>
      if b0 = 0x0F then
        match bs with
        | [] => .error .truncated
        | op :: bs =>
          match opFormat op with
          | none => .error .notMmx
          | some fmt => decodeOperands dflt p op fmt bs
      else .error .notMmx

/-- THE DECODER: the instruction at the head of a byte sequence under a default address size, and the bytes after it,
or the name of what is wrong (R90, R106, R109, R111). -/
def decode (dflt : AddrSize) (bytes : List Byte) : Except DecodeError (Instr × List Byte) :=
  match decodeShape dflt bytes with
  | .error e => .error e
  | .ok (sh, rest) =>
    match sh.instr with
    | .error e => .error e
    | .ok i => .ok (i, rest)

/-! ### The encoder -/

/-- The bytes of a 16-bit displacement (R62). -/
def disp16Bytes (d : BitVec 16) : List Byte := [d.extractLsb' 0 8, d.extractLsb' 8 8]

/-- The bytes of a 32-bit displacement (R62). -/
def disp32Bytes (d : Dword) : List Byte :=
  [d.extractLsb' 0 8, d.extractLsb' 8 8, d.extractLsb' 16 8, d.extractLsb' 24 8]

/-- The prefix bytes (R105, R111). -/
def Prefixes.bytes : Prefixes → List Byte
  | .none => []
  | .seg s => [s.byte]
  | .addr => [0x67]
  | .segAddr s => [s.byte, 0x67]
  | .addrSeg s => [0x67, s.byte]

/-- mod, rm and the bytes after ModR/M of a 16-bit address (R102). -/
def Addr16.fields : Addr16 → BitVec 2 × BitVec 3 × List Byte
  | .base b => (0, b.code, [])
  | .disp16 d => (0, 6, disp16Bytes d)
  | .baseDisp8 b d => (1, b.code, [d])
  | .baseDisp16 b d => (2, b.code, disp16Bytes d)

/-- The SIB byte (R94, R100). -/
def sibByte (x : ScaledIndex) (base : BitVec 3) : Byte :=
  fieldsByte x.scale (match x.index with | none => 4 | some r => r.code) base

/-- mod, rm and the bytes after ModR/M of a 32-bit address (R99, R100). -/
def Addr32.fields : Addr32 → BitVec 2 × BitVec 3 × List Byte
  | .reg r => (0, r.code, [])
  | .disp32 d => (0, 5, disp32Bytes d)
  | .regDisp8 r d => (1, r.code, [d])
  | .regDisp32 r d => (2, r.code, disp32Bytes d)
  | .sib x b => (0, 4, [sibByte x b.code])
  | .sibNoBase x d => (0, 4, sibByte x 5 :: disp32Bytes d)
  | .sibDisp8 x b d => (1, 4, [sibByte x b.code, d])
  | .sibDisp32 x b d => (2, 4, sibByte x b.code :: disp32Bytes d)

def Addr.fields : Addr → BitVec 2 × BitVec 3 × List Byte
  | .a16 a => a.fields
  | .a32 a => a.fields

/-- The bytes of a form of format RM (R91, R92). -/
def Rm.bytes {ρ : Type} (code : ρ → BitVec 3) (op : Byte) (reg : Mm) : Rm ρ → List Byte
  | .reg r => [0x0F, op, fieldsByte 3 reg.code (code r)]
  | .mem m =>
    m.prefixes.bytes ++ 0x0F :: op :: fieldsByte m.addr.fields.1 reg.code m.addr.fields.2.1 :: m.addr.fields.2.2

/-- The bytes of a shape (R91). -/
def Shape.bytes : Shape → List Byte
  | .e op => [0x0F, op]
  | .ri op digit d imm => [0x0F, op, fieldsByte 3 digit d.code, imm]
  | .mm op reg rm => rm.bytes Mm.code op reg
  | .gpr op reg rm => rm.bytes Gpr.code op reg

/-- The shape of an instruction: its opcode bytes and fields, row by row of R115. -/
def Instr.shape : Instr → Shape

  | .emms => .e 0x77
  | .movdLoad d src => .gpr 0x6E d src
  | .movdStore dst src => .gpr 0x7E src dst
  | .movqLoad d src => .mm 0x6F d src
  | .movqStore dst src => .mm 0x7F src dst
  | .packsswb d src => .mm 0x63 d src
  | .packssdw d src => .mm 0x6B d src
  | .packuswb d src => .mm 0x67 d src
  | .paddb d src => .mm 0xFC d src
  | .paddw d src => .mm 0xFD d src
  | .paddd d src => .mm 0xFE d src
  | .paddsb d src => .mm 0xEC d src
  | .paddsw d src => .mm 0xED d src
  | .paddusb d src => .mm 0xDC d src
  | .paddusw d src => .mm 0xDD d src
  | .pand d src => .mm 0xDB d src
  | .pandn d src => .mm 0xDF d src
  | .pcmpeqb d src => .mm 0x74 d src
  | .pcmpeqw d src => .mm 0x75 d src
  | .pcmpeqd d src => .mm 0x76 d src
  | .pcmpgtb d src => .mm 0x64 d src
  | .pcmpgtw d src => .mm 0x65 d src
  | .pcmpgtd d src => .mm 0x66 d src
  | .pmaddwd d src => .mm 0xF5 d src
  | .pmulhw d src => .mm 0xE5 d src
  | .pmullw d src => .mm 0xD5 d src
  | .por d src => .mm 0xEB d src
  | .psllw d src => .mm 0xF1 d src
  | .psllwImm d imm => .ri 0x71 6 d imm
  | .pslld d src => .mm 0xF2 d src
  | .pslldImm d imm => .ri 0x72 6 d imm
  | .psllq d src => .mm 0xF3 d src
  | .psllqImm d imm => .ri 0x73 6 d imm
  | .psraw d src => .mm 0xE1 d src
  | .psrawImm d imm => .ri 0x71 4 d imm
  | .psrad d src => .mm 0xE2 d src
  | .psradImm d imm => .ri 0x72 4 d imm
  | .psrlw d src => .mm 0xD1 d src
  | .psrlwImm d imm => .ri 0x71 2 d imm
  | .psrld d src => .mm 0xD2 d src
  | .psrldImm d imm => .ri 0x72 2 d imm
  | .psrlq d src => .mm 0xD3 d src
  | .psrlqImm d imm => .ri 0x73 2 d imm
  | .psubb d src => .mm 0xF8 d src
  | .psubw d src => .mm 0xF9 d src
  | .psubd d src => .mm 0xFA d src
  | .psubsb d src => .mm 0xE8 d src
  | .psubsw d src => .mm 0xE9 d src
  | .psubusb d src => .mm 0xD8 d src
  | .psubusw d src => .mm 0xD9 d src
  | .punpckhbw d src => .mm 0x68 d src
  | .punpckhwd d src => .mm 0x69 d src
  | .punpckhdq d src => .mm 0x6A d src
  | .punpcklbw d src => .mm 0x60 d src
  | .punpcklwd d src => .mm 0x61 d src
  | .punpckldq d src => .mm 0x62 d src
  | .pxor d src => .mm 0xEF d src

/-- THE ENCODER: the bytes of an instruction in memory order (R90, R91, R62). -/
def encode (i : Instr) : List Byte := i.shape.bytes

/-! ### The length of an instruction (R106) -/

/-- P, the number of prefix bytes. -/
def Prefixes.count : Prefixes → Nat
  | .none => 0
  | .seg _ => 1
  | .addr => 1
  | .segAddr _ => 2
  | .addrSeg _ => 2

/-- S + D of a 16-bit address: no SIB byte, and the displacement size of R102. -/
def Addr16.tailLength : Addr16 → Nat
  | .base _ => 0
  | .disp16 _ => 2
  | .baseDisp8 _ _ => 1
  | .baseDisp16 _ _ => 2

/-- S + D of a 32-bit address: the SIB byte of R94 and the displacement size of R101. -/
def Addr32.tailLength : Addr32 → Nat
  | .reg _ => 0
  | .disp32 _ => 4
  | .regDisp8 _ _ => 1
  | .regDisp32 _ _ => 4
  | .sib _ _ => 1
  | .sibNoBase _ _ => 5
  | .sibDisp8 _ _ _ => 2
  | .sibDisp32 _ _ _ => 5

def Addr.tailLength : Addr → Nat
  | .a16 a => a.tailLength
  | .a32 a => a.tailLength

/-- The length of a form of format RM, in bytes: P + 3 + S + D, and 3 for mod = 11 (R106). -/
def Rm.length {ρ : Type} : Rm ρ → Nat
  | .reg _ => 3
  | .mem m => m.prefixes.count + 3 + m.addr.tailLength

/-- The length of format E (R106). -/
def formatELength : Nat := 2

/-- The length of format RI (R106). -/
def formatRILength : Nat := 4

/-- The longest admitted instruction: two prefixes and 8 bytes (R106, R244). -/
def maxLength : Nat := 10

/-- The length of a shape. -/
def Shape.length : Shape → Nat
  | .e _ => formatELength
  | .ri _ _ _ _ => formatRILength
  | .mm _ _ rm => rm.length
  | .gpr _ _ rm => rm.length

/-- L, the length of an instruction in bytes (R106). -/
def Instr.length (i : Instr) : Nat := i.shape.length

/-! ### The rows of spec/opcode_table.json -/

/-- The bytes of a table word, in memory order. The table's `fixed` and `fields` number a row's bits with the first byte
(0F) most significant; a word whose most significant byte is not 0F is read with its first byte least significant.
DEDUCED, safe. notes/assumptions/14.md. -/
def tableBytes (nbits w : Nat) : List Byte :=
  let n := nbits / 8
  let msbFirst : List Byte := (List.range n).map fun k => BitVec.ofNat 8 (w / 256 ^ (n - 1 - k))
  let lsbFirst : List Byte := (List.range n).map fun k => BitVec.ofNat 8 (w / 256 ^ k)
  match msbFirst with
  | b :: _ => if b = 0x0F then msbFirst else lsbFirst
  | [] => []

/-- The bytes of a table word followed by zeros up to the longest instruction. -/
def tableImage (nbits w : Nat) : List Byte :=
  tableBytes nbits w ++ List.replicate (maxLength - nbits / 8) 0

/-- The instruction the decoder reads from a table word, under the address size that holds after reset. -/
def decodeTableWord (nbits w : Nat) : Option Instr :=
  match decode Config.resetAddrSize (tableImage nbits w) with
  | .ok (i, _) => some i
  | .error _ => none

end Sys2Proof
end

