-- ==== Sys2Proof/Machine/State.lean ====
section
/-!
DEFINITION. The state of the machine as plain data (spec/10_state.md section 1, spec/70_reset_and_hazards.md R272), the
reasons a step can stop, and the state after reset.
-/

namespace Sys2Proof.Machine

/-- The exceptions of spec/60_exceptions.md R230. Raising one abandons the instruction with no state changed and ends the
run with `Fault(XX, code)` (R243, D12), so a step answers it as a fault and the state it started from is the state the
run ends in. All are safe: each is an exception that the spec names. -/
inductive Fault where
  /-- #UD: raised by every form when CR0.EM = 1 (R231). Safe. -/
  | invalidOpcode
  /-- #NM: raised by every form when CR0.TS = 1 and CR0.EM = 0 (R232). Safe. -/
  | deviceNotAvailable
  /-- #MF: raised by every form when an FPU exception is pending and EM = TS = 0 (R233). Safe. -/
  | floatingPointError
  /-- #GP(0): raised by a memory operand in protected mode (R234). Safe. -/
  | generalProtection
  /-- #SS(0): raised by a memory operand in SS in protected mode (R235). Safe. -/
  | stackFault
  /-- #PF(fault-code): raised by a memory operand in protected and virtual-8086 mode (R237). Safe. -/
  | pageFault (code : Dword)
  /-- #AC(0): raised by an unaligned memory operand where alignment checking applies (R71, R242). Safe. -/
  | alignmentCheck
  /-- Interrupt 13: raised by a memory operand above 0FFFFH in real-address and virtual-8086 mode (R239, R240). Safe. -/
  | interrupt13
  deriving DecidableEq, Repr

/-- The outcomes that are no architectural ones: the model gives the step no meaning. -/
inductive Refusal where
  /-- Raised by exec for an instruction whose meaning is not written; no arm answers it. Safe. -/
  | notModelled (mnemonic : String)
  /-- Raised by step where the bytes at EIP are no admitted instruction (spec/30_encoding.md R97, R109, R111; D3, D4,
  D5). Safe: the model says nothing about what such bytes do. -/
  | undecodable (e : DecodeError)
  /-- Raised by step where the instruction's bytes are not all inside the program's region (spec/10_state.md R37, D19,
  U18). Safe. -/
  | fetchOutsideProgram
  /-- Raised by step where the program does not lie wholly in fetchable memory: it crosses an end of the code segment or
  of the offset space, or reads of one of its bytes page-fault (spec/10_state.md R37, spec/60_exceptions.md R244, D19,
  U18). Safe. -/
  | programNotFetchable
  /-- Raised by step where EIP is at the first byte after the program: the run is Done (R272, D23). Safe. -/
  | programDone
  /-- Raised by the store forms when a stored byte is one of the program's own (spec/20_memory.md R78, D16, U17). Safe. -/
  | storeIntoProgram
  deriving DecidableEq, Repr

/-- The MMX registers (R30). -/
structure MmFile where
  mm0 : Qword
  mm1 : Qword
  mm2 : Qword
  mm3 : Qword
  mm4 : Qword
  mm5 : Qword
  mm6 : Qword
  mm7 : Qword
  deriving DecidableEq, Repr

/-- The integer registers (R36). -/
structure GprFile where
  eax : Dword
  ecx : Dword
  edx : Dword
  ebx : Dword
  esp : Dword
  ebp : Dword
  esi : Dword
  edi : Dword
  deriving DecidableEq, Repr

/-- The condition flags CF, PF, AF, ZF, SF and OF (R38), which no MMX instruction reads or writes. -/
structure CondFlags where
  cf : Bool
  pf : Bool
  af : Bool
  zf : Bool
  sf : Bool
  ovf : Bool
  deriving DecidableEq, Repr

/-- What AccessCheck knows of one segment, as launch data: the linear address of offset 0, the first and the last legal
offset, whether the segment can be used at all, read, and written. The spec leaves the contents of a segment inside
the AccessCheck oracle (R45, R67, R68). PRESUMED, unsafe. notes/assumptions/6.md. -/
structure Segment where
  base : Dword
  first : Dword
  last : Dword
  usable : Bool
  readable : Bool
  writable : Bool
  deriving DecidableEq, Repr

/-- The six segments (R45). -/
structure SegFile where
  cs : Segment
  ds : Segment
  es : Segment
  fs : Segment
  gs : Segment
  ss : Segment
  deriving DecidableEq, Repr

/-- A range of linear addresses whose reads, writes or both page-fault, with the fault-code that AccessCheck supplies
(R67, R73, R237). DESIGN CHOICE (its form), safe. notes/assumptions/8.md. -/
structure PageRule where
  first : Dword
  last : Dword
  onRead : Bool
  onWrite : Bool
  code : Dword
  deriving DecidableEq, Repr

/-- A range of linear addresses that is mapped to memory at `target` onwards (R60, R65). DESIGN CHOICE (its form), safe,
notes/assumptions/8.md. That `target` has 32 bits and the range wraps modulo 2^32 is a DESIGN CHOICE, unsafe,
notes/assumptions/23.md. -/
structure Frame where
  first : Dword
  last : Dword
  target : Dword
  deriving DecidableEq, Repr

/-- The launch region of the program: the CS offset of its first byte and its length in bytes (R272). -/
structure ProgramRegion where
  first : Dword
  length : Nat
  deriving DecidableEq, Repr

/-- Memory: the listed bytes, by address, in the canonical form of `Memory.wf` (Machine/Ops.lean). -/
abbrev Memory := List Host.Cell

/-- The state of the machine. The fields from `addrSize` on are the launch parameters, which no instruction changes.
Every register holds a value, none is "unset" (notes/assumptions/12.md); control state is held as the spec names it
(notes/assumptions/16.md); of the floating-point unit only TW is state (notes/assumptions/20.md). -/
structure State where
  /-- MM0 to MM7 (R30). -/
  mm : MmFile
  /-- The floating-point tag word TW (R33). -/
  tw : BitVec 16
  /-- EAX to EDI (R36). -/
  gpr : GprFile
  /-- The instruction pointer (R37). -/
  eip : Dword
  /-- The condition flags (R38). -/
  flags : CondFlags
  /-- CR0.EM (R39). -/
  cr0Em : Bool
  /-- CR0.TS (R40). -/
  cr0Ts : Bool
  /-- A pending FPU exception (R42). -/
  fpPending : Bool
  /-- The processor mode (R43). -/
  mode : Mode
  /-- The current privilege level (R44). -/
  cpl : BitVec 2
  /-- The bytes of memory (R60); its 2^32 addresses are a DESIGN CHOICE, unsafe, notes/assumptions/23.md. -/
  mem : Memory
  /-- The default address size (R104). -/
  addrSize : AddrSize
  /-- ACEnable (R71). -/
  acEnable : Bool
  /-- The segments (R45), part of AccessCheck (R67). -/
  segs : SegFile
  /-- Where accesses page-fault, part of AccessCheck (R67). -/
  pageRules : List PageRule
  /-- How linear addresses are mapped to memory, part of AccessCheck (R65, R67); identity where no entry covers one. -/
  translation : List Frame
  /-- The program's region (R272). -/
  program : ProgramRegion
  deriving DecidableEq, Repr

/-- A segment of 64 KBytes with every right, as the family has them in real-address mode after reset.
PRESUMED, unsafe. notes/assumptions/1.md. -/
def resetSegment (base : Dword) : Segment :=
  { base := base, first := 0, last := 0x0000FFFF, usable := true, readable := true, writable := true }

/-- The machine right after reset. The spec states no reset value (R47, R270); the values are the family's, listed by
R47 for information (PRESUMED, unsafe, notes/assumptions/1.md), and no page rules, no translation and an empty program at
EIP (DESIGN CHOICE, unsafe, notes/assumptions/3.md). No value is put there for a program's sake. -/
def State.reset : State where
  mm := { mm0 := 0, mm1 := 0, mm2 := 0, mm3 := 0, mm4 := 0, mm5 := 0, mm6 := 0, mm7 := 0 }
  tw := 0x5555
  gpr := { eax := 0, ecx := 0, edx := Config.processorSignature, ebx := 0, esp := 0, ebp := 0, esi := 0, edi := 0 }
  eip := 0x0000FFF0
  flags := { cf := false, pf := false, af := false, zf := false, sf := false, ovf := false }
  cr0Em := false
  cr0Ts := false
  fpPending := false
  mode := .realAddress
  cpl := 0
  mem := []
  addrSize := Config.resetAddrSize
  acEnable := false
  segs :=
    { cs := resetSegment 0xFFFF0000, ds := resetSegment 0, es := resetSegment 0, fs := resetSegment 0,
      gs := resetSegment 0, ss := resetSegment 0 }
  pageRules := []
  translation := []
  program := { first := 0x0000FFF0, length := 0 }

end Sys2Proof.Machine
end

