-- ==== Sys2Proof/Machine/Lanes.lean ====
section
/-!
DEFINITION. Packed data: lanes, packing, and the integer functions of spec/00_scope.md R10 to R17, and what each
packed instruction computes from its operands (spec/40 to 44).
-/

namespace Sys2Proof.Machine

/-! ### Lanes (R17, R31) -/

/-- `lane_w(v, k)`: element k of width w. -/
def lane {n : Nat} (w : Nat) (v : BitVec n) (k : Nat) : BitVec w := v.extractLsb' (w * k) w

/-- `pack_8(e_0, ..., e_7)`. -/
def pack8 (e0 e1 e2 e3 e4 e5 e6 e7 : BitVec 8) : Qword := e7 ++ e6 ++ e5 ++ e4 ++ e3 ++ e2 ++ e1 ++ e0

/-- `pack_16(e_0, ..., e_3)`. -/
def pack16 (e0 e1 e2 e3 : BitVec 16) : Qword := e3 ++ e2 ++ e1 ++ e0

/-- `pack_32(e_0, e_1)`. -/
def pack32 (e0 e1 : BitVec 32) : Qword := e1 ++ e0

/-- A function of bytes, lane by lane. -/
def map8 (f : BitVec 8 → BitVec 8) (a : Qword) : Qword :=
  pack8 (f (lane 8 a 0)) (f (lane 8 a 1)) (f (lane 8 a 2)) (f (lane 8 a 3)) (f (lane 8 a 4)) (f (lane 8 a 5))
    (f (lane 8 a 6)) (f (lane 8 a 7))

/-- A function of words, lane by lane. -/
def map16 (f : BitVec 16 → BitVec 16) (a : Qword) : Qword :=
  pack16 (f (lane 16 a 0)) (f (lane 16 a 1)) (f (lane 16 a 2)) (f (lane 16 a 3))

/-- A function of doublewords, lane by lane. -/
def map32 (f : BitVec 32 → BitVec 32) (a : Qword) : Qword := pack32 (f (lane 32 a 0)) (f (lane 32 a 1))

/-- A function of two bytes, lane by lane: destination first, source second. -/
def zip8 (f : BitVec 8 → BitVec 8 → BitVec 8) (a b : Qword) : Qword :=
  pack8 (f (lane 8 a 0) (lane 8 b 0)) (f (lane 8 a 1) (lane 8 b 1)) (f (lane 8 a 2) (lane 8 b 2))
    (f (lane 8 a 3) (lane 8 b 3)) (f (lane 8 a 4) (lane 8 b 4)) (f (lane 8 a 5) (lane 8 b 5))
    (f (lane 8 a 6) (lane 8 b 6)) (f (lane 8 a 7) (lane 8 b 7))

/-- A function of two words, lane by lane. -/
def zip16 (f : BitVec 16 → BitVec 16 → BitVec 16) (a b : Qword) : Qword :=
  pack16 (f (lane 16 a 0) (lane 16 b 0)) (f (lane 16 a 1) (lane 16 b 1)) (f (lane 16 a 2) (lane 16 b 2))
    (f (lane 16 a 3) (lane 16 b 3))

/-- A function of two doublewords, lane by lane. -/
def zip32 (f : BitVec 32 → BitVec 32 → BitVec 32) (a b : Qword) : Qword :=
  pack32 (f (lane 32 a 0) (lane 32 b 0)) (f (lane 32 a 1) (lane 32 b 1))

/-! ### Integers (R17) -/

/-- `u(x)`, the unsigned value. -/
def uval {w : Nat} (x : BitVec w) : Int := (x.toNat : Int)

/-- `s_w(x)`, the two's complement value. -/
def sval {w : Nat} (x : BitVec w) : Int := x.toInt

/-- `trunc_w(n)`, the vector congruent to n modulo 2^w. -/
def trunc (w : Nat) (n : Int) : BitVec w := BitVec.ofInt w n

/-- `satS_w(n)`: n clamped to the signed range (R10, R11, R13, R14). -/
def satS (w : Nat) (n : Int) : BitVec w :=
  if n < -2 ^ (w - 1) then trunc w (-2 ^ (w - 1))
  else if 2 ^ (w - 1) - 1 < n then trunc w (2 ^ (w - 1) - 1)
  else trunc w n

/-- `satU_w(n)`: n clamped to the unsigned range (R12, R15, R16, C4). -/
def satU (w : Nat) (n : Int) : BitVec w :=
  if n < 0 then trunc w 0
  else if 2 ^ w - 1 < n then trunc w (2 ^ w - 1)
  else trunc w n

/-! ### Arithmetic on one element (spec/40_arithmetic.md section 2) -/

/-- PADDB/W/D (R131 to R133). -/
def addWrap {w : Nat} (a b : BitVec w) : BitVec w := trunc w (uval a + uval b)

/-- PSUBB/W/D: destination minus source (R138 to R140). -/
def subWrap {w : Nat} (a b : BitVec w) : BitVec w := trunc w (uval a - uval b)

/-- PADDSB/W (R134, R135). -/
def addSatS {w : Nat} (a b : BitVec w) : BitVec w := satS w (sval a + sval b)

/-- PSUBSB/W (R141, R142). -/
def subSatS {w : Nat} (a b : BitVec w) : BitVec w := satS w (sval a - sval b)

/-- PADDUSB/W (R136, R137). -/
def addSatU {w : Nat} (a b : BitVec w) : BitVec w := satU w (uval a + uval b)

/-- PSUBUSB/W (R143, R144). -/
def subSatU {w : Nat} (a b : BitVec w) : BitVec w := satU w (uval a - uval b)

/-- PMULLW: the low word of the product (R147). -/
def mulLow (a b : BitVec 16) : BitVec 16 := trunc 16 (uval a * uval b)

/-- PMULHW: the high word of the signed 32-bit product (R146). -/
def mulHigh (a b : BitVec 16) : BitVec 16 := (trunc 32 (sval a * sval b)).extractLsb' 16 16

/-- PMADDWD: the sum of the signed products of the word pairs k and k + 1, wrapping (R145). -/
def maddPair (a b : Qword) (k : Nat) : BitVec 32 :=
  trunc 32 (sval (lane 16 a k) * sval (lane 16 b k) + sval (lane 16 a (k + 1)) * sval (lane 16 b (k + 1)))

/-- PMADDWD (R145). -/
def madd (a b : Qword) : Qword := pack32 (maddPair a b 0) (maddPair a b 2)

/-! ### Comparison of one element (spec/41_comparison.md) -/

/-- All ones or all zeros (R160). -/
def mask (w : Nat) (b : Bool) : BitVec w := if b then BitVec.allOnes w else 0#w

/-- PCMPEQ (R161 to R163). -/
def cmpEq {w : Nat} (a b : BitVec w) : BitVec w := mask w (a == b)

/-- PCMPGT: signed, the destination on the left (R164 to R166). -/
def cmpGt {w : Nat} (a b : BitVec w) : BitVec w := mask w (decide (sval b < sval a))

/-! ### Packing and unpacking (spec/42_conversion.md) -/

/-- PACKSSWB (f = satS 8) and PACKUSWB (f = satU 8) of signed words: destination words first (R171, R173). -/
def packWords (f : Int → BitVec 8) (a b : Qword) : Qword :=
  pack8 (f (sval (lane 16 a 0))) (f (sval (lane 16 a 1))) (f (sval (lane 16 a 2))) (f (sval (lane 16 a 3)))
    (f (sval (lane 16 b 0))) (f (sval (lane 16 b 1))) (f (sval (lane 16 b 2))) (f (sval (lane 16 b 3)))

/-- PACKSSDW (f = satS 16) of signed doublewords (R172). -/
def packDwords (f : Int → BitVec 16) (a b : Qword) : Qword :=
  pack16 (f (sval (lane 32 a 0))) (f (sval (lane 32 a 1))) (f (sval (lane 32 b 0))) (f (sval (lane 32 b 1)))

/-- PUNPCKHBW (R174). -/
def unpackHighBytes (a b : Qword) : Qword :=
  pack8 (lane 8 a 4) (lane 8 b 4) (lane 8 a 5) (lane 8 b 5) (lane 8 a 6) (lane 8 b 6) (lane 8 a 7) (lane 8 b 7)

/-- PUNPCKHWD (R175). -/
def unpackHighWords (a b : Qword) : Qword := pack16 (lane 16 a 2) (lane 16 b 2) (lane 16 a 3) (lane 16 b 3)

/-- PUNPCKHDQ (R176). -/
def unpackHighDwords (a b : Qword) : Qword := pack32 (lane 32 a 1) (lane 32 b 1)

/-- PUNPCKLBW (R177). -/
def unpackLowBytes (a : Qword) (b : Dword) : Qword :=
  pack8 (lane 8 a 0) (lane 8 b 0) (lane 8 a 1) (lane 8 b 1) (lane 8 a 2) (lane 8 b 2) (lane 8 a 3) (lane 8 b 3)

/-- PUNPCKLWD (R178). -/
def unpackLowWords (a : Qword) (b : Dword) : Qword := pack16 (lane 16 a 0) (lane 16 b 0) (lane 16 a 1) (lane 16 b 1)

/-- PUNPCKLDQ (R179). -/
def unpackLowDwords (a : Qword) (b : Dword) : Qword := pack32 (lane 32 a 0) b

/-! ### Shifts of one element (spec/44_shift.md R194) -/

/-- PSLL: zero for a count above w - 1. -/
def shiftLeft {w : Nat} (count : Nat) (x : BitVec w) : BitVec w :=
  if w - 1 < count then 0#w else trunc w (uval x * 2 ^ count)

/-- PSRL: zero for a count above w - 1, else the floor of the quotient. -/
def shiftRight {w : Nat} (count : Nat) (x : BitVec w) : BitVec w :=
  if w - 1 < count then 0#w else trunc w (Int.fdiv (uval x) (2 ^ count))

/-- PSRA: the floor of the signed quotient; a count above w - 1 acts as w - 1. -/
def shiftRightSigned {w : Nat} (count : Nat) (x : BitVec w) : BitVec w :=
  trunc w (Int.fdiv (sval x) (2 ^ min count (w - 1)))

end Sys2Proof.Machine
end

