-- ==== Sys2Proof/Machine/Ops.lean ====
section
/-!
DEFINITION. The named operations: registers, bytes of memory, AccessCheck, MemRead and MemWrite (spec/20_memory.md),
taking an exception and the entry checks (spec/60_exceptions.md), the completion of an instruction
(spec/00_scope.md R18), and the fetch.
-/

namespace Sys2Proof.Machine

/-! ### Registers -/

/-- Read an MMX register of the file (R17). -/
def MmFile.get (f : MmFile) : Mm → Qword
  | .mm0 => f.mm0
  | .mm1 => f.mm1
  | .mm2 => f.mm2
  | .mm3 => f.mm3
  | .mm4 => f.mm4
  | .mm5 => f.mm5
  | .mm6 => f.mm6
  | .mm7 => f.mm7

/-- Write an MMX register of the file (R17). -/
def MmFile.set (f : MmFile) (r : Mm) (v : Qword) : MmFile :=
  match r with
  | .mm0 => { f with mm0 := v }
  | .mm1 => { f with mm1 := v }
  | .mm2 => { f with mm2 := v }
  | .mm3 => { f with mm3 := v }
  | .mm4 => { f with mm4 := v }
  | .mm5 => { f with mm5 := v }
  | .mm6 => { f with mm6 := v }
  | .mm7 => { f with mm7 := v }

/-- Read an integer register of the file (R17). -/
def GprFile.get (f : GprFile) : Gpr → Dword
  | .eax => f.eax
  | .ecx => f.ecx
  | .edx => f.edx
  | .ebx => f.ebx
  | .esp => f.esp
  | .ebp => f.ebp
  | .esi => f.esi
  | .edi => f.edi

/-- Write an integer register of the file (R17). -/
def GprFile.set (f : GprFile) (r : Gpr) (v : Dword) : GprFile :=
  match r with
  | .eax => { f with eax := v }
  | .ecx => { f with ecx := v }
  | .edx => { f with edx := v }
  | .ebx => { f with ebx := v }
  | .esp => { f with esp := v }
  | .ebp => { f with ebp := v }
  | .esi => { f with esi := v }
  | .edi => { f with edi := v }

/-- `MM[i]`: no MMX register is hard-wired (R30). -/
def State.readMm (s : State) (r : Mm) : Qword := s.mm.get r

/-- `MM[i] <- v`. -/
def State.writeMm (s : State) (r : Mm) (v : Qword) : State := { s with mm := s.mm.set r v }

/-- `R32[i]`: no integer register is hard-wired (R36). -/
def State.readGpr (s : State) (r : Gpr) : Dword := s.gpr.get r

/-- `R32[i] <- v`. -/
def State.writeGpr (s : State) (r : Gpr) (v : Dword) : State := { s with gpr := s.gpr.set r v }

/-- A segment by its name (R45). -/
def SegFile.get (f : SegFile) : SegReg → Segment
  | .cs => f.cs
  | .ds => f.ds
  | .es => f.es
  | .fs => f.fs
  | .gs => f.gs
  | .ss => f.ss

/-- The segment that a memory operand names. -/
def State.segment (s : State) (seg : SegReg) : Segment := s.segs.get seg

/-! ### Bytes of memory -/

/-- The byte at an address: the listed one, or what an unlisted byte reads as. -/
def Memory.read : Memory → Nat → Byte
  | [], _ => Config.unwrittenByte
  | (a, b) :: m, x => if a = x then b else Memory.read m x

/-- A cell at the head of a memory, unless its byte is what an unlisted address reads as. -/
def Memory.put (x : Nat) (b : Byte) (m : Memory) : Memory :=
  if b = Config.unwrittenByte then m else (x, b) :: m

/-- Store one byte, keeping the canonical form. -/
def Memory.write : Memory → Nat → Byte → Memory
  | [], x, b => Memory.put x b []
  | (a, c) :: m, x, b =>
    if x < a then Memory.put x b ((a, c) :: m)
    else if x = a then Memory.put x b m
    else (a, c) :: Memory.write m x b

/-- The canonical form from an address on: addresses strictly rising and below 2^32, no byte that an unlisted address
reads as. That memory addresses have 32 bits is a DESIGN CHOICE, unsafe. notes/assumptions/23.md. -/
def Memory.wfFrom : Nat → Memory → Bool
  | _, [] => true
  | lo, (a, b) :: m =>
    decide (lo ≤ a) && decide (a < 2 ^ 32) && decide (b ≠ Config.unwrittenByte) && Memory.wfFrom (a + 1) m

/-- The canonical form of memory: equal memories are equal lists. -/
def Memory.wf (m : Memory) : Bool := Memory.wfFrom 0 m

/-- Whether a translation entry covers a linear address. -/
def Frame.covers (f : Frame) (x : Dword) : Bool := decide (f.first.toNat ≤ x.toNat) && decide (x.toNat ≤ f.last.toNat)

/-- The memory address that a linear address is mapped to: by the first entry that covers it, else itself (R60, R65). The
spec gives no width of a memory address: 32 bits, and a mapped range wraps modulo 2^32 (DESIGN CHOICE, unsafe,
notes/assumptions/23.md). -/
def State.physical (s : State) (x : Dword) : Dword :=
  match s.translation.find? (fun f => f.covers x) with
  | some f => f.target + (x - f.first)
  | none => x

/-- `B[x]`, the byte of memory that linear address x is mapped to (R65). -/
def State.byteAt (s : State) (x : Dword) : Byte := s.mem.read (s.physical x).toNat

/-- `B[x] <- b` (R66). -/
def State.setByte (s : State) (x : Dword) (b : Byte) : State :=
  { s with mem := s.mem.write (s.physical x).toNat b }

/-- Four bytes from linear address a on, least significant first (R61, R65). Addresses are 32 bits and wrap (PRESUMED,
unsafe, notes/assumptions/9.md). -/
def State.load32 (s : State) (a : Dword) : Dword :=
  s.byteAt (a + 3) ++ s.byteAt (a + 2) ++ s.byteAt (a + 1) ++ s.byteAt a

/-- Eight bytes from linear address a on, least significant first (R61, R65). -/
def State.load64 (s : State) (a : Dword) : Qword := s.load32 (a + 4) ++ s.load32 a

/-- The bytes of a doubleword, least significant first (R61, R66). -/
def bytes32 (v : Dword) : List Byte :=
  [v.extractLsb' 0 8, v.extractLsb' 8 8, v.extractLsb' 16 8, v.extractLsb' 24 8]

/-- The bytes of a quadword, least significant first (R61, R66). -/
def bytes64 (v : Qword) : List Byte := bytes32 (v.extractLsb' 0 32) ++ bytes32 (v.extractLsb' 32 32)

/-- Store bytes from linear address a on, in order (R66). -/
def State.storeBytes (s : State) (a : Dword) : List Byte → State
  | [] => s
  | b :: bs => (s.setByte a b).storeBytes (a + 1) bs

/-! ### AccessCheck (spec/20_memory.md R67 to R71) -/

/-- Protected mode, "illegal memory operand effective address": some byte of the operand lies outside the segment's
legal offsets, or the segment cannot be used, or a read meets a segment that cannot be read (R68; PRESUMED, unsafe,
notes/assumptions/6.md). An operand that runs past offset 2^32 - 1 is outside (PRESUMED, unsafe,
notes/assumptions/10.md). -/
def State.illegalOffset (s : State) (seg : SegReg) (ea : Dword) (n : Nat) (kind : AccessKind) : Bool :=
  !((s.segment seg).usable
    && decide ((s.segment seg).first.toNat ≤ ea.toNat)
    && decide (ea.toNat + n - 1 ≤ (s.segment seg).last.toNat)
    && (kind != .read || (s.segment seg).readable))

/-- Protected mode, "the destination is in a nonwritable segment" (R68). -/
def State.nonwritable (s : State) (seg : SegReg) (kind : AccessKind) : Bool :=
  kind == .write && !(s.segment seg).writable

/-- Real-address and virtual-8086 mode: some byte of the operand lies above effective address 0FFFFH (R69, R70, C3). -/
def outsideLimit (ea : Dword) (n : Nat) : Bool := decide (0xFFFF < ea.toNat + n - 1)

/-- The linear address of an operand: the segment's base plus the effective address, modulo 2^32 (R60, R67). -/
def State.linear (s : State) (seg : SegReg) (ea : Dword) : Dword := (s.segment seg).base + ea

/-- Whether a page rule concerns a byte access of a kind at a linear address. -/
def PageRule.hits (r : PageRule) (kind : AccessKind) (x : Dword) : Bool :=
  (match kind with | .read => r.onRead | .write => r.onWrite)
    && decide (r.first.toNat ≤ x.toNat) && decide (x.toNat ≤ r.last.toNat)

/-- The page faults of an access: one for each rule that some byte of the operand hits (R73, R237). -/
def State.pageFaults (s : State) (a : Dword) (n : Nat) (kind : AccessKind) : List Fault :=
  (s.pageRules.filter fun r => (List.range n).any fun k => r.hits kind (a + BitVec.ofNat 32 k)).map
    fun r => .pageFault r.code

/-- Whether alignment is checked: ACEnable, in protected mode at CPL 3 or in virtual-8086 mode (R71, D8). -/
def State.alignmentChecked (s : State) : Bool :=
  s.acEnable && ((s.mode == .protectedMode && s.cpl == 3) || s.mode == .virtual8086)

/-- An n-byte access at linear address a is unaligned when a mod n is not 0 (R71, D8). -/
def misaligned (a : Dword) (n : Nat) : Bool := decide (a.toNat % n ≠ 0)

/-- The segment and limit faults of an access, by mode (R68, R69, R70). In protected mode an illegal address is #SS(0) in
SS and #GP(0) elsewhere, and a store into a nonwritable segment is #GP(0) in any segment, as printed
(DEDUCED, safe, notes/assumptions/18.md). -/
def State.segmentFaults (s : State) (seg : SegReg) (ea : Dword) (n : Nat) (kind : AccessKind) : List Fault :=
  match s.mode with
  | .protectedMode =>
    (if s.illegalOffset seg ea n kind && seg == .ss then [.stackFault] else [])
      ++ (if (s.illegalOffset seg ea n kind && seg != .ss) || s.nonwritable seg kind then [.generalProtection] else [])
  | .realAddress => if outsideLimit ea n then [.interrupt13] else []
  | .virtual8086 => if outsideLimit ea n then [.interrupt13] else []

/-- Every fault whose condition holds for an access (R68 to R71, R250). -/
def State.accessFaults (s : State) (seg : SegReg) (ea : Dword) (n : Nat) (kind : AccessKind) : List Fault :=
  s.segmentFaults seg ea n kind
    ++ (if s.mode == .realAddress then [] else s.pageFaults (s.linear seg ea) n kind)
    ++ (if s.alignmentChecked && misaligned (s.linear seg ea) n then [.alignmentCheck] else [])

/-- One of several faults: which one is a free value (R67, R244, D21). -/
def State.chooseFault (s : State) (seg : SegReg) (ea : Dword) (n : Nat) (kind : AccessKind) (f g : Fault)
    (rest : List Fault) : Fault :=
  (f :: g :: rest).getD (Config.faultChoice s.mode s.cpl seg ea n kind % (rest.length + 2)) f

/-- `AccessCheck(Mode, CPL, seg, ea, n, kind)`: the linear address, or exactly one exception (R67). -/
def State.accessCheck (s : State) (seg : SegReg) (ea : Dword) (n : Nat) (kind : AccessKind) : Except Fault Dword :=
  match s.accessFaults seg ea n kind with
  | [] => .ok (s.linear seg ea)
  | [f] => .error f
  | f :: g :: rest => .error (s.chooseFault seg ea n kind f g rest)

/-! ### MemRead and MemWrite -/

/-- `MemRead(seg, ea, 4)` (R65). -/
def State.memRead32 (s : State) (seg : SegReg) (ea : Dword) : Except Fault Dword :=
  match s.accessCheck seg ea 4 .read with
  | .error f => .error f
  | .ok a => .ok (s.load32 a)

/-- `MemRead(seg, ea, 8)` (R65). -/
def State.memRead64 (s : State) (seg : SegReg) (ea : Dword) : Except Fault Qword :=
  match s.accessCheck seg ea 8 .read with
  | .error f => .error f
  | .ok a => .ok (s.load64 a)

/-- The linear address of a CS offset. -/
def State.codeLinear (s : State) (offset : Dword) : Dword := s.segs.cs.base + offset

/-- Whether a memory address holds one of the program's bytes (R78, R272). -/
def State.isProgramByte (s : State) (x : Dword) : Bool :=
  (List.range s.program.length).any fun j => s.physical (s.codeLinear (s.program.first + BitVec.ofNat 32 j)) == x

/-- Whether an n-byte store at linear address a writes one of the program's bytes, by memory address (R78, D16).
DEDUCED, safe. notes/assumptions/13.md. -/
def State.storeHitsProgram (s : State) (a : Dword) (n : Nat) : Bool :=
  (List.range n).any fun k => s.isProgramByte (s.physical (a + BitVec.ofNat 32 k))

/-- TAKING AN EXCEPTION: `raise #XX(code)` abandons the instruction with no state changed, and the run ends with
`Fault(XX, code)` (R243, D11, D12). The spec describes no delivery to use: no register saves the pc or the status (R245,
"This spec does not model delivery"), and no instruction returns from one (R246). notes/assumptions/2.md. -/
def raise (f : Fault) : Host.Outcome State Fault Refusal := .fault f

/-- The vector number of an exception (R230). -/
def Fault.vector : Fault → Nat
  | .invalidOpcode => 6
  | .deviceNotAvailable => 7
  | .floatingPointError => 16
  | .generalProtection => 13
  | .stackFault => 12
  | .pageFault _ => 14
  | .alignmentCheck => 17
  | .interrupt13 => 13

/-- The error code reported with an exception (R230, R71 for #AC). -/
def Fault.errorCode : Fault → Option Dword
  | .invalidOpcode => none
  | .deviceNotAvailable => none
  | .floatingPointError => none
  | .generalProtection => some 0
  | .stackFault => some 0
  | .pageFault code => some code
  | .alignmentCheck => some 0
  | .interrupt13 => none

/-- `MemWrite(seg, ea, n, v)` with v as its n bytes: all are written or none is (R66); a store into the program's own
bytes is refused (R78). -/
def State.memWrite (s : State) (seg : SegReg) (ea : Dword) (bytes : List Byte) : Host.Outcome State Fault Refusal :=
  match s.accessCheck seg ea bytes.length .write with
  | .error f => raise f
  | .ok a => if s.storeHitsProgram a bytes.length then .refused .storeIntoProgram else .next (s.storeBytes a bytes)

/-! ### Entry checks -/

/-- `MMXEntryChecks()`: #UD, then #NM, then #MF (R236, D10). -/
def State.entryFault (s : State) : Option Fault :=
  if s.cr0Em then some .invalidOpcode
  else if s.cr0Ts then some .deviceNotAvailable
  else if s.fpPending then some .floatingPointError
  else none

/-- The common start of every form: the entry checks, before any operand is read (R18, R236). -/
def checked (s : State) (body : Host.Outcome State Fault Refusal) : Host.Outcome State Fault Refusal :=
  match s.entryFault with
  | some f => raise f
  | none => body

/-! ### Fetch -/

/-- How many bytes of the program lie at EIP and after, when EIP is inside the program's region. -/
def State.programBytesLeft (s : State) : Nat := s.program.first.toNat + s.program.length - s.eip.toNat

/-- The bytes at EIP, through CS and the same memory as data (R60, R62): up to the longest instruction, none beyond the
program's region (R37, D19). DEDUCED, safe. notes/assumptions/11.md. -/
def State.fetchBytes (s : State) : List Byte :=
  (List.range (min maxLength s.programBytesLeft)).map fun k => s.byteAt (s.codeLinear (s.eip + BitVec.ofNat 32 k))

/-- Whether EIP lies inside the program's region (R272). -/
def State.eipInProgram (s : State) : Bool :=
  decide (s.program.first.toNat ≤ s.eip.toNat) && decide (s.eip.toNat < s.program.first.toNat + s.program.length)

/-- Whether EIP is the address of the first byte after the program (R272, D23). -/
def State.atProgramEnd (s : State) : Bool := decide (s.eip.toNat = s.program.first.toNat + s.program.length)

/-- Whether the program lies inside the code segment and below the end of the offset space, with EIP after it still an
offset (R37, D19, U18). DESIGN CHOICE (where the ends lie), safe. notes/assumptions/22.md. -/
def State.programInCodeSegment (s : State) : Bool :=
  s.segs.cs.usable && decide (s.segs.cs.first.toNat ≤ s.program.first.toNat)
    && decide (s.program.first.toNat + s.program.length ≤ s.segs.cs.last.toNat + 1)
    && decide (s.program.first.toNat + s.program.length < 2 ^ 32)

/-- Whether no byte of the program lies where reads page-fault (R244, D19). -/
def State.programPagesPresent (s : State) : Bool :=
  s.mode == .realAddress
    || (s.pageFaults (s.codeLinear s.program.first) s.program.length .read).isEmpty

/-- The instruction at EIP, or why the step has no meaning (R18, R37, R109, R272). -/
def State.fetch (s : State) : Except Refusal Instr :=
  if s.atProgramEnd then .error .programDone
  else if !s.eipInProgram then .error .fetchOutsideProgram
  else if !(s.programInCodeSegment && s.programPagesPresent) then .error .programNotFetchable
  else
    match decode s.addrSize s.fetchBytes with
    | .ok (i, _) => .ok i
    | .error .truncated => .error .fetchOutsideProgram
    | .error e => .error (.undecodable e)

/-- A program loaded from outside the machine: its bytes stored in CS from EIP on, and its region set to them (R272). -/
def State.loadProgram (s : State) (bytes : List Byte) : State :=
  { s.storeBytes (s.codeLinear s.eip) bytes with program := { first := s.eip, length := bytes.length } }

end Sys2Proof.Machine
end

