-- ==== Sys2Proof/Machine/Flags.lean ====
section
/-!
DEFINITION. The tag word updates and the completion of an instruction. These are the only status updates the spec
gives: no MMX instruction computes, reads or writes a condition flag (spec/00_scope.md R6, spec/10_state.md R38), so
there is no flag computation to write here.
-/

namespace Sys2Proof.Machine

/-- The tag word that marks every floating-point register empty: all ones (R33). -/
def tagsEmpty : BitVec 16 := 0xFFFF

/-- The tag word that marks every floating-point register valid: all zeros (R34). -/
def tagsValid : BitVec 16 := 0x0000

/-- `TW <- v`: TW is only ever written whole (R35). -/
def State.setTags (s : State) (v : BitVec 16) : State := { s with tw := v }

/-- `EIP <- EIP + L` (R37). -/
def State.advance (s : State) (len : Nat) : State := { s with eip := s.eip + BitVec.ofNat 32 len }

/-- Steps 6 and 7 of every form but EMMS: `TW <- 0x0000`, `EIP <- EIP + L` (R18, R34). -/
def State.complete (s : State) (len : Nat) : State := (s.setTags tagsValid).advance len

end Sys2Proof.Machine
end

