-- ==== Sys2Proof/Machine/Operands.lean ====
section
/-!
DEFINITION. Effective addresses, the segment of a memory operand, and the source operands SRC64 and SRC32
(spec/30_encoding.md R99 to R108).
-/

namespace Sys2Proof.Machine

/-- The low 16 bits of an integer register (R36, R102). -/
def State.readGpr16 (s : State) (r : Gpr) : BitVec 16 := (s.readGpr r).setWidth 16

/-- The register part of a 16-bit address, modulo 2^16 (R102). -/
def State.base16 (s : State) : Base16 → BitVec 16
  | .bxSi => s.readGpr16 .ebx + s.readGpr16 .esi
  | .bxDi => s.readGpr16 .ebx + s.readGpr16 .edi
  | .bpSi => s.readGpr16 .ebp + s.readGpr16 .esi
  | .bpDi => s.readGpr16 .ebp + s.readGpr16 .edi
  | .si => s.readGpr16 .esi
  | .di => s.readGpr16 .edi
  | .bp => s.readGpr16 .ebp
  | .bx => s.readGpr16 .ebx

/-- The effective address of a 16-bit address, modulo 2^16; a disp8 is sign-extended (R102). -/
def State.ea16 (s : State) : Addr16 → BitVec 16
  | .base b => s.base16 b
  | .disp16 d => d
  | .baseDisp8 b d => s.base16 b + d.signExtend 16
  | .baseDisp16 b d => s.base16 b + d

/-- `Index * 2^scale`, modulo 2^32; no index is 0 whatever the scale (R100). -/
def State.scaledIndex (s : State) (x : ScaledIndex) : Dword :=
  match x.index with
  | none => 0
  | some r => s.readGpr r <<< x.scale.toNat

/-- The effective address of a 32-bit address, modulo 2^32; a disp8 is sign-extended (R99, R100). -/
def State.ea32 (s : State) : Addr32 → Dword
  | .reg r => s.readGpr r
  | .disp32 d => d
  | .regDisp8 r d => s.readGpr r + d.signExtend 32
  | .regDisp32 r d => s.readGpr r + d
  | .sib x b => s.readGpr b + s.scaledIndex x
  | .sibNoBase x d => s.scaledIndex x + d
  | .sibDisp8 x b d => s.readGpr b + s.scaledIndex x + d.signExtend 32
  | .sibDisp32 x b d => s.readGpr b + s.scaledIndex x + d

/-- The effective address as an offset of 32 bits; a 16-bit one has zeros above it (R60, R102). DEDUCED,
unsafe. notes/assumptions/21.md. -/
def State.effectiveAddress (s : State) : Addr → Dword
  | .a16 a => (s.ea16 a).setWidth 32
  | .a32 a => s.ea32 a

/-- The default segment by base register: SS for ESP and EBP, else DS (R105). -/
def baseSegment : Gpr → SegReg
  | .eax => .ds
  | .ecx => .ds
  | .edx => .ds
  | .ebx => .ds
  | .esp => .ss
  | .ebp => .ss
  | .esi => .ds
  | .edi => .ds

/-- The default segment by the register part of a 16-bit address: SS where it uses BP (R105). -/
def baseSegment16 : Base16 → SegReg
  | .bxSi => .ds
  | .bxDi => .ds
  | .bpSi => .ss
  | .bpDi => .ss
  | .si => .ds
  | .di => .ds
  | .bp => .ss
  | .bx => .ds

/-- The default segment of an address (R105): by its base register; DS where it has none. -/
def defaultSegment : Addr → SegReg
  | .a16 (.base b) => baseSegment16 b
  | .a16 (.disp16 _) => .ds
  | .a16 (.baseDisp8 b _) => baseSegment16 b
  | .a16 (.baseDisp16 b _) => baseSegment16 b
  | .a32 (.reg r) => baseSegment r
  | .a32 (.disp32 _) => .ds
  | .a32 (.regDisp8 r _) => baseSegment r
  | .a32 (.regDisp32 r _) => baseSegment r
  | .a32 (.sib _ b) => baseSegment b
  | .a32 (.sibNoBase _ _) => .ds
  | .a32 (.sibDisp8 _ b _) => baseSegment b
  | .a32 (.sibDisp32 _ b _) => baseSegment b

/-- The segment override among the prefixes (R105). -/
def overrideSegment : Prefixes → Option SegReg
  | .none => none
  | .seg s => some s
  | .addr => none
  | .segAddr s => some s
  | .addrSeg s => some s

/-- The segment of a memory operand: the override, else the default (R105). -/
def operandSegment (m : MemOperand) : SegReg := (overrideSegment m.prefixes).getD (defaultSegment m.addr)

/-- `SRC64` of an mm/m64 operand (R108). -/
def State.source64 (s : State) : Rm Mm → Except Fault Qword
  | .reg r => .ok (s.readMm r)
  | .mem m => s.memRead64 (operandSegment m) (s.effectiveAddress m.addr)

/-- `SRC32` of an mm/m32 operand: the low half of a register, or four bytes of memory (R108). -/
def State.source32 (s : State) : Rm Mm → Except Fault Dword
  | .reg r => .ok ((s.readMm r).extractLsb' 0 32)
  | .mem m => s.memRead32 (operandSegment m) (s.effectiveAddress m.addr)

/-- `SRC32` of the r/m32 operand of MOVD (R108). -/
def State.sourceGpr (s : State) : Rm Gpr → Except Fault Dword
  | .reg r => .ok (s.readGpr r)
  | .mem m => s.memRead32 (operandSegment m) (s.effectiveAddress m.addr)

/-- A form `mm, mm/m64` whose result is a function of the old destination and SRC64 (R18). -/
def packed64 (f : Qword → Qword → Qword) (d : Mm) (src : Rm Mm) (s : State) : Host.Outcome State Fault Refusal :=
  checked s <|
    match s.source64 src with
    | .error e => raise e
    | .ok v => .next ((s.writeMm d (f (s.readMm d) v)).complete src.length)

/-- A form `mm, mm/m32` whose result is a function of the old destination and SRC32 (R18). -/
def packed32 (f : Qword → Dword → Qword) (d : Mm) (src : Rm Mm) (s : State) : Host.Outcome State Fault Refusal :=
  checked s <|
    match s.source32 src with
    | .error e => raise e
    | .ok v => .next ((s.writeMm d (f (s.readMm d) v)).complete src.length)

/-- A shift form `mm, mm/m64`: the count is all 64 bits of the source, unsigned (R193, R194, D2). -/
def shiftByOperand (f : Nat → Qword → Qword) (d : Mm) (src : Rm Mm) (s : State) : Host.Outcome State Fault Refusal :=
  packed64 (fun dest count => f count.toNat dest) d src s

/-- A shift form `mm, imm8`: the count is the unsigned value of the byte (R193, R194, D1). -/
def shiftByImm (f : Nat → Qword → Qword) (d : Mm) (imm : Byte) (s : State) : Host.Outcome State Fault Refusal :=
  checked s (.next ((s.writeMm d (f imm.toNat (s.readMm d))).complete formatRILength))

/-- The end of a store to memory: MemWrite, then the completion (R18, R66). -/
def storeToMemory (m : MemOperand) (bytes : List Byte) (len : Nat) (s : State) : Host.Outcome State Fault Refusal :=
  match s.memWrite (operandSegment m) (s.effectiveAddress m.addr) bytes with
  | .next s' => .next (s'.complete len)
  | .fault f => .fault f
  | .refused r => .refused r

end Sys2Proof.Machine
end

