-- ==== Sys2Proof/Machine/Arithmetic.lean ====
section
/-!
DEFINITION. The arithmetic instructions (spec/40_arithmetic.md), one definition per form.
-/

namespace Sys2Proof.Machine

/-- `PADDB mm, mm/m64` (R131). -/
def execPaddb (d : Mm) (src : Rm Mm) (s : State) : Host.Outcome State Fault Refusal :=
  packed64 (zip8 addWrap) d src s

/-- `PADDW mm, mm/m64` (R132). -/
def execPaddw (d : Mm) (src : Rm Mm) (s : State) : Host.Outcome State Fault Refusal :=
  packed64 (zip16 addWrap) d src s

/-- `PADDD mm, mm/m64` (R133). -/
def execPaddd (d : Mm) (src : Rm Mm) (s : State) : Host.Outcome State Fault Refusal :=
  packed64 (zip32 addWrap) d src s

/-- `PADDSB mm, mm/m64` (R134). -/
def execPaddsb (d : Mm) (src : Rm Mm) (s : State) : Host.Outcome State Fault Refusal :=
  packed64 (zip8 addSatS) d src s

/-- `PADDSW mm, mm/m64` (R135). -/
def execPaddsw (d : Mm) (src : Rm Mm) (s : State) : Host.Outcome State Fault Refusal :=
  packed64 (zip16 addSatS) d src s

/-- `PADDUSB mm, mm/m64` (R136). -/
def execPaddusb (d : Mm) (src : Rm Mm) (s : State) : Host.Outcome State Fault Refusal :=
  packed64 (zip8 addSatU) d src s

/-- `PADDUSW mm, mm/m64` (R137). -/
def execPaddusw (d : Mm) (src : Rm Mm) (s : State) : Host.Outcome State Fault Refusal :=
  packed64 (zip16 addSatU) d src s

/-- `PMADDWD mm, mm/m64` (R145). -/
def execPmaddwd (d : Mm) (src : Rm Mm) (s : State) : Host.Outcome State Fault Refusal :=
  packed64 madd d src s

/-- `PMULHW mm, mm/m64` (R146). -/
def execPmulhw (d : Mm) (src : Rm Mm) (s : State) : Host.Outcome State Fault Refusal :=
  packed64 (zip16 mulHigh) d src s

/-- `PMULLW mm, mm/m64` (R147). -/
def execPmullw (d : Mm) (src : Rm Mm) (s : State) : Host.Outcome State Fault Refusal :=
  packed64 (zip16 mulLow) d src s

/-- `PSUBB mm, mm/m64` (R138). -/
def execPsubb (d : Mm) (src : Rm Mm) (s : State) : Host.Outcome State Fault Refusal :=
  packed64 (zip8 subWrap) d src s

/-- `PSUBW mm, mm/m64` (R139). -/
def execPsubw (d : Mm) (src : Rm Mm) (s : State) : Host.Outcome State Fault Refusal :=
  packed64 (zip16 subWrap) d src s

/-- `PSUBD mm, mm/m64` (R140). -/
def execPsubd (d : Mm) (src : Rm Mm) (s : State) : Host.Outcome State Fault Refusal :=
  packed64 (zip32 subWrap) d src s

/-- `PSUBSB mm, mm/m64` (R141). -/
def execPsubsb (d : Mm) (src : Rm Mm) (s : State) : Host.Outcome State Fault Refusal :=
  packed64 (zip8 subSatS) d src s

/-- `PSUBSW mm, mm/m64` (R142). -/
def execPsubsw (d : Mm) (src : Rm Mm) (s : State) : Host.Outcome State Fault Refusal :=
  packed64 (zip16 subSatS) d src s

/-- `PSUBUSB mm, mm/m64` (R143). -/
def execPsubusb (d : Mm) (src : Rm Mm) (s : State) : Host.Outcome State Fault Refusal :=
  packed64 (zip8 subSatU) d src s

/-- `PSUBUSW mm, mm/m64` (R144). -/
def execPsubusw (d : Mm) (src : Rm Mm) (s : State) : Host.Outcome State Fault Refusal :=
  packed64 (zip16 subSatU) d src s

end Sys2Proof.Machine
end

