-- ==== Sys2Proof/Machine/Comparison.lean ====
section
/-!
DEFINITION. The comparison instructions (spec/41_comparison.md), one definition per form.
-/

namespace Sys2Proof.Machine

/-- `PCMPEQB mm, mm/m64` (R161). -/
def execPcmpeqb (d : Mm) (src : Rm Mm) (s : State) : Host.Outcome State Fault Refusal :=
  packed64 (zip8 cmpEq) d src s

/-- `PCMPEQW mm, mm/m64` (R162). -/
def execPcmpeqw (d : Mm) (src : Rm Mm) (s : State) : Host.Outcome State Fault Refusal :=
  packed64 (zip16 cmpEq) d src s

/-- `PCMPEQD mm, mm/m64` (R163). -/
def execPcmpeqd (d : Mm) (src : Rm Mm) (s : State) : Host.Outcome State Fault Refusal :=
  packed64 (zip32 cmpEq) d src s

/-- `PCMPGTB mm, mm/m64` (R164). -/
def execPcmpgtb (d : Mm) (src : Rm Mm) (s : State) : Host.Outcome State Fault Refusal :=
  packed64 (zip8 cmpGt) d src s

/-- `PCMPGTW mm, mm/m64` (R165). -/
def execPcmpgtw (d : Mm) (src : Rm Mm) (s : State) : Host.Outcome State Fault Refusal :=
  packed64 (zip16 cmpGt) d src s

/-- `PCMPGTD mm, mm/m64` (R166). -/
def execPcmpgtd (d : Mm) (src : Rm Mm) (s : State) : Host.Outcome State Fault Refusal :=
  packed64 (zip32 cmpGt) d src s

end Sys2Proof.Machine
end

