-- ==== Sys2Proof/Machine/Conversion.lean ====
section
/-!
DEFINITION. The conversion instructions (pack and unpack) (spec/42_conversion.md), one definition per form.
-/

namespace Sys2Proof.Machine

/-- `PACKSSWB mm, mm/m64` (R171). -/
def execPacksswb (d : Mm) (src : Rm Mm) (s : State) : Host.Outcome State Fault Refusal :=
  packed64 (packWords (satS 8)) d src s

/-- `PACKSSDW mm, mm/m64` (R172). -/
def execPackssdw (d : Mm) (src : Rm Mm) (s : State) : Host.Outcome State Fault Refusal :=
  packed64 (packDwords (satS 16)) d src s

/-- `PACKUSWB mm, mm/m64` (R173). -/
def execPackuswb (d : Mm) (src : Rm Mm) (s : State) : Host.Outcome State Fault Refusal :=
  packed64 (packWords (satU 8)) d src s

/-- `PUNPCKHBW mm, mm/m64` (R174). -/
def execPunpckhbw (d : Mm) (src : Rm Mm) (s : State) : Host.Outcome State Fault Refusal :=
  packed64 unpackHighBytes d src s

/-- `PUNPCKHWD mm, mm/m64` (R175). -/
def execPunpckhwd (d : Mm) (src : Rm Mm) (s : State) : Host.Outcome State Fault Refusal :=
  packed64 unpackHighWords d src s

/-- `PUNPCKHDQ mm, mm/m64` (R176). -/
def execPunpckhdq (d : Mm) (src : Rm Mm) (s : State) : Host.Outcome State Fault Refusal :=
  packed64 unpackHighDwords d src s

/-- `PUNPCKLBW mm, mm/m32` (R177). -/
def execPunpcklbw (d : Mm) (src : Rm Mm) (s : State) : Host.Outcome State Fault Refusal :=
  packed32 unpackLowBytes d src s

/-- `PUNPCKLWD mm, mm/m32` (R178). -/
def execPunpcklwd (d : Mm) (src : Rm Mm) (s : State) : Host.Outcome State Fault Refusal :=
  packed32 unpackLowWords d src s

/-- `PUNPCKLDQ mm, mm/m32` (R179). -/
def execPunpckldq (d : Mm) (src : Rm Mm) (s : State) : Host.Outcome State Fault Refusal :=
  packed32 unpackLowDwords d src s

end Sys2Proof.Machine
end

