-- ==== Sys2Proof/Machine/DataTransfer.lean ====
section
/-!
DEFINITION. The data transfer instructions (spec/45_data_transfer.md), one definition per form. In the store forms the
reg field is the source and rm the destination (R215).
-/

namespace Sys2Proof.Machine

/-- `MOVD mm, r/m32`: the source, zero-extended to 64 bits (R216, C12). -/
def execMovdLoad (d : Mm) (src : Rm Gpr) (s : State) : Host.Outcome State Fault Refusal :=
  checked s <|
    match s.sourceGpr src with
    | .error e => raise e
    | .ok v => .next ((s.writeMm d (v.setWidth 64)).complete src.length)

/-- `MOVD r/m32, mm`: the low doubleword of the register, to an integer register or four bytes of memory (R217). -/
def execMovdStore (dst : Rm Gpr) (src : Mm) (s : State) : Host.Outcome State Fault Refusal :=
  checked s <|
    match dst with
    | .reg r => .next ((s.writeGpr r ((s.readMm src).extractLsb' 0 32)).complete dst.length)
    | .mem m => storeToMemory m (bytes32 ((s.readMm src).extractLsb' 0 32)) dst.length s

/-- `MOVQ mm, mm/m64` (R218). -/
def execMovqLoad (d : Mm) (src : Rm Mm) (s : State) : Host.Outcome State Fault Refusal :=
  packed64 (fun _ v => v) d src s

/-- `MOVQ mm/m64, mm`: the register, to an MMX register or eight bytes of memory (R219). -/
def execMovqStore (dst : Rm Mm) (src : Mm) (s : State) : Host.Outcome State Fault Refusal :=
  checked s <|
    match dst with
    | .reg r => .next ((s.writeMm r (s.readMm src)).complete dst.length)
    | .mem m => storeToMemory m (bytes64 (s.readMm src)) dst.length s

end Sys2Proof.Machine
end

