-- ==== Sys2Proof/Machine/Emms.lean ====
section
/-!
DEFINITION. EMMS (spec/46_emms.md).
-/

namespace Sys2Proof.Machine

/-- `EMMS`: the tag word to empty, and nothing else (R225). -/
def execEmms (s : State) : Host.Outcome State Fault Refusal :=
  checked s (.next ((s.setTags tagsEmpty).advance formatELength))

end Sys2Proof.Machine
end

