-- ==== Sys2Proof/Machine/Logical.lean ====
section
/-!
DEFINITION. The logical instructions (spec/43_logical.md), one definition per form.
-/

namespace Sys2Proof.Machine

/-- `PAND mm, mm/m64` (R186). -/
def execPand (d : Mm) (src : Rm Mm) (s : State) : Host.Outcome State Fault Refusal :=
  packed64 (fun a b => a &&& b) d src s

/-- `PANDN mm, mm/m64` (R187). -/
def execPandn (d : Mm) (src : Rm Mm) (s : State) : Host.Outcome State Fault Refusal :=
  packed64 (fun a b => ~~~a &&& b) d src s

/-- `POR mm, mm/m64` (R188). -/
def execPor (d : Mm) (src : Rm Mm) (s : State) : Host.Outcome State Fault Refusal :=
  packed64 (fun a b => a ||| b) d src s

/-- `PXOR mm, mm/m64` (R189). -/
def execPxor (d : Mm) (src : Rm Mm) (s : State) : Host.Outcome State Fault Refusal :=
  packed64 (fun a b => a ^^^ b) d src s

end Sys2Proof.Machine
end

