-- ==== Sys2Proof/Machine/Shift.lean ====
section
/-!
DEFINITION. The shift instructions (spec/44_shift.md), one definition per form.
-/

namespace Sys2Proof.Machine

/-- `PSLLW mm, mm/m64` (R195). -/
def execPsllw (d : Mm) (src : Rm Mm) (s : State) : Host.Outcome State Fault Refusal :=
  shiftByOperand (fun count => map16 (shiftLeft count)) d src s

/-- `PSLLW mm, imm8` (R196). -/
def execPsllwImm (d : Mm) (imm : Byte) (s : State) : Host.Outcome State Fault Refusal :=
  shiftByImm (fun count => map16 (shiftLeft count)) d imm s

/-- `PSLLD mm, mm/m64` (R197). -/
def execPslld (d : Mm) (src : Rm Mm) (s : State) : Host.Outcome State Fault Refusal :=
  shiftByOperand (fun count => map32 (shiftLeft count)) d src s

/-- `PSLLD mm, imm8` (R198). -/
def execPslldImm (d : Mm) (imm : Byte) (s : State) : Host.Outcome State Fault Refusal :=
  shiftByImm (fun count => map32 (shiftLeft count)) d imm s

/-- `PSLLQ mm, mm/m64` (R199). -/
def execPsllq (d : Mm) (src : Rm Mm) (s : State) : Host.Outcome State Fault Refusal :=
  shiftByOperand (fun count => shiftLeft count) d src s

/-- `PSLLQ mm, imm8` (R200). -/
def execPsllqImm (d : Mm) (imm : Byte) (s : State) : Host.Outcome State Fault Refusal :=
  shiftByImm (fun count => shiftLeft count) d imm s

/-- `PSRAW mm, mm/m64` (R207). -/
def execPsraw (d : Mm) (src : Rm Mm) (s : State) : Host.Outcome State Fault Refusal :=
  shiftByOperand (fun count => map16 (shiftRightSigned count)) d src s

/-- `PSRAW mm, imm8` (R208). -/
def execPsrawImm (d : Mm) (imm : Byte) (s : State) : Host.Outcome State Fault Refusal :=
  shiftByImm (fun count => map16 (shiftRightSigned count)) d imm s

/-- `PSRAD mm, mm/m64` (R209). -/
def execPsrad (d : Mm) (src : Rm Mm) (s : State) : Host.Outcome State Fault Refusal :=
  shiftByOperand (fun count => map32 (shiftRightSigned count)) d src s

/-- `PSRAD mm, imm8` (R210). -/
def execPsradImm (d : Mm) (imm : Byte) (s : State) : Host.Outcome State Fault Refusal :=
  shiftByImm (fun count => map32 (shiftRightSigned count)) d imm s

/-- `PSRLW mm, mm/m64` (R201). -/
def execPsrlw (d : Mm) (src : Rm Mm) (s : State) : Host.Outcome State Fault Refusal :=
  shiftByOperand (fun count => map16 (shiftRight count)) d src s

/-- `PSRLW mm, imm8` (R202). -/
def execPsrlwImm (d : Mm) (imm : Byte) (s : State) : Host.Outcome State Fault Refusal :=
  shiftByImm (fun count => map16 (shiftRight count)) d imm s

/-- `PSRLD mm, mm/m64` (R203). -/
def execPsrld (d : Mm) (src : Rm Mm) (s : State) : Host.Outcome State Fault Refusal :=
  shiftByOperand (fun count => map32 (shiftRight count)) d src s

/-- `PSRLD mm, imm8` (R204). -/
def execPsrldImm (d : Mm) (imm : Byte) (s : State) : Host.Outcome State Fault Refusal :=
  shiftByImm (fun count => map32 (shiftRight count)) d imm s

/-- `PSRLQ mm, mm/m64` (R205). -/
def execPsrlq (d : Mm) (src : Rm Mm) (s : State) : Host.Outcome State Fault Refusal :=
  shiftByOperand (fun count => shiftRight count) d src s

/-- `PSRLQ mm, imm8` (R206). -/
def execPsrlqImm (d : Mm) (imm : Byte) (s : State) : Host.Outcome State Fault Refusal :=
  shiftByImm (fun count => shiftRight count) d imm s

end Sys2Proof.Machine
end

