-- ==== Sys2Proof/Machine/Dispatch.lean ====
section
/-!
DEFINITION. The meaning of every instruction: one arm per constructor of Instr, in the order of
spec/opcode_table.json.
-/

namespace Sys2Proof.Machine

def exec (i : Instr) (s : State) : Host.Outcome State Fault Refusal :=
  match i with
  | .emms => Sys2Proof.Machine.execEmms s
  | .movdLoad d src => Sys2Proof.Machine.execMovdLoad d src s
  | .movdStore dst src => Sys2Proof.Machine.execMovdStore dst src s
  | .movqLoad d src => Sys2Proof.Machine.execMovqLoad d src s
  | .movqStore dst src => Sys2Proof.Machine.execMovqStore dst src s
  | .packsswb d src => Sys2Proof.Machine.execPacksswb d src s
  | .packssdw d src => Sys2Proof.Machine.execPackssdw d src s
  | .packuswb d src => Sys2Proof.Machine.execPackuswb d src s
  | .paddb d src => Sys2Proof.Machine.execPaddb d src s
  | .paddw d src => Sys2Proof.Machine.execPaddw d src s
  | .paddd d src => Sys2Proof.Machine.execPaddd d src s
  | .paddsb d src => Sys2Proof.Machine.execPaddsb d src s
  | .paddsw d src => Sys2Proof.Machine.execPaddsw d src s
  | .paddusb d src => Sys2Proof.Machine.execPaddusb d src s
  | .paddusw d src => Sys2Proof.Machine.execPaddusw d src s
  | .pand d src => Sys2Proof.Machine.execPand d src s
  | .pandn d src => Sys2Proof.Machine.execPandn d src s
  | .pcmpeqb d src => Sys2Proof.Machine.execPcmpeqb d src s
  | .pcmpeqw d src => Sys2Proof.Machine.execPcmpeqw d src s
  | .pcmpeqd d src => Sys2Proof.Machine.execPcmpeqd d src s
  | .pcmpgtb d src => Sys2Proof.Machine.execPcmpgtb d src s
  | .pcmpgtw d src => Sys2Proof.Machine.execPcmpgtw d src s
  | .pcmpgtd d src => Sys2Proof.Machine.execPcmpgtd d src s
  | .pmaddwd d src => Sys2Proof.Machine.execPmaddwd d src s
  | .pmulhw d src => Sys2Proof.Machine.execPmulhw d src s
  | .pmullw d src => Sys2Proof.Machine.execPmullw d src s
  | .por d src => Sys2Proof.Machine.execPor d src s
  | .psllw d src => Sys2Proof.Machine.execPsllw d src s
  | .psllwImm d imm => Sys2Proof.Machine.execPsllwImm d imm s
  | .pslld d src => Sys2Proof.Machine.execPslld d src s
  | .pslldImm d imm => Sys2Proof.Machine.execPslldImm d imm s
  | .psllq d src => Sys2Proof.Machine.execPsllq d src s
  | .psllqImm d imm => Sys2Proof.Machine.execPsllqImm d imm s
  | .psraw d src => Sys2Proof.Machine.execPsraw d src s
  | .psrawImm d imm => Sys2Proof.Machine.execPsrawImm d imm s
  | .psrad d src => Sys2Proof.Machine.execPsrad d src s
  | .psradImm d imm => Sys2Proof.Machine.execPsradImm d imm s
  | .psrlw d src => Sys2Proof.Machine.execPsrlw d src s
  | .psrlwImm d imm => Sys2Proof.Machine.execPsrlwImm d imm s
  | .psrld d src => Sys2Proof.Machine.execPsrld d src s
  | .psrldImm d imm => Sys2Proof.Machine.execPsrldImm d imm s
  | .psrlq d src => Sys2Proof.Machine.execPsrlq d src s
  | .psrlqImm d imm => Sys2Proof.Machine.execPsrlqImm d imm s
  | .psubb d src => Sys2Proof.Machine.execPsubb d src s
  | .psubw d src => Sys2Proof.Machine.execPsubw d src s
  | .psubd d src => Sys2Proof.Machine.execPsubd d src s
  | .psubsb d src => Sys2Proof.Machine.execPsubsb d src s
  | .psubsw d src => Sys2Proof.Machine.execPsubsw d src s
  | .psubusb d src => Sys2Proof.Machine.execPsubusb d src s
  | .psubusw d src => Sys2Proof.Machine.execPsubusw d src s
  | .punpckhbw d src => Sys2Proof.Machine.execPunpckhbw d src s
  | .punpckhwd d src => Sys2Proof.Machine.execPunpckhwd d src s
  | .punpckhdq d src => Sys2Proof.Machine.execPunpckhdq d src s
  | .punpcklbw d src => Sys2Proof.Machine.execPunpcklbw d src s
  | .punpcklwd d src => Sys2Proof.Machine.execPunpcklwd d src s
  | .punpckldq d src => Sys2Proof.Machine.execPunpckldq d src s
  | .pxor d src => Sys2Proof.Machine.execPxor d src s

end Sys2Proof.Machine
end

