-- ==== Sys2Proof/Machine/Step.lean ====
section
/-!
DEFINITION. One step: fetch and decode the instruction at EIP, and run it. Each meaning advances EIP itself (R18), so
step adds nothing around exec.
-/

namespace Sys2Proof.Machine

/-- One whole instruction (R262; no interrupts and no time, DEDUCED, unsafe, notes/assumptions/19.md), three outcomes: next, fault, refused. -/
def step (s : State) : Host.Outcome State Fault Refusal :=
  match s.fetch with
  | .error r => .refused r
  | .ok i => exec i s

/-- The state with the instruction of a table word as its program: the bytes in CS from EIP on, zeros up to the longest
instruction, and the program's region set to them (notes/assumptions/5.md). -/
def State.withFetchWord (s : State) (nbits w : Nat) : State := s.loadProgram (tableImage nbits w)

end Sys2Proof.Machine
end

