-- ==== Sys2Proof/Safety.lean ====
section
/-!
DEFINITION. The terms that claims are stated in: when an instruction executes instead of raising, what its operands
are, what a completed instruction leaves unchanged, and the invariant of a run. Each is written from the rules'
conditions, not from the operations that the meanings call.
-/

namespace Sys2Proof

/-- The data memory access of a form whose operand is in memory: its width in bytes and its kind (spec/20_memory.md R63,
the table); none for EMMS and the immediate shifts. -/
def Instr.access : Instr → Option (Nat × AccessKind)
  | .emms => none
  | .movdLoad _ _ => some (4, .read)
  | .movdStore _ _ => some (4, .write)
  | .movqLoad _ _ => some (8, .read)
  | .movqStore _ _ => some (8, .write)
  | .packsswb _ _ => some (8, .read)
  | .packssdw _ _ => some (8, .read)
  | .packuswb _ _ => some (8, .read)
  | .paddb _ _ => some (8, .read)
  | .paddw _ _ => some (8, .read)
  | .paddd _ _ => some (8, .read)
  | .paddsb _ _ => some (8, .read)
  | .paddsw _ _ => some (8, .read)
  | .paddusb _ _ => some (8, .read)
  | .paddusw _ _ => some (8, .read)
  | .pand _ _ => some (8, .read)
  | .pandn _ _ => some (8, .read)
  | .pcmpeqb _ _ => some (8, .read)
  | .pcmpeqw _ _ => some (8, .read)
  | .pcmpeqd _ _ => some (8, .read)
  | .pcmpgtb _ _ => some (8, .read)
  | .pcmpgtw _ _ => some (8, .read)
  | .pcmpgtd _ _ => some (8, .read)
  | .pmaddwd _ _ => some (8, .read)
  | .pmulhw _ _ => some (8, .read)
  | .pmullw _ _ => some (8, .read)
  | .por _ _ => some (8, .read)
  | .psllw _ _ => some (8, .read)
  | .psllwImm _ _ => none
  | .pslld _ _ => some (8, .read)
  | .pslldImm _ _ => none
  | .psllq _ _ => some (8, .read)
  | .psllqImm _ _ => none
  | .psraw _ _ => some (8, .read)
  | .psrawImm _ _ => none
  | .psrad _ _ => some (8, .read)
  | .psradImm _ _ => none
  | .psrlw _ _ => some (8, .read)
  | .psrlwImm _ _ => none
  | .psrld _ _ => some (8, .read)
  | .psrldImm _ _ => none
  | .psrlq _ _ => some (8, .read)
  | .psrlqImm _ _ => none
  | .psubb _ _ => some (8, .read)
  | .psubw _ _ => some (8, .read)
  | .psubd _ _ => some (8, .read)
  | .psubsb _ _ => some (8, .read)
  | .psubsw _ _ => some (8, .read)
  | .psubusb _ _ => some (8, .read)
  | .psubusw _ _ => some (8, .read)
  | .punpckhbw _ _ => some (8, .read)
  | .punpckhwd _ _ => some (8, .read)
  | .punpckhdq _ _ => some (8, .read)
  | .punpcklbw _ _ => some (4, .read)
  | .punpcklwd _ _ => some (4, .read)
  | .punpckldq _ _ => some (4, .read)
  | .pxor _ _ => some (8, .read)

/-- The one MMX register that a form writes (spec/10_state.md R32); none for EMMS, `MOVD r/m32, mm` and
`MOVQ mm/m64, mm` with a memory destination. -/
def Instr.destMm : Instr → Option Mm
  | .emms => none
  | .movdLoad d _ => some d
  | .movdStore _ _ => none
  | .movqLoad d _ => some d
  | .movqStore (.reg r) _ => some r
  | .movqStore (.mem _) _ => none
  | .packsswb d _ => some d
  | .packssdw d _ => some d
  | .packuswb d _ => some d
  | .paddb d _ => some d
  | .paddw d _ => some d
  | .paddd d _ => some d
  | .paddsb d _ => some d
  | .paddsw d _ => some d
  | .paddusb d _ => some d
  | .paddusw d _ => some d
  | .pand d _ => some d
  | .pandn d _ => some d
  | .pcmpeqb d _ => some d
  | .pcmpeqw d _ => some d
  | .pcmpeqd d _ => some d
  | .pcmpgtb d _ => some d
  | .pcmpgtw d _ => some d
  | .pcmpgtd d _ => some d
  | .pmaddwd d _ => some d
  | .pmulhw d _ => some d
  | .pmullw d _ => some d
  | .por d _ => some d
  | .psllw d _ => some d
  | .psllwImm d _ => some d
  | .pslld d _ => some d
  | .pslldImm d _ => some d
  | .psllq d _ => some d
  | .psllqImm d _ => some d
  | .psraw d _ => some d
  | .psrawImm d _ => some d
  | .psrad d _ => some d
  | .psradImm d _ => some d
  | .psrlw d _ => some d
  | .psrlwImm d _ => some d
  | .psrld d _ => some d
  | .psrldImm d _ => some d
  | .psrlq d _ => some d
  | .psrlqImm d _ => some d
  | .psubb d _ => some d
  | .psubw d _ => some d
  | .psubd d _ => some d
  | .psubsb d _ => some d
  | .psubsw d _ => some d
  | .psubusb d _ => some d
  | .psubusw d _ => some d
  | .punpckhbw d _ => some d
  | .punpckhwd d _ => some d
  | .punpckhdq d _ => some d
  | .punpcklbw d _ => some d
  | .punpcklwd d _ => some d
  | .punpckldq d _ => some d
  | .pxor d _ => some d

end Sys2Proof

namespace Sys2Proof.Machine

/-- None of the three entry checks raises (spec/60_exceptions.md R236; the first three lines of R273). -/
abbrev State.entryClear (s : State) : Prop := s.cr0Em = false ∧ s.cr0Ts = false ∧ s.fpPending = false

/-- Alignment checking applies: ACEnable, and protected mode at CPL 3 or virtual-8086 mode (spec/20_memory.md R71). -/
abbrev State.checksAlignment (s : State) : Prop :=
  s.acEnable = true ∧ ((s.mode = .protectedMode ∧ s.cpl = 3) ∨ s.mode = .virtual8086)

/-- No byte of an n-byte access at linear address a lies where accesses of the kind page-fault (R73, R237). -/
abbrev State.pagesPresent (s : State) (a : Dword) (n : Nat) (kind : AccessKind) : Prop :=
  ∀ r ∈ s.pageRules, ∀ k < n, r.hits kind (a + BitVec.ofNat 32 k) = false

/-- An n-byte access of the kind at an offset is to no illegal address of the segment (protected mode, R68;
notes/assumptions/6.md). -/
abbrev Segment.legalAddress (g : Segment) (ea : Dword) (n : Nat) (kind : AccessKind) : Prop :=
  g.usable = true ∧ g.first.toNat ≤ ea.toNat ∧ ea.toNat + n - 1 ≤ g.last.toNat ∧ (kind = .read → g.readable = true)

/-- The segment admits an n-byte access of the kind at an offset (protected mode, R68). -/
abbrev Segment.admits (g : Segment) (ea : Dword) (n : Nat) (kind : AccessKind) : Prop :=
  g.usable = true ∧ g.first.toNat ≤ ea.toNat ∧ ea.toNat + n - 1 ≤ g.last.toNat
    ∧ (kind = .read → g.readable = true) ∧ (kind = .write → g.writable = true)

/-- An access that raises nothing, by mode (R68 to R71, R250, R273): in protected mode the segment admits it; in the two
other modes it ends at or below 0FFFFH; outside real-address mode its pages are present; and it is aligned where
alignment is checked. -/
abbrev State.accessLegal (s : State) (seg : SegReg) (ea : Dword) (n : Nat) (kind : AccessKind) : Prop :=
  (s.mode = .protectedMode → (s.segment seg).admits ea n kind)
    ∧ (s.mode ≠ .protectedMode → ea.toNat + n - 1 ≤ 0xFFFF)
    ∧ (s.mode ≠ .realAddress → s.pagesPresent (s.linear seg ea) n kind)
    ∧ (s.checksAlignment → (s.linear seg ea).toNat % n = 0)

/-- The linear address of a memory operand (spec/30_encoding.md R99 to R105, R60). -/
def State.operandAddress (s : State) (m : MemOperand) : Dword :=
  s.linear (operandSegment m) (s.effectiveAddress m.addr)

/-- A memory operand whose n-byte access raises nothing. -/
abbrev State.operandLegal (s : State) (m : MemOperand) (n : Nat) (kind : AccessKind) : Prop :=
  s.accessLegal (operandSegment m) (s.effectiveAddress m.addr) n kind

/-- A source operand that can be read: a register, or a legal n-byte read. -/
abbrev State.readable {ρ : Type} (s : State) (src : Rm ρ) (n : Nat) : Prop :=
  ∀ m, src = .mem m → s.operandLegal m n .read

/-- The value of an mm/m64 operand that can be read (R108). -/
def State.value64 (s : State) : Rm Mm → Qword
  | .reg r => s.readMm r
  | .mem m => s.load64 (s.operandAddress m)

/-- The value of an mm/m32 operand that can be read (R108). -/
def State.value32 (s : State) : Rm Mm → Dword
  | .reg r => (s.readMm r).setWidth 32
  | .mem m => s.load32 (s.operandAddress m)

/-- The value of an r/m32 operand that can be read (R108). -/
def State.valueGpr (s : State) : Rm Gpr → Dword
  | .reg r => s.readGpr r
  | .mem m => s.load32 (s.operandAddress m)

/-- What an instruction that writes one MMX register leaves: the register, TW = 0000h, EIP past the instruction, and
every other field as it was (R34, R37, R46). -/
def State.afterMm (s : State) (d : Mm) (r : Qword) (len : Nat) : State :=
  { s with mm := s.mm.set d r, tw := 0x0000#16, eip := s.eip + BitVec.ofNat 32 len }

/-- The entry checks of an instruction, in their order, and with nothing else done (R231, R232, R233, R236, R243). -/
def RaisesEntry (i : Instr) (s : State) : Prop :=
  (s.cr0Em = true → exec i s = .fault .invalidOpcode)
    ∧ (s.cr0Em = false → s.cr0Ts = true → exec i s = .fault .deviceNotAvailable)
    ∧ (s.cr0Em = false → s.cr0Ts = false → s.fpPending = true → exec i s = .fault .floatingPointError)

/-- Every exception of a form whose r/m operand is accessed with n bytes: the entry check that fails, else what
AccessCheck answers for an operand in memory (R18, R236, R241). -/
def RaisesOnAccess {ρ : Type} (i : Instr) (op : Rm ρ) (n : Nat) (kind : AccessKind) (s : State) : Prop :=
  RaisesEntry i s
    ∧ (s.entryClear → ∀ m f, op = .mem m →
        s.accessCheck (operandSegment m) (s.effectiveAddress m.addr) n kind = .error f → exec i s = .fault f)

/-- The whole rule of a form `mm, mm/m64` of format RM with second opcode byte `op`: its encoding, what it leaves when
it executes (a value r that `rel` relates to the old destination and the source), and what it raises. -/
def Form64 (op : Byte) (mk : Mm → Rm Mm → Instr) (rel : Qword → Qword → Qword → Prop) : Prop :=
  ∀ (d : Mm) (src : Rm Mm) (s : State),
    encode (mk d src) = src.bytes Mm.code op d
    ∧ (s.entryClear → s.readable src 8 →
        ∃ r, exec (mk d src) s = .next (s.afterMm d r src.length) ∧ rel (s.readMm d) (s.value64 src) r)
    ∧ RaisesOnAccess (mk d src) src 8 .read s

/-- The whole rule of a form `mm, mm/m32` (PUNPCKL): as `Form64`, with a source of 32 bits. -/
def Form32 (op : Byte) (mk : Mm → Rm Mm → Instr) (rel : Qword → Dword → Qword → Prop) : Prop :=
  ∀ (d : Mm) (src : Rm Mm) (s : State),
    encode (mk d src) = src.bytes Mm.code op d
    ∧ (s.entryClear → s.readable src 4 →
        ∃ r, exec (mk d src) s = .next (s.afterMm d r src.length) ∧ rel (s.readMm d) (s.value32 src) r)
    ∧ RaisesOnAccess (mk d src) src 4 .read s

/-- The whole rule of a shift `mm, imm8` of format RI: its four bytes, what it leaves when it executes (`rel` of the
unsigned count, the old destination and the result), and the three exceptions it can raise. -/
def FormImm (op : Byte) (digit : BitVec 3) (mk : Mm → Byte → Instr) (rel : Nat → Qword → Qword → Prop) : Prop :=
  ∀ (d : Mm) (imm : Byte) (s : State),
    encode (mk d imm) = [0x0F, op, fieldsByte 3 digit d.code, imm]
    ∧ (s.entryClear → ∃ r, exec (mk d imm) s = .next (s.afterMm d r 4) ∧ rel imm.toNat (s.readMm d) r)
    ∧ RaisesEntry (mk d imm) s

/-- The low n bytes of v are stored at the linear addresses from a on, and nothing else of memory changes (R61, R66):
a memory address that is none of theirs reads as before, and one of theirs reads as the last byte stored to it. -/
def State.storedAt (s : State) (a : Dword) (n : Nat) (v : Qword) (mem' : Memory) : Prop :=
  (∀ x : Nat, (∀ k < n, x ≠ (s.physical (a + BitVec.ofNat 32 k)).toNat) → mem'.read x = s.mem.read x)
    ∧ (s.mem.wf = true → mem'.wf = true ∧ ∀ k < n,
        (∀ j < n, k < j → s.physical (a + BitVec.ofNat 32 j) ≠ s.physical (a + BitVec.ofNat 32 k)) →
        mem'.read (s.physical (a + BitVec.ofNat 32 k)).toNat = v.extractLsb' (8 * k) 8)

/-- The whole rule of a store of the low n bytes of v to a memory operand m by an instruction of length len: what it
leaves when the access is legal and outside the program, the refusal inside it, and what it raises (R66, R78, R241). -/
def StoresToMemory (i : Instr) (m : MemOperand) (n : Nat) (v : Qword) (len : Nat) (s : State) : Prop :=
  (s.entryClear → s.operandLegal m n .write → s.storeHitsProgram (s.operandAddress m) n = false →
      ∃ mem', exec i s = .next { s with mem := mem', tw := 0x0000#16, eip := s.eip + BitVec.ofNat 32 len }
        ∧ s.storedAt (s.operandAddress m) n v mem')
    ∧ (s.entryClear → s.operandLegal m n .write → s.storeHitsProgram (s.operandAddress m) n = true →
        exec i s = .refused .storeIntoProgram)
    ∧ (s.entryClear → ∀ f, s.accessCheck (operandSegment m) (s.effectiveAddress m.addr) n .write = .error f →
        exec i s = .fault f)

/-- The state that no instruction changes: the condition flags, the control bits, the mode, the privilege level and the
launch parameters (R6, R39, R40, R42 to R45, R67, R272). -/
abbrev State.sameControl (s t : State) : Prop :=
  t.flags = s.flags ∧ t.cr0Em = s.cr0Em ∧ t.cr0Ts = s.cr0Ts ∧ t.fpPending = s.fpPending ∧ t.mode = s.mode
    ∧ t.cpl = s.cpl ∧ t.addrSize = s.addrSize ∧ t.acEnable = s.acEnable ∧ t.segs = s.segs
    ∧ t.pageRules = s.pageRules ∧ t.translation = s.translation ∧ t.program = s.program

/-- The bytes of memory from linear address a on, n of them, are at these memory addresses (R65). -/
def State.operandBytes (s : State) (a : Dword) (n : Nat) : List Nat :=
  (List.range n).map fun k => (s.physical (a + BitVec.ofNat 32 k)).toNat

/-- The bytes of the program from EIP to the end of its region (R272). -/
def State.bytesAhead (s : State) : List Byte :=
  (List.range s.programBytesLeft).map fun k => s.byteAt (s.codeLinear (s.eip + BitVec.ofNat 32 k))

/-- The program lies wholly in fetchable memory (R37, R244, D19; notes/assumptions/22.md): inside the code segment, its
end an offset below 2^32, and none of its bytes where reads page-fault. -/
abbrev State.programFetchable (s : State) : Prop :=
  s.segs.cs.usable = true ∧ s.segs.cs.first.toNat ≤ s.program.first.toNat
    ∧ s.program.first.toNat + s.program.length ≤ s.segs.cs.last.toNat + 1
    ∧ s.program.first.toNat + s.program.length < 2 ^ 32
    ∧ (s.mode ≠ .realAddress → s.pagesPresent (s.codeLinear s.program.first) s.program.length .read)

/-- The program lies in fetchable memory, and from EIP to its end it is the encodings of these instructions, each well
formed under the default address size (R272, D19). -/
abbrev State.programAhead (s : State) (is : List Instr) : Prop :=
  (∀ i ∈ is, i.wf s.addrSize = true) ∧ s.programFetchable
    ∧ s.program.first.toNat ≤ s.eip.toNat ∧ s.eip.toNat ≤ s.program.first.toNat + s.program.length
    ∧ s.bytesAhead = is.flatMap encode

/-- A ModR/M byte with these mod and rm, followed by these bytes, is an address whose effective address is `ea` and whose
default segment is `seg` (R99 to R102, R105). -/
def State.addressForm (s : State) (size : AddrSize) (mod : BitVec 2) (rm : BitVec 3) (bytes : List Byte) (ea : Dword)
    (seg : SegReg) : Prop :=
  ∀ rest, ∃ a, decodeAddr size mod rm (bytes ++ rest) = some (a, rest) ∧ s.effectiveAddress a = ea
    ∧ defaultSegment a = seg

/-- The register part of a 16-bit address as a sum, by the rows of R102: BX, BP, SI, DI are the low 16 bits. -/
def State.baseSum16 (s : State) (rm : BitVec 3) : Nat :=
  match rm.toNat with
  | 0 => (s.readGpr .ebx).toNat % 65536 + (s.readGpr .esi).toNat % 65536
  | 1 => (s.readGpr .ebx).toNat % 65536 + (s.readGpr .edi).toNat % 65536
  | 2 => (s.readGpr .ebp).toNat % 65536 + (s.readGpr .esi).toNat % 65536
  | 3 => (s.readGpr .ebp).toNat % 65536 + (s.readGpr .edi).toNat % 65536
  | 4 => (s.readGpr .esi).toNat % 65536
  | 5 => (s.readGpr .edi).toNat % 65536
  | 6 => (s.readGpr .ebp).toNat % 65536
  | _ => (s.readGpr .ebx).toNat % 65536

/-- `Index * 2^scale` of a SIB byte: Index is 0 for index = 100 (R100). -/
def State.indexProduct (s : State) (scale : BitVec 2) (index : BitVec 3) : Nat :=
  if index = 4 then 0 else (s.readGpr (Gpr.ofCode index)).toNat * 2 ^ scale.toNat

/-- The invariant of a run (R272, D19): memory is canonical, the program's region ends below the end of the offset space,
and EIP is in it or at the first byte after it. -/
abbrev State.runInv (s : State) : Prop :=
  s.mem.wf = true ∧ s.program.first.toNat + s.program.length < 2 ^ 32
    ∧ s.program.first.toNat ≤ s.eip.toNat ∧ s.eip.toNat ≤ s.program.first.toNat + s.program.length

end Sys2Proof.Machine
end

