-- ==== Sys2Proof/Certificates/Slice0/Obligations.lean ====
section
/-!
DEFINITION. The statements for the provers, in the order of OBLIGATIONS.json: encoding, exceptions, memory, the machine,
then one group of instructions after another.
-/

section

open Sys2Proof Sys2Proof.Machine

/-! ### Encoding -/

/-- A few rows of the opcode map, one of each family and format, written out from their encodings (R91, R115). -/
def Obligations.DecodesWordsOfEveryFamily : Prop :=
  decode .a32 [0x0F, 0x77] = .ok (.emms, [])
  ∧ decode .a32 [0x0F, 0x6E, 0xC8] = .ok (.movdLoad .mm1 (.reg .eax), [])
  ∧ decode .a32 [0x0F, 0x7F, 0x0B] = .ok (.movqStore (.mem ⟨.none, .a32 (.reg .ebx)⟩) .mm1, [])
  ∧ decode .a32 [0x0F, 0xFC, 0xC1] = .ok (.paddb .mm0 (.reg .mm1), [])
  ∧ decode .a32 [0x0F, 0x75, 0xD3] = .ok (.pcmpeqw .mm2 (.reg .mm3), [])
  ∧ decode .a32 [0x0F, 0x60, 0x46, 0x08] = .ok (.punpcklbw .mm0 (.mem ⟨.none, .a32 (.regDisp8 .esi 0x08)⟩), [])
  ∧ decode .a32 [0x0F, 0xDF, 0xFC] = .ok (.pandn .mm7 (.reg .mm4), [])
  ∧ decode .a32 [0x0F, 0x71, 0xF1, 0x04] = .ok (.psllwImm .mm1 0x04, [])
  ∧ decode .a16 [0x2E, 0x67, 0x0F, 0xE1, 0x2C, 0xB5, 0x78, 0x56, 0x34, 0x12]
      = .ok (.psraw .mm5 (.mem ⟨.segAddr .cs, .a32 (.sibNoBase ⟨2, some .esi⟩ 0x12345678)⟩), [])

/-- Decoding the encoding of a well-formed instruction gives it back, whatever bytes follow (R90 to R111, R115). -/
def Obligations.DecodeInvertsEncode : Prop :=
  ∀ (dflt : AddrSize) (i : Instr) (rest : List Byte),
    i.wf dflt = true → decode dflt (encode i ++ rest) = .ok (i, rest)

/-- What the decoder accepts is the encoding of a well-formed instruction: no two byte sequences mean one instruction
(R109, R111, R116). -/
def Obligations.EncodeInvertsDecode : Prop :=
  ∀ (dflt : AddrSize) (bytes rest : List Byte) (i : Instr),
    decode dflt bytes = .ok (i, rest) → i.wf dflt = true ∧ bytes = encode i ++ rest

/-- The length L of R106 is the number of bytes of the encoding, and lies between 2 and 10. -/
def Obligations.LengthCountsEncodedBytes : Prop :=
  ∀ i : Instr, (encode i).length = i.length ∧ 2 ≤ i.length ∧ i.length ≤ 10

/-- R109 (the spec's decisions D3, D4): a step at a byte sequence that begins 0F and is none of the 57 encodings is
refused by name (which name, notes/assumptions/15.md): a second byte that the opcode map does not assign, a /digit that
a group does not define, a memory operand in a group. The program is fetchable (D19, notes/assumptions/22.md). -/
def Obligations.UndefinedEncodingsRefused : Prop :=
  ∀ (s : State) (op : Byte) (rest : List Byte),
    s.eipInProgram = true → s.programFetchable → s.fetchBytes = 0x0F :: op :: rest →
    (op ∉ ([0x60, 0x61, 0x62, 0x63, 0x64, 0x65, 0x66, 0x67, 0x68, 0x69, 0x6A, 0x6B, 0x6E, 0x6F, 0x71, 0x72, 0x73, 0x74,
        0x75, 0x76, 0x77, 0x7E, 0x7F, 0xD1, 0xD2, 0xD3, 0xD5, 0xD8, 0xD9, 0xDB, 0xDC, 0xDD, 0xDF, 0xE1, 0xE2, 0xE5, 0xE8,
        0xE9, 0xEB, 0xEC, 0xED, 0xEF, 0xF1, 0xF2, 0xF3, 0xF5, 0xF8, 0xF9, 0xFA, 0xFC, 0xFD, 0xFE] : List Byte) →
      step s = .refused (.undecodable .notMmx))
    ∧ (∀ (digit rm : BitVec 3) (imm : Byte) (tail : List Byte), rest = fieldsByte 3 digit rm :: imm :: tail →
        (((op = 0x71 ∨ op = 0x72) ∧ digit ∉ ([2, 4, 6] : List (BitVec 3)))
          ∨ (op = 0x73 ∧ digit ∉ ([2, 6] : List (BitVec 3)))) →
        step s = .refused (.undecodable .undefinedDigit))
    ∧ (∀ (mod : BitVec 2) (reg rm : BitVec 3) (tail : List Byte), rest = fieldsByte mod reg rm :: tail → mod ≠ 3 →
        (op = 0x71 ∨ op = 0x72 ∨ op = 0x73) → step s = .refused (.undecodable .groupMemoryOperand))

/-- R111 (the spec's decision D5): after any admitted prefixes, a prefix 66h, F0h, F2h or F3h is refused, so is a second
segment override or a second 67h, and any prefix before a form without a memory operand. Which name a refusal has, the
first that fits from the left, is the model's choice (notes/assumptions/15.md). -/
def Obligations.RefusedPrefixes : Prop :=
  ∀ (dflt : AddrSize) (p : Prefixes) (rest : List Byte),
    (∀ b ∈ ([0x66, 0xF0, 0xF2, 0xF3] : List Byte), decode dflt (p.bytes ++ b :: rest) = .error .refusedPrefix)
    ∧ ((overrideSegment p).isSome = true → ∀ g : SegReg, decode dflt (p.bytes ++ g.byte :: rest) = .error .repeatedPrefix)
    ∧ (p.has67 = true → decode dflt (p.bytes ++ 0x67 :: rest) = .error .repeatedPrefix)
    ∧ (p ≠ .none → ∀ i : Instr, i.memOperand? = none →
        decode dflt (p.bytes ++ (encode i ++ rest)) = .error .prefixWithoutMemory)

/-- R99, R101 (marked general knowledge by the spec): the address of every mod and rm with a 32-bit address size and no
SIB byte, its displacement bytes and (R105) its default segment. -/
def Obligations.EffectiveAddress32 : Prop :=
  ∀ (s : State) (rm : BitVec 3) (d0 d1 d2 d3 : Byte), rm ≠ 4 →
    (rm ≠ 5 → s.addressForm .a32 0 rm [] (s.readGpr (Gpr.ofCode rm)) .ds)
    ∧ (rm = 5 → s.addressForm .a32 0 rm [d0, d1, d2, d3] (d3 ++ d2 ++ d1 ++ d0) .ds)
    ∧ s.addressForm .a32 1 rm [d0] (BitVec.ofInt 32 ((s.readGpr (Gpr.ofCode rm)).toNat + d0.toInt))
        (if rm = 5 then .ss else .ds)
    ∧ s.addressForm .a32 2 rm [d0, d1, d2, d3]
        (BitVec.ofNat 32 ((s.readGpr (Gpr.ofCode rm)).toNat + (d3 ++ d2 ++ d1 ++ d0).toNat))
        (if rm = 5 then .ss else .ds)

/-- R100 (marked general knowledge by the spec): the address of every SIB byte under every mod, with `Index` 0 for index
= 100 and no base register for base = 101 with mod = 00, and (R105) its default segment. -/
def Obligations.SibAddress : Prop :=
  ∀ (s : State) (scale : BitVec 2) (index base : BitVec 3) (d0 d1 d2 d3 : Byte),
    (base ≠ 5 → s.addressForm .a32 0 4 [fieldsByte scale index base]
        (BitVec.ofNat 32 ((s.readGpr (Gpr.ofCode base)).toNat + s.indexProduct scale index))
        (if base = 4 then .ss else .ds))
    ∧ (base = 5 → s.addressForm .a32 0 4 [fieldsByte scale index base, d0, d1, d2, d3]
        (BitVec.ofNat 32 (s.indexProduct scale index + (d3 ++ d2 ++ d1 ++ d0).toNat)) .ds)
    ∧ s.addressForm .a32 1 4 [fieldsByte scale index base, d0]
        (BitVec.ofInt 32 ((s.readGpr (Gpr.ofCode base)).toNat + s.indexProduct scale index + d0.toInt))
        (if base = 4 ∨ base = 5 then .ss else .ds)
    ∧ s.addressForm .a32 2 4 [fieldsByte scale index base, d0, d1, d2, d3]
        (BitVec.ofNat 32
          ((s.readGpr (Gpr.ofCode base)).toNat + s.indexProduct scale index + (d3 ++ d2 ++ d1 ++ d0).toNat))
        (if base = 4 ∨ base = 5 then .ss else .ds)

/-- R102 (marked general knowledge by the spec; the zeros above it, notes/assumptions/21.md): the address of every mod
and rm with a 16-bit address size, modulo 2^16, its displacement bytes and (R105) its default segment. -/
def Obligations.EffectiveAddress16 : Prop :=
  ∀ (s : State) (rm : BitVec 3) (d0 d1 : Byte),
    (rm ≠ 6 → s.addressForm .a16 0 rm [] (BitVec.ofNat 32 (s.baseSum16 rm % 65536))
        (if rm = 2 ∨ rm = 3 then .ss else .ds))
    ∧ (rm = 6 → s.addressForm .a16 0 rm [d0, d1] (BitVec.ofNat 32 (d1 ++ d0).toNat) .ds)
    ∧ s.addressForm .a16 1 rm [d0] (BitVec.ofInt 32 ((s.baseSum16 rm + d0.toInt) % 65536))
        (if rm = 2 ∨ rm = 3 ∨ rm = 6 then .ss else .ds)
    ∧ s.addressForm .a16 2 rm [d0, d1] (BitVec.ofNat 32 ((s.baseSum16 rm + (d1 ++ d0).toNat) % 65536))
        (if rm = 2 ∨ rm = 3 ∨ rm = 6 then .ss else .ds)

/-- R104, R105 (marked general knowledge by the spec): a prefix 67h and only that selects the other address size, and a
segment override and only that replaces the default segment. -/
def Obligations.PrefixesSelectSizeAndSegment : Prop :=
  ∀ (dflt : AddrSize) (m : MemOperand) (g : SegReg) (bytes rest : List Byte) (i : Instr),
    decode dflt bytes = .ok (i, rest) → i.memOperand? = some m →
      (m.addr.size = dflt ↔ 0x67 ∉ m.prefixes.bytes)
      ∧ (g.byte ∈ m.prefixes.bytes → operandSegment m = g)
      ∧ ((∀ h : SegReg, h.byte ∉ m.prefixes.bytes) → operandSegment m = defaultSegment m.addr)
      ∧ m.prefixes.bytes <+: bytes

/-! ### Exceptions -/

/-- R231, R232, R233, R236: every form makes the three entry checks in their order (the spec's decision D10); each of
the three exceptions has its one cause, in every mode; and once they pass they pass for the rest of the run. -/
def Obligations.EntryChecksComeFirst : Prop :=
  ∀ (i : Instr) (s : State),
    (exec i s = .fault .invalidOpcode ↔ s.cr0Em = true)
    ∧ (exec i s = .fault .deviceNotAvailable ↔ s.cr0Em = false ∧ s.cr0Ts = true)
    ∧ (exec i s = .fault .floatingPointError ↔ s.cr0Em = false ∧ s.cr0Ts = false ∧ s.fpPending = true)
    ∧ (∀ t, exec i s = .next t → s.entryClear ∧ t.entryClear)
    ∧ (s.entryClear → ∀ n f, Sys2Proof.core.run n s = .fault f →
        f ≠ .invalidOpcode ∧ f ≠ .deviceNotAvailable ∧ f ≠ .floatingPointError)

/-- R230: the vector (marked general knowledge by the spec) and the error code (for #AC its decision D8, for interrupt 13
its general knowledge G33) of each exception. -/
def Obligations.ExceptionVectorsAndCodes : Prop :=
  (Fault.vector .invalidOpcode = 6 ∧ Fault.vector .deviceNotAvailable = 7 ∧ Fault.vector .floatingPointError = 16)
  ∧ (Fault.vector .generalProtection = 13 ∧ Fault.vector .stackFault = 12 ∧ Fault.vector .alignmentCheck = 17
    ∧ Fault.vector .interrupt13 = 13)
  ∧ (Fault.errorCode .invalidOpcode = none ∧ Fault.errorCode .deviceNotAvailable = none
    ∧ Fault.errorCode .floatingPointError = none ∧ Fault.errorCode .interrupt13 = none)
  ∧ (Fault.errorCode .generalProtection = some 0 ∧ Fault.errorCode .stackFault = some 0
    ∧ Fault.errorCode .alignmentCheck = some 0)
  ∧ ∀ code : Dword, Fault.vector (.pageFault code) = 14 ∧ Fault.errorCode (.pageFault code) = some code

/-- R241, R63 (the spec's derivations): past the entry checks an instruction raises exactly what AccessCheck answers for
its one access, of the width and kind of R63; an instruction without a memory operand raises nothing; only the two store
forms write. -/
def Obligations.MemoryExceptionsOfEachForm : Prop :=
  ∀ (i : Instr) (s : State), s.entryClear →
    (i.memOperand? = none → ∃ t, exec i s = .next t)
    ∧ (∀ m, i.memOperand? = some m → ∃ n kind, i.access = some (n, kind) ∧ (n = 4 ∨ n = 8) ∧
        ∀ f, exec i s = .fault f ↔ s.accessCheck (operandSegment m) (s.effectiveAddress m.addr) n kind = .error f)
    ∧ (∀ n, i.access = some (n, .write) →
        (∃ dst src, i = .movdStore dst src ∧ n = 4) ∨ (∃ dst src, i = .movqStore dst src ∧ n = 8))

/-- R250 (the spec's derivation), R238, R239, R240: which memory exceptions each mode and privilege level has. That no
#SS arises outside protected mode is the spec's own decision D22 (notes/assumptions/17.md). -/
def Obligations.ExceptionsOfEachMode : Prop :=
  ∀ (i : Instr) (s : State) (f : Fault), exec i s = .fault f →
    (f = .generalProtection ∨ f = .stackFault → s.mode = .protectedMode)
    ∧ ((∃ code, f = .pageFault code) → s.mode ≠ .realAddress)
    ∧ (f = .alignmentCheck → (s.mode = .protectedMode ∧ s.cpl = 3) ∨ s.mode = .virtual8086)
    ∧ (f = .interrupt13 → s.mode ≠ .protectedMode)

/-- R250 (the spec's derivation): nothing else depends on the mode or the privilege level: where an instruction executes
under two of them, the two results differ in the mode and the level only; and every form without a memory operand
executes under all. -/
def Obligations.ResultsAreTheSameInEveryMode : Prop :=
  ∀ (i : Instr) (s : State) (mode : Mode) (cpl : BitVec 2),
    (∀ t t', exec i s = .next t → exec i { s with mode := mode, cpl := cpl } = .next t' →
        t' = { t with mode := mode, cpl := cpl })
    ∧ (i.memOperand? = none → ∀ t, exec i s = .next t →
        exec i { s with mode := mode, cpl := cpl } = .next { t with mode := mode, cpl := cpl })

/-- R69: in real-address mode an n-byte operand is legal exactly when it ends at or below 0FFFFH, else interrupt 13;
nothing else is checked. That it has no error code is general knowledge by the spec's mark (G33), and that it is
interrupt 13 through SS too is the spec's own decision D22 (R239; notes/assumptions/17.md). -/
def Obligations.RealAddressModeLimit : Prop :=
  ∀ (s : State) (seg : SegReg) (ea : Dword) (n : Nat) (kind : AccessKind), s.mode = .realAddress → n = 4 ∨ n = 8 →
    (ea.toNat + n - 1 ≤ 0xFFFF → s.accessCheck seg ea n kind = .ok (s.linear seg ea))
    ∧ (0xFFFF < ea.toNat + n - 1 → s.accessCheck seg ea n kind = .error .interrupt13)
    ∧ Fault.vector .interrupt13 = 13 ∧ Fault.errorCode .interrupt13 = none

/-- R70: in virtual-8086 mode the same limit (through SS too, as in the spec's decision D22), plus page faults, plus the
alignment check (unaligned as in its decision D8) at every privilege level (notes/assumptions/17.md). -/
def Obligations.Virtual8086ModeChecks : Prop :=
  ∀ (s : State) (seg : SegReg) (ea : Dword) (n : Nat) (kind : AccessKind), s.mode = .virtual8086 → n = 4 ∨ n = 8 →
    (ea.toNat + n - 1 ≤ 0xFFFF → s.pagesPresent (s.linear seg ea) n kind →
        (s.acEnable = true → (s.linear seg ea).toNat % n = 0) → s.accessCheck seg ea n kind = .ok (s.linear seg ea))
    ∧ (0xFFFF < ea.toNat + n - 1 → s.pagesPresent (s.linear seg ea) n kind →
        (s.acEnable = true → (s.linear seg ea).toNat % n = 0) → s.accessCheck seg ea n kind = .error .interrupt13)
    ∧ (ea.toNat + n - 1 ≤ 0xFFFF → ¬ s.pagesPresent (s.linear seg ea) n kind →
        (s.acEnable = true → (s.linear seg ea).toNat % n = 0) →
        ∃ r ∈ s.pageRules, s.accessCheck seg ea n kind = .error (.pageFault r.code))
    ∧ (ea.toNat + n - 1 ≤ 0xFFFF → s.pagesPresent (s.linear seg ea) n kind → s.acEnable = true →
        (s.linear seg ea).toNat % n ≠ 0 → s.accessCheck seg ea n kind = .error .alignmentCheck)

/-- R71, R242 (the spec's decision D8): #AC exactly when the access is unaligned, ACEnable is true, and the mode is
protected at CPL 3 or virtual-8086, on an access that nothing else faults; elsewhere an unaligned access is admitted
like an aligned one. -/
def Obligations.AlignmentCheckExactly : Prop :=
  ∀ (s : State) (seg : SegReg) (ea : Dword) (n : Nat) (kind : AccessKind), n = 4 ∨ n = 8 →
    (s.mode = .protectedMode → (s.segment seg).admits ea n kind) →
    (s.mode ≠ .protectedMode → ea.toNat + n - 1 ≤ 0xFFFF) →
    (s.mode ≠ .realAddress → s.pagesPresent (s.linear seg ea) n kind) →
    s.accessCheck seg ea n kind
      = if s.acEnable = true ∧ ((s.mode = .protectedMode ∧ s.cpl = 3) ∨ s.mode = .virtual8086)
          ∧ (s.linear seg ea).toNat % n ≠ 0 then .error .alignmentCheck else .ok (s.linear seg ea)

/-- R234, R235, R68, with "illegal" as in notes/assumptions/6.md: in protected mode an illegal address is #SS(0) through
SS and #GP(0) through the five other segments, and a store into a nonwritable segment is #GP(0), where nothing else
faults. That such a store is #GP(0) through SS too is DEDUCED (notes/assumptions/18.md). -/
def Obligations.ProtectedModeSegmentChecks : Prop :=
  ∀ (s : State) (seg : SegReg) (ea : Dword) (n : Nat) (kind : AccessKind), s.mode = .protectedMode → n = 4 ∨ n = 8 →
    s.pagesPresent (s.linear seg ea) n kind → (s.checksAlignment → (s.linear seg ea).toNat % n = 0) →
    let g := s.segment seg
    let legal := g.usable = true ∧ g.first.toNat ≤ ea.toNat ∧ ea.toNat + n - 1 ≤ g.last.toNat
      ∧ (kind = .read → g.readable = true)
    let writable := kind = .write → g.writable = true
    (legal → writable → s.accessCheck seg ea n kind = .ok (s.linear seg ea))
    ∧ (¬ legal → writable → seg = .ss → s.accessCheck seg ea n kind = .error .stackFault)
    ∧ (¬ legal → seg ≠ .ss → s.accessCheck seg ea n kind = .error .generalProtection)
    ∧ (legal → ¬ writable → s.accessCheck seg ea n kind = .error .generalProtection)

/-- R67, R244 (the spec's decision D21): AccessCheck admits an access exactly when no fault condition holds, and the
exception it answers otherwise is one whose own condition holds: #SS for an illegal address in SS (notes/assumptions/6.md),
#GP for one in another segment or a write into a nonwritable segment (SS too, notes/assumptions/18.md); which of several
is left open. -/
def Obligations.AccessCheckAnswersAFaultThatHolds : Prop :=
  ∀ (s : State) (seg : SegReg) (ea : Dword) (n : Nat) (kind : AccessKind),
    (∀ a, s.accessCheck seg ea n kind = .ok a ↔ s.accessLegal seg ea n kind ∧ a = s.linear seg ea)
    ∧ ∀ f, s.accessCheck seg ea n kind = .error f →
        (f = .stackFault ∧ s.mode = .protectedMode ∧ seg = .ss ∧ ¬ (s.segment seg).legalAddress ea n kind)
        ∨ (f = .generalProtection ∧ s.mode = .protectedMode
            ∧ ((seg ≠ .ss ∧ ¬ (s.segment seg).legalAddress ea n kind)
              ∨ (kind = .write ∧ (s.segment seg).writable = false)))
        ∨ (f = .interrupt13 ∧ s.mode ≠ .protectedMode ∧ 0xFFFF < ea.toNat + n - 1)
        ∨ (∃ r ∈ s.pageRules, f = .pageFault r.code ∧ s.mode ≠ .realAddress
            ∧ ∃ k < n, r.hits kind (s.linear seg ea + BitVec.ofNat 32 k) = true)
        ∨ (f = .alignmentCheck ∧ s.checksAlignment ∧ (s.linear seg ea).toNat % n ≠ 0)

/-- R67 (the spec's decision D7): AccessCheck is a function of its arguments and of launch-time configuration only, so
two accesses with the same arguments get the same answer during a run. -/
def Obligations.AccessCheckIsFixedDuringARun : Prop :=
  (∀ (s t : State) (seg : SegReg) (ea : Dword) (n : Nat) (kind : AccessKind), t.mode = s.mode → t.cpl = s.cpl →
      t.acEnable = s.acEnable → t.segs = s.segs → t.pageRules = s.pageRules →
      t.accessCheck seg ea n kind = s.accessCheck seg ea n kind)
  ∧ ∀ (s t : State) (k : Nat), Sys2Proof.core.run k s = .next t →
      ∀ (seg : SegReg) (ea : Dword) (n : Nat) (kind : AccessKind),
        t.accessCheck seg ea n kind = s.accessCheck seg ea n kind

/-! ### Memory -/

/-- R74 (the spec's decision D14): a byte of memory reads as the byte last written to it; a write keeps the canonical
form; and the form is canonical: two memories in it that read alike everywhere are the same data. That memory addresses
lie below 2^32 is the model's choice (notes/assumptions/23.md). -/
def Obligations.MemoryReturnsTheByteLastWritten : Prop :=
  (∀ (m : Memory) (x y : Nat) (b : Byte), m.wf = true → x < 2 ^ 32 →
      (m.write x b).wf = true ∧ (m.write x b).read y = if y = x then b else m.read y)
  ∧ ∀ m m' : Memory, m.wf = true → m'.wf = true → (∀ x, m.read x = m'.read x) → m = m'

/-- R61 (the spec's decision D18): byte k of a memory operand is at its address plus k, loaded and stored; and after a
quadword store a doubleword load at the address reads its low half and one at the address plus 4 its high half. -/
def Obligations.DataIsLittleEndian : Prop :=
  (∀ (s : State) (a : Dword), (∀ k < 8, (s.load64 a).extractLsb' (8 * k) 8 = s.byteAt (a + BitVec.ofNat 32 k))
      ∧ ∀ k < 4, (s.load32 a).extractLsb' (8 * k) 8 = s.byteAt (a + BitVec.ofNat 32 k))
  ∧ ∀ (s t : State) (m : MemOperand) (src : Mm), exec (.movqStore (.mem m) src) s = .next t → s.mem.wf = true →
      (s.operandBytes (s.operandAddress m) 8).Nodup →
      t.load64 (s.operandAddress m) = s.readMm src
      ∧ t.load32 (s.operandAddress m) = (s.readMm src).extractLsb' 0 32
      ∧ t.load32 (s.operandAddress m + 4) = (s.readMm src).extractLsb' 32 32

/-- R78, R280 (the spec's decision D16; compared by memory address, notes/assumptions/13.md): a store whose access is
admitted is refused exactly when one of its bytes is one of the program's. -/
def Obligations.StoreIntoTheProgramIsRefused : Prop :=
  ∀ (i : Instr) (s : State) (m : MemOperand) (n : Nat), i.memOperand? = some m → i.access = some (n, .write) →
    (exec i s = .refused .storeIntoProgram ↔
      s.entryClear ∧ s.operandLegal m n .write ∧ ∃ k < n, ∃ j < s.program.length,
        s.physical (s.operandAddress m + BitVec.ofNat 32 k)
          = s.physical (s.codeLinear (s.program.first + BitVec.ofNat 32 j)))

/-! ### The machine -/

/-- R18, R37: where the program is fetchable (D19, notes/assumptions/22.md) and the bytes at EIP decode to an
instruction, step is exec of it at that state; exec itself advances EIP. -/
def Obligations.StepRunsTheDecodedInstruction : Prop :=
  ∀ (s : State) (i : Instr) (rest : List Byte), s.eipInProgram = true → s.programFetchable →
    decode s.addrSize s.fetchBytes = .ok (i, rest) → step s = exec i s

/-- R37, R272 (the spec's decisions D19, D23): outside the program a step has no meaning: done at the first byte after
it, else refused; so is an instruction whose bytes are not all inside it, and every step of a program that crosses an end
of the code segment or of the offset space or is not fetchable (notes/assumptions/22.md). -/
def Obligations.StepsOutsideTheProgramAreRefused : Prop :=
  ∀ s : State,
    (step s = .refused .programDone ↔ s.eip.toNat = s.program.first.toNat + s.program.length)
    ∧ (s.eip.toNat < s.program.first.toNat → step s = .refused .fetchOutsideProgram)
    ∧ (s.program.first.toNat + s.program.length < s.eip.toNat → step s = .refused .fetchOutsideProgram)
    ∧ (step s = .refused .programNotFetchable ↔ s.eipInProgram = true ∧ ¬ s.programFetchable)
    ∧ (s.eipInProgram = true → s.programFetchable → decode s.addrSize s.fetchBytes = .error .truncated →
        step s = .refused .fetchOutsideProgram)

/-- R46 (the spec's derivation): the complete list of what an instruction changes: EIP, TW, and at most the one MMX
register of R32, the integer register of `MOVD r32, mm`, or the bytes of a store; nothing else of the state. -/
def Obligations.CompleteListOfChanges : Prop :=
  ∀ (i : Instr) (s t : State), exec i s = .next t →
    s.sameControl t
    ∧ t.eip = s.eip + BitVec.ofNat 32 i.length
    ∧ t.tw = (if i = .emms then 0xFFFF#16 else 0x0000#16)
    ∧ (∀ r, i.destMm ≠ some r → t.readMm r = s.readMm r)
    ∧ (∀ g, (∀ src, i ≠ .movdStore (.reg g) src) → t.readGpr g = s.readGpr g)
    ∧ ((∀ n, i.access ≠ some (n, .write)) ∨ i.memOperand? = none → t.mem = s.mem)
    ∧ (∀ m n, i.memOperand? = some m → i.access = some (n, .write) →
        ∀ x, x ∉ s.operandBytes (s.operandAddress m) n → t.mem.read x = s.mem.read x)

/-- R33 (that TW is not read is the spec's derivation), R34: EMMS leaves FFFFh in TW and every other form 0000h; and no
instruction reads TW. -/
def Obligations.TagWordIsWrittenAndNeverRead : Prop :=
  ∀ (i : Instr) (s : State),
    (∀ t, exec i s = .next t → (i = .emms → t.tw = 0xFFFF) ∧ (i ≠ .emms → t.tw = 0x0000))
    ∧ ∀ w : BitVec 16, exec i { s with tw := w } = exec i s

/-- R38: the condition flags are neither written nor read by any instruction. -/
def Obligations.ConditionFlagsAreNeitherReadNorWritten : Prop :=
  ∀ (i : Instr) (s : State) (c : CondFlags),
    (∀ t, exec i s = .next t → t.flags = s.flags ∧ exec i { s with flags := c } = .next { t with flags := c })
    ∧ (∀ f, exec i s = .fault f → exec i { s with flags := c } = .fault f)
    ∧ (∀ r, exec i s = .refused r → exec i { s with flags := c } = .refused r)

/-- R272 (the spec's decision D19): every step keeps the invariant of a run: memory canonical, the program's region
inside the offset space, EIP in it or just after it. -/
def Obligations.StepKeepsTheRunInvariant : Prop :=
  ∀ s t : State, s.runInv → step s = .next t → t.runInv

/-- The invariant holds after reset (whose empty program is the model's choice, notes/assumptions/3.md) and after an
instruction word of up to ten bytes is placed. -/
def Obligations.ResetMeetsTheRunInvariant : Prop :=
  State.reset.runInv ∧ (State.reset.withFetchWord 24 0x0FFCC1).runInv

/-- R78, R280 (the spec's decision D16): no step changes a byte of the program, its place or the mapping it is read
through. -/
def Obligations.ProgramTextIsFixed : Prop :=
  ∀ s t : State, step s = .next t →
    t.program = s.program ∧ t.segs = s.segs ∧ t.translation = s.translation ∧ t.addrSize = s.addrSize
    ∧ ∀ j < s.program.length, t.byteAt (t.codeLinear (s.program.first + BitVec.ofNat 32 j))
        = s.byteAt (s.codeLinear (s.program.first + BitVec.ofNat 32 j))

/-- R272 (the spec's decisions D19, D23): a program that is a sequence of admitted forms is a straight line: after k
steps it stands before its (k+1)-th instruction, it makes no more steps than it has instructions, after the last it is
done, and nothing but a store into itself is ever refused before. `programAhead` has it lie in fetchable memory (D19,
notes/assumptions/22.md). -/
def Obligations.StraightLineRunsEnd : Prop :=
  ∀ (s : State) (is : List Instr), s.programAhead is →
    (∀ k t, Sys2Proof.core.run k s = .next t → k ≤ is.length ∧ t.programAhead (is.drop k)
        ∧ t.eip = s.eip + BitVec.ofNat 32 ((is.take k).flatMap encode).length)
    ∧ (∀ t, Sys2Proof.core.run is.length s = .next t → Sys2Proof.core.run (is.length + 1) s = .refused .programDone)
    ∧ (∀ k r, Sys2Proof.core.run k s = .refused r → r = .storeIntoProgram ∨ (r = .programDone ∧ is.length < k))

/-- R37 (marked general knowledge by the spec): a completed step moved EIP past exactly the bytes of the instruction it
ran, all of them inside the program and inside the code segment, and EIP did not wrap (the spec's decision D19;
notes/assumptions/22.md). -/
def Obligations.StepAdvancesPastItsBytes : Prop :=
  ∀ s t : State, step s = .next t → ∃ i rest,
    s.fetchBytes = encode i ++ rest ∧ i.wf s.addrSize = true ∧ exec i s = .next t
    ∧ t.eip = s.eip + BitVec.ofNat 32 (encode i).length
    ∧ s.program.first.toNat ≤ s.eip.toNat
    ∧ s.eip.toNat + (encode i).length ≤ s.program.first.toNat + s.program.length
    ∧ t.eip.toNat = s.eip.toNat + (encode i).length
    ∧ s.segs.cs.first.toNat ≤ s.eip.toNat ∧ s.eip.toNat + (encode i).length ≤ s.segs.cs.last.toNat + 1

/-! ### Arithmetic (spec/40_arithmetic.md) -/

/-- R131 to R133, R138 to R140: PADDB/W/D add and PSUBB/W/D subtract the source from the destination lane by lane, and
wrap around. -/
def Obligations.PaddAndPsubWrapAround : Prop :=
  Form64 0xFC Instr.paddb (fun a b r => ∀ k < 8,
    (lane 8 r k).toNat = ((lane 8 a k).toNat + (lane 8 b k).toNat) % 2 ^ 8)
  ∧ Form64 0xFD Instr.paddw (fun a b r => ∀ k < 4,
    (lane 16 r k).toNat = ((lane 16 a k).toNat + (lane 16 b k).toNat) % 2 ^ 16)
  ∧ Form64 0xFE Instr.paddd (fun a b r => ∀ k < 2,
    (lane 32 r k).toNat = ((lane 32 a k).toNat + (lane 32 b k).toNat) % 2 ^ 32)
  ∧ Form64 0xF8 Instr.psubb (fun a b r => ∀ k < 8,
    ((lane 8 r k).toNat : Int) = ((lane 8 a k).toNat - (lane 8 b k).toNat : Int) % 2 ^ 8)
  ∧ Form64 0xF9 Instr.psubw (fun a b r => ∀ k < 4,
    ((lane 16 r k).toNat : Int) = ((lane 16 a k).toNat - (lane 16 b k).toNat : Int) % 2 ^ 16)
  ∧ Form64 0xFA Instr.psubd (fun a b r => ∀ k < 2,
    ((lane 32 r k).toNat : Int) = ((lane 32 a k).toNat - (lane 32 b k).toNat : Int) % 2 ^ 32)

/-- R134, R135, R141, R142: PADDSB/W and PSUBSB/W add and subtract signed lanes and saturate. -/
def Obligations.PaddsAndPsubsSaturateSigned : Prop :=
  Form64 0xEC Instr.paddsb (fun a b r => ∀ k < 8,
    (lane 8 r k).toInt = max (-128) (min 127 ((lane 8 a k).toInt + (lane 8 b k).toInt)))
  ∧ Form64 0xED Instr.paddsw (fun a b r => ∀ k < 4,
    (lane 16 r k).toInt = max (-32768) (min 32767 ((lane 16 a k).toInt + (lane 16 b k).toInt)))
  ∧ Form64 0xE8 Instr.psubsb (fun a b r => ∀ k < 8,
    (lane 8 r k).toInt = max (-128) (min 127 ((lane 8 a k).toInt - (lane 8 b k).toInt)))
  ∧ Form64 0xE9 Instr.psubsw (fun a b r => ∀ k < 4,
    (lane 16 r k).toInt = max (-32768) (min 32767 ((lane 16 a k).toInt - (lane 16 b k).toInt)))

/-- R136, R137, R143, R144: PADDUSB/W and PSUBUSB/W add and subtract unsigned lanes and saturate. -/
def Obligations.PaddusAndPsubusSaturateUnsigned : Prop :=
  Form64 0xDC Instr.paddusb (fun a b r => ∀ k < 8,
    (lane 8 r k).toNat = min 255 ((lane 8 a k).toNat + (lane 8 b k).toNat))
  ∧ Form64 0xDD Instr.paddusw (fun a b r => ∀ k < 4,
    (lane 16 r k).toNat = min 65535 ((lane 16 a k).toNat + (lane 16 b k).toNat))
  ∧ Form64 0xD8 Instr.psubusb (fun a b r => ∀ k < 8,
    (lane 8 r k).toNat = (lane 8 a k).toNat - (lane 8 b k).toNat)
  ∧ Form64 0xD9 Instr.psubusw (fun a b r => ∀ k < 4,
    (lane 16 r k).toNat = (lane 16 a k).toNat - (lane 16 b k).toNat)

/-- R145: PMADDWD sums the signed products of two word pairs into each doubleword, wrapping. -/
def Obligations.PmaddwdSumsSignedProducts : Prop :=
  Form64 0xF5 Instr.pmaddwd (fun a b r => ∀ k < 2,
    (lane 32 r k).toInt = Int.bmod ((lane 16 a (2 * k)).toInt * (lane 16 b (2 * k)).toInt
      + (lane 16 a (2 * k + 1)).toInt * (lane 16 b (2 * k + 1)).toInt) (2 ^ 32))

/-- R145, C7: a doubleword of PMADDWD wraps only where both of its word pairs are 8000h in both operands; everywhere
else it is the exact sum. -/
def Obligations.PmaddwdWrapsOnlyOnFourMinima : Prop :=
  ∀ (d : Mm) (src : Rm Mm) (s t : State), exec (.pmaddwd d src) s = .next t → s.readable src 8 → ∀ k < 2,
    (lane 32 (t.readMm d) k).toInt
      = if lane 16 (s.readMm d) (2 * k) = 0x8000 ∧ lane 16 (s.readMm d) (2 * k + 1) = 0x8000
          ∧ lane 16 (s.value64 src) (2 * k) = 0x8000 ∧ lane 16 (s.value64 src) (2 * k + 1) = 0x8000
        then -2147483648
        else (lane 16 (s.readMm d) (2 * k)).toInt * (lane 16 (s.value64 src) (2 * k)).toInt
          + (lane 16 (s.readMm d) (2 * k + 1)).toInt * (lane 16 (s.value64 src) (2 * k + 1)).toInt

/-- R146, R147: PMULHW writes the high word of each signed product and PMULLW the low word of each product. -/
def Obligations.PmulhwAndPmullwSplitTheProducts : Prop :=
  Form64 0xE5 Instr.pmulhw (fun a b r => ∀ k < 4,
    (lane 16 r k).toInt = (lane 16 a k).toInt * (lane 16 b k).toInt / 65536)
  ∧ Form64 0xD5 Instr.pmullw (fun a b r => ∀ k < 4,
    (lane 16 r k).toNat = (lane 16 a k).toNat * (lane 16 b k).toNat % 65536)

/-- R147: the PMULHW and PMULLW results of the same operands together are the full signed 32-bit product of each word.
-/
def Obligations.FullProductFromTwoHalves : Prop :=
  ∀ (d : Mm) (src : Rm Mm) (s hi lo : State), s.readable src 8 →
    exec (.pmulhw d src) s = .next hi → exec (.pmullw d src) s = .next lo → ∀ k < 4,
      (lane 16 (hi.readMm d) k ++ lane 16 (lo.readMm d) k : BitVec 32).toInt
        = (lane 16 (s.readMm d) k).toInt * (lane 16 (s.value64 src) k).toInt

/-! ### Comparison (spec/41_comparison.md) -/

/-- R161, R162, R163: PCMPEQB, PCMPEQW, PCMPEQD write all ones where the lanes are equal and all zeros elsewhere. -/
def Obligations.PcmpeqWritesMasks : Prop :=
  Form64 0x74 Instr.pcmpeqb (fun a b r => ∀ k < 8,
    (lane 8 r k).toNat = if lane 8 a k = lane 8 b k then 0xFF else 0)
  ∧ Form64 0x75 Instr.pcmpeqw (fun a b r => ∀ k < 4,
    (lane 16 r k).toNat = if lane 16 a k = lane 16 b k then 0xFFFF else 0)
  ∧ Form64 0x76 Instr.pcmpeqd (fun a b r => ∀ k < 2,
    (lane 32 r k).toNat = if lane 32 a k = lane 32 b k then 0xFFFFFFFF else 0)

/-- R164, R165, R166: PCMPGTB, PCMPGTW, PCMPGTD write all ones where the destination lane is greater, signed. -/
def Obligations.PcmpgtWritesMasks : Prop :=
  Form64 0x64 Instr.pcmpgtb (fun a b r => ∀ k < 8,
    (lane 8 r k).toNat = if (lane 8 b k).toInt < (lane 8 a k).toInt then 0xFF else 0)
  ∧ Form64 0x65 Instr.pcmpgtw (fun a b r => ∀ k < 4,
    (lane 16 r k).toNat = if (lane 16 b k).toInt < (lane 16 a k).toInt then 0xFFFF else 0)
  ∧ Form64 0x66 Instr.pcmpgtd (fun a b r => ∀ k < 2,
    (lane 32 r k).toNat = if (lane 32 b k).toInt < (lane 32 a k).toInt then 0xFFFFFFFF else 0)

/-! ### Conversion (spec/42_conversion.md) -/

/-- R171, R172, R173: PACKSSWB, PACKSSDW narrow signed elements with signed saturation and PACKUSWB with unsigned
saturation, the destination's elements into the low half. -/
def Obligations.PackSaturates : Prop :=
  Form64 0x63 Instr.packsswb (fun a b r => ∀ k < 4,
    (lane 8 r k).toInt = max (-128) (min 127 (lane 16 a k).toInt)
    ∧ (lane 8 r (4 + k)).toInt = max (-128) (min 127 (lane 16 b k).toInt))
  ∧ Form64 0x6B Instr.packssdw (fun a b r => ∀ k < 2,
    (lane 16 r k).toInt = max (-32768) (min 32767 (lane 32 a k).toInt)
    ∧ (lane 16 r (2 + k)).toInt = max (-32768) (min 32767 (lane 32 b k).toInt))
  ∧ Form64 0x67 Instr.packuswb (fun a b r => ∀ k < 4,
    ((lane 8 r k).toNat : Int) = max 0 (min 255 (lane 16 a k).toInt)
    ∧ ((lane 8 r (4 + k)).toNat : Int) = max 0 (min 255 (lane 16 b k).toInt))

/-- R174, R175, R176: PUNPCKH interleaves the high halves, the destination's element at each even place. -/
def Obligations.PunpckhInterleavesHighHalves : Prop :=
  Form64 0x68 Instr.punpckhbw (fun a b r => ∀ k < 4, lane 8 r (2 * k) = lane 8 a (4 + k)
    ∧ lane 8 r (2 * k + 1) = lane 8 b (4 + k))
  ∧ Form64 0x69 Instr.punpckhwd (fun a b r => ∀ k < 2, lane 16 r (2 * k) = lane 16 a (2 + k)
    ∧ lane 16 r (2 * k + 1) = lane 16 b (2 + k))
  ∧ Form64 0x6A Instr.punpckhdq (fun a b r => lane 32 r 0 = lane 32 a 1 ∧ lane 32 r 1 = lane 32 b 1)

/-- R177, R178, R179: PUNPCKL interleaves the low half of the destination with a 32-bit source. -/
def Obligations.PunpcklInterleavesLowHalves : Prop :=
  Form32 0x60 Instr.punpcklbw (fun a b r => ∀ k < 4, lane 8 r (2 * k) = lane 8 a k
    ∧ lane 8 r (2 * k + 1) = lane 8 b k)
  ∧ Form32 0x61 Instr.punpcklwd (fun a b r => ∀ k < 2, lane 16 r (2 * k) = lane 16 a k
    ∧ lane 16 r (2 * k + 1) = lane 16 b k)
  ∧ Form32 0x62 Instr.punpckldq (fun a b r => lane 32 r 0 = lane 32 a 0 ∧ lane 32 r 1 = b)

/-! ### Logical (spec/43_logical.md) -/

/-- R186, R187, R188, R189: PAND, PANDN (the destination complemented), POR, PXOR bit by bit. -/
def Obligations.LogicalBitByBit : Prop :=
  Form64 0xDB Instr.pand (fun a b r => ∀ j < 64, r.getLsbD j = (a.getLsbD j && b.getLsbD j))
  ∧ Form64 0xDF Instr.pandn (fun a b r => ∀ j < 64, r.getLsbD j = (!a.getLsbD j && b.getLsbD j))
  ∧ Form64 0xEB Instr.por (fun a b r => ∀ j < 64, r.getLsbD j = (a.getLsbD j || b.getLsbD j))
  ∧ Form64 0xEF Instr.pxor (fun a b r => ∀ j < 64, r.getLsbD j = (a.getLsbD j ^^ b.getLsbD j))

/-! ### Shifts (spec/44_shift.md) -/

/-- R195, R197, R199: PSLLW, PSLLD, PSLLQ by the source. That the count is all 64 bits of it is the spec's own decision
D2 (R194; notes/assumptions/17.md). -/
def Obligations.PsllByOperand : Prop :=
  Form64 0xF1 Instr.psllw (fun a b r => ∀ k < 4,
    (lane 16 r k).toNat = if 15 < b.toNat then 0 else (lane 16 a k).toNat * 2 ^ b.toNat % 2 ^ 16)
  ∧ Form64 0xF2 Instr.pslld (fun a b r => ∀ k < 2,
    (lane 32 r k).toNat = if 31 < b.toNat then 0 else (lane 32 a k).toNat * 2 ^ b.toNat % 2 ^ 32)
  ∧ Form64 0xF3 Instr.psllq (fun a b r => r.toNat = if 63 < b.toNat then 0 else a.toNat * 2 ^ b.toNat % 2 ^ 64)

/-- R196, R198, R200, R202, R204, R206, R208, R210: the eight shifts by the immediate byte. That the byte is unsigned is
the spec's own decision D1, against the source's words "signed number" (R98, R194, C8; notes/assumptions/17.md). -/
def Obligations.ShiftsByImmediate : Prop :=
  FormImm 0x71 6 Instr.psllwImm (fun c a r => ∀ k < 4,
    (lane 16 r k).toNat = if 15 < c then 0 else (lane 16 a k).toNat * 2 ^ c % 2 ^ 16)
  ∧ FormImm 0x72 6 Instr.pslldImm (fun c a r => ∀ k < 2,
    (lane 32 r k).toNat = if 31 < c then 0 else (lane 32 a k).toNat * 2 ^ c % 2 ^ 32)
  ∧ FormImm 0x73 6 Instr.psllqImm (fun c a r => r.toNat = if 63 < c then 0 else a.toNat * 2 ^ c % 2 ^ 64)
  ∧ FormImm 0x71 2 Instr.psrlwImm (fun c a r => ∀ k < 4,
    (lane 16 r k).toNat = if 15 < c then 0 else (lane 16 a k).toNat / 2 ^ c)
  ∧ FormImm 0x72 2 Instr.psrldImm (fun c a r => ∀ k < 2,
    (lane 32 r k).toNat = if 31 < c then 0 else (lane 32 a k).toNat / 2 ^ c)
  ∧ FormImm 0x73 2 Instr.psrlqImm (fun c a r => r.toNat = if 63 < c then 0 else a.toNat / 2 ^ c)
  ∧ FormImm 0x71 4 Instr.psrawImm (fun c a r => ∀ k < 4, (lane 16 r k).toInt = (lane 16 a k).toInt / 2 ^ min c 15)
  ∧ FormImm 0x72 4 Instr.psradImm (fun c a r => ∀ k < 2, (lane 32 r k).toInt = (lane 32 a k).toInt / 2 ^ min c 31)

/-- R201, R203, R205, R207, R209: PSRLW/D/Q and PSRAW/D by the source; PSRA divides signed lanes by a power of two,
rounding down, and a larger count is the sign fill. That the count is all 64 bits of the source is the spec's own
decision D2 (R194; notes/assumptions/17.md). -/
def Obligations.PsrlAndPsraByOperand : Prop :=
  Form64 0xD1 Instr.psrlw (fun a b r => ∀ k < 4,
    (lane 16 r k).toNat = if 15 < b.toNat then 0 else (lane 16 a k).toNat / 2 ^ b.toNat)
  ∧ Form64 0xD2 Instr.psrld (fun a b r => ∀ k < 2,
    (lane 32 r k).toNat = if 31 < b.toNat then 0 else (lane 32 a k).toNat / 2 ^ b.toNat)
  ∧ Form64 0xD3 Instr.psrlq (fun a b r => r.toNat = if 63 < b.toNat then 0 else a.toNat / 2 ^ b.toNat)
  ∧ Form64 0xE1 Instr.psraw (fun a b r => ∀ k < 4, (lane 16 r k).toInt = (lane 16 a k).toInt / 2 ^ min b.toNat 15)
  ∧ Form64 0xE2 Instr.psrad (fun a b r => ∀ k < 2, (lane 32 r k).toInt = (lane 32 a k).toInt / 2 ^ min b.toNat 31)

/-- R194: a shift by a register that holds a count and the shift by the same immediate count leave the same MMX
registers, tag word and memory; only EIP differs, by the one byte of the immediate. The two counts are read by the
spec's own decisions D1 and D2 (notes/assumptions/17.md). -/
def Obligations.ImmediateAndRegisterCountsAgree : Prop :=
  ∀ (d c : Mm) (imm : Byte) (s : State), s.readMm c = imm.setWidth 64 → s.entryClear →
    ∀ p ∈ [(Instr.psllw d (.reg c), Instr.psllwImm d imm), (Instr.pslld d (.reg c), Instr.pslldImm d imm),
        (Instr.psllq d (.reg c), Instr.psllqImm d imm), (Instr.psrlw d (.reg c), Instr.psrlwImm d imm),
        (Instr.psrld d (.reg c), Instr.psrldImm d imm), (Instr.psrlq d (.reg c), Instr.psrlqImm d imm),
        (Instr.psraw d (.reg c), Instr.psrawImm d imm), (Instr.psrad d (.reg c), Instr.psradImm d imm)],
      ∃ t, exec p.1 s = .next t ∧ exec p.2 s = .next { t with eip := t.eip + 1 }

/-! ### Data transfer (spec/45_data_transfer.md) and EMMS (spec/46_emms.md) -/

/-- R216: `MOVD mm, r/m32` writes the source to the low doubleword and zero to the high one. -/
def Obligations.MovdLoadZeroExtends : Prop :=
  ∀ (d : Mm) (src : Rm Gpr) (s : State),
    encode (.movdLoad d src) = src.bytes Gpr.code 0x6E d
    ∧ (s.entryClear → s.readable src 4 → ∃ r, exec (.movdLoad d src) s = .next (s.afterMm d r src.length)
        ∧ lane 32 r 0 = s.valueGpr src ∧ lane 32 r 1 = 0)
    ∧ RaisesOnAccess (.movdLoad d src) src 4 .read s

/-- R217: `MOVD r/m32, mm` writes the low doubleword of the register to an integer register or to four bytes of memory,
and nothing else but TW and EIP. The refusal of a store into the program, compared by memory address, is no part of
R217: R78, the spec's own decision D16, and notes/assumptions/13.md. -/
def Obligations.MovdStoreWritesLowDoubleword : Prop :=
  ∀ (dst : Rm Gpr) (src : Mm) (s : State),
    encode (.movdStore dst src) = dst.bytes Gpr.code 0x7E src
    ∧ (s.entryClear → ∀ g, dst = .reg g → exec (.movdStore dst src) s
        = .next { s with gpr := s.gpr.set g (lane 32 (s.readMm src) 0), tw := 0x0000#16, eip := s.eip + 3#32 })
    ∧ (∀ m, dst = .mem m → StoresToMemory (.movdStore dst src) m 4 (s.readMm src) dst.length s)
    ∧ RaisesEntry (.movdStore dst src) s

/-- R218: `MOVQ mm, mm/m64` copies 64 bits to the register. -/
def Obligations.MovqLoadCopies : Prop :=
  Form64 0x6F Instr.movqLoad (fun _ b r => r = b)

/-- R219: `MOVQ mm/m64, mm` copies the register to an MMX register or to eight bytes of memory, and changes nothing else
but TW and EIP. The refusal of a store into the program, compared by memory address, is no part of R219: R78, the
spec's own decision D16, and notes/assumptions/13.md. -/
def Obligations.MovqStoreCopies : Prop :=
  ∀ (dst : Rm Mm) (src : Mm) (s : State),
    encode (.movqStore dst src) = dst.bytes Mm.code 0x7F src
    ∧ (s.entryClear → ∀ r, dst = .reg r → exec (.movqStore dst src) s = .next (s.afterMm r (s.readMm src) 3))
    ∧ (∀ m, dst = .mem m → StoresToMemory (.movqStore dst src) m 8 (s.readMm src) dst.length s)
    ∧ RaisesEntry (.movqStore dst src) s

/-- R219, R110: the two encodings of a move between MMX registers have one effect, and a move of a register to itself
changes TW and EIP only. -/
def Obligations.RegisterMoveEncodingsAgree : Prop :=
  ∀ (d r : Mm) (s : State),
    exec (.movqStore (.reg d) r) s = exec (.movqLoad d (.reg r)) s
    ∧ (s.entryClear → exec (.movqLoad d (.reg d)) s = .next { s with tw := 0x0000#16, eip := s.eip + 3#32 })

/-- R225: EMMS is two bytes, sets TW to FFFFh, advances EIP by 2 and changes nothing else; it raises at most the three
entry checks. -/
def Obligations.EmmsEmptiesTheTagWord : Prop :=
  ∀ s : State, encode .emms = [0x0F, 0x77]
    ∧ (s.entryClear → exec .emms s = .next { s with tw := 0xFFFF#16, eip := s.eip + 2#32 })
    ∧ RaisesEntry .emms s

/-! ### Across instructions -/

/-- R130, R108: a source register equal to the destination is read as the same old value, in the 17 forms whose result
is then known: PSUB, PSUBS, PSUBUS (R138 to R144), PXOR (R189), PANDN (R187) and PCMPGT (R164 to R166) of a register
with itself give zero, PCMPEQ (R161 to R163) all ones, PAND (R186) and POR (R188) the register unchanged. -/
def Obligations.SameRegisterOperands : Prop :=
  ∀ (d : Mm) (s : State), s.entryClear →
    (∀ i ∈ [Instr.psubb d (.reg d), Instr.psubw d (.reg d), Instr.psubd d (.reg d), Instr.psubsb d (.reg d),
        Instr.psubsw d (.reg d), Instr.psubusb d (.reg d), Instr.psubusw d (.reg d), Instr.pxor d (.reg d),
        Instr.pandn d (.reg d), Instr.pcmpgtb d (.reg d), Instr.pcmpgtw d (.reg d), Instr.pcmpgtd d (.reg d)],
      exec i s = .next (s.afterMm d 0#64 3))
    ∧ (∀ i ∈ [Instr.pcmpeqb d (.reg d), Instr.pcmpeqw d (.reg d), Instr.pcmpeqd d (.reg d)],
      exec i s = .next (s.afterMm d (BitVec.allOnes 64) 3))
    ∧ (∀ i ∈ [Instr.pand d (.reg d), Instr.por d (.reg d)], exec i s = .next (s.afterMm d (s.readMm d) 3))

end
end

