-- ==== Sys2Proof/Laws/PerInstr.lean ====
section
/-!
SUPPORT. One lemma per instruction. OpcodeMap: the shape that the encoder gives an instruction is the shape that the
decoder's opcode map answers with that instruction (spec/30_encoding.md R115).
-/

namespace Sys2Proof.Laws.OpcodeMap

/-- The opcode map takes the instruction's own shape back to the instruction. -/
def Statement (i : Sys2Proof.Instr) : Prop := i.shape.instr = .ok i

theorem emms : Statement (.emms) := rfl

theorem movdLoad (d : Mm) (src : Rm Gpr) : Statement (.movdLoad d src) := rfl

theorem movdStore (dst : Rm Gpr) (src : Mm) : Statement (.movdStore dst src) := rfl

theorem movqLoad (d : Mm) (src : Rm Mm) : Statement (.movqLoad d src) := rfl

theorem movqStore (dst : Rm Mm) (src : Mm) : Statement (.movqStore dst src) := rfl

theorem packsswb (d : Mm) (src : Rm Mm) : Statement (.packsswb d src) := rfl

theorem packssdw (d : Mm) (src : Rm Mm) : Statement (.packssdw d src) := rfl

theorem packuswb (d : Mm) (src : Rm Mm) : Statement (.packuswb d src) := rfl

theorem paddb (d : Mm) (src : Rm Mm) : Statement (.paddb d src) := rfl

theorem paddw (d : Mm) (src : Rm Mm) : Statement (.paddw d src) := rfl

theorem paddd (d : Mm) (src : Rm Mm) : Statement (.paddd d src) := rfl

theorem paddsb (d : Mm) (src : Rm Mm) : Statement (.paddsb d src) := rfl

theorem paddsw (d : Mm) (src : Rm Mm) : Statement (.paddsw d src) := rfl

theorem paddusb (d : Mm) (src : Rm Mm) : Statement (.paddusb d src) := rfl

theorem paddusw (d : Mm) (src : Rm Mm) : Statement (.paddusw d src) := rfl

theorem pand (d : Mm) (src : Rm Mm) : Statement (.pand d src) := rfl

theorem pandn (d : Mm) (src : Rm Mm) : Statement (.pandn d src) := rfl

theorem pcmpeqb (d : Mm) (src : Rm Mm) : Statement (.pcmpeqb d src) := rfl

theorem pcmpeqw (d : Mm) (src : Rm Mm) : Statement (.pcmpeqw d src) := rfl

theorem pcmpeqd (d : Mm) (src : Rm Mm) : Statement (.pcmpeqd d src) := rfl

theorem pcmpgtb (d : Mm) (src : Rm Mm) : Statement (.pcmpgtb d src) := rfl

theorem pcmpgtw (d : Mm) (src : Rm Mm) : Statement (.pcmpgtw d src) := rfl

theorem pcmpgtd (d : Mm) (src : Rm Mm) : Statement (.pcmpgtd d src) := rfl

theorem pmaddwd (d : Mm) (src : Rm Mm) : Statement (.pmaddwd d src) := rfl

theorem pmulhw (d : Mm) (src : Rm Mm) : Statement (.pmulhw d src) := rfl

theorem pmullw (d : Mm) (src : Rm Mm) : Statement (.pmullw d src) := rfl

theorem por (d : Mm) (src : Rm Mm) : Statement (.por d src) := rfl

theorem psllw (d : Mm) (src : Rm Mm) : Statement (.psllw d src) := rfl

theorem psllwImm (d : Mm) (imm : Byte) : Statement (.psllwImm d imm) := rfl

theorem pslld (d : Mm) (src : Rm Mm) : Statement (.pslld d src) := rfl

theorem pslldImm (d : Mm) (imm : Byte) : Statement (.pslldImm d imm) := rfl

theorem psllq (d : Mm) (src : Rm Mm) : Statement (.psllq d src) := rfl

theorem psllqImm (d : Mm) (imm : Byte) : Statement (.psllqImm d imm) := rfl

theorem psraw (d : Mm) (src : Rm Mm) : Statement (.psraw d src) := rfl

theorem psrawImm (d : Mm) (imm : Byte) : Statement (.psrawImm d imm) := rfl

theorem psrad (d : Mm) (src : Rm Mm) : Statement (.psrad d src) := rfl

theorem psradImm (d : Mm) (imm : Byte) : Statement (.psradImm d imm) := rfl

theorem psrlw (d : Mm) (src : Rm Mm) : Statement (.psrlw d src) := rfl

theorem psrlwImm (d : Mm) (imm : Byte) : Statement (.psrlwImm d imm) := rfl

theorem psrld (d : Mm) (src : Rm Mm) : Statement (.psrld d src) := rfl

theorem psrldImm (d : Mm) (imm : Byte) : Statement (.psrldImm d imm) := rfl

theorem psrlq (d : Mm) (src : Rm Mm) : Statement (.psrlq d src) := rfl

theorem psrlqImm (d : Mm) (imm : Byte) : Statement (.psrlqImm d imm) := rfl

theorem psubb (d : Mm) (src : Rm Mm) : Statement (.psubb d src) := rfl

theorem psubw (d : Mm) (src : Rm Mm) : Statement (.psubw d src) := rfl

theorem psubd (d : Mm) (src : Rm Mm) : Statement (.psubd d src) := rfl

theorem psubsb (d : Mm) (src : Rm Mm) : Statement (.psubsb d src) := rfl

theorem psubsw (d : Mm) (src : Rm Mm) : Statement (.psubsw d src) := rfl

theorem psubusb (d : Mm) (src : Rm Mm) : Statement (.psubusb d src) := rfl

theorem psubusw (d : Mm) (src : Rm Mm) : Statement (.psubusw d src) := rfl

theorem punpckhbw (d : Mm) (src : Rm Mm) : Statement (.punpckhbw d src) := rfl

theorem punpckhwd (d : Mm) (src : Rm Mm) : Statement (.punpckhwd d src) := rfl

theorem punpckhdq (d : Mm) (src : Rm Mm) : Statement (.punpckhdq d src) := rfl

theorem punpcklbw (d : Mm) (src : Rm Mm) : Statement (.punpcklbw d src) := rfl

theorem punpcklwd (d : Mm) (src : Rm Mm) : Statement (.punpcklwd d src) := rfl

theorem punpckldq (d : Mm) (src : Rm Mm) : Statement (.punpckldq d src) := rfl

theorem pxor (d : Mm) (src : Rm Mm) : Statement (.pxor d src) := rfl

end Sys2Proof.Laws.OpcodeMap
end

