-- ==== Sys2Proof/Laws/Decode.lean ====
section
/-!
SUPPORT. The small laws of the encoding: register fields, ModR/M and SIB fields, displacements, prefixes, and what an
address decodes from and to.
-/

namespace Sys2Proof

/-! ### Fields -/

@[simp] theorem Mm.ofCode_code (r : Mm) : Mm.ofCode r.code = r := by cases r <;> rfl

@[simp] theorem Gpr.ofCode_code (r : Gpr) : Gpr.ofCode r.code = r := by cases r <;> rfl

@[simp] theorem Base16.ofCode_code (b : Base16) : Base16.ofCode b.code = b := by cases b <;> rfl

@[simp] theorem Mm.code_ofCode (c : BitVec 3) : (Mm.ofCode c).code = c := by revert c; decide

@[simp] theorem Gpr.code_ofCode (c : BitVec 3) : (Gpr.ofCode c).code = c := by revert c; decide

@[simp] theorem Base16.code_ofCode (c : BitVec 3) : (Base16.ofCode c).code = c := by revert c; decide

@[simp] theorem fieldHi_fieldsByte (hi : BitVec 2) (mid lo : BitVec 3) : fieldHi (fieldsByte hi mid lo) = hi := by
  revert hi mid lo; decide

@[simp] theorem fieldMid_fieldsByte (hi : BitVec 2) (mid lo : BitVec 3) : fieldMid (fieldsByte hi mid lo) = mid := by
  revert hi mid lo; decide

@[simp] theorem fieldLo_fieldsByte (hi : BitVec 2) (mid lo : BitVec 3) : fieldLo (fieldsByte hi mid lo) = lo := by
  revert hi mid lo; decide

theorem fieldsByte_fields (b : Byte) : fieldsByte (fieldHi b) (fieldMid b) (fieldLo b) = b := by
  revert b; decide +kernel

theorem Gpr.code_eq_four (r : Gpr) : r.code = 4 ↔ r = .esp := by cases r <;> decide

theorem Gpr.code_eq_five (r : Gpr) : r.code = 5 ↔ r = .ebp := by cases r <;> decide

theorem Base16.code_eq_six (b : Base16) : b.code = 6 ↔ b = .bp := by cases b <;> decide

/-! ### Displacements -/

theorem takeDisp16_bytes (d : BitVec 16) (rest : List Byte) :
    takeDisp16 (disp16Bytes d ++ rest) = some (d, rest) := by
  simp only [disp16Bytes, List.cons_append, List.nil_append, takeDisp16, Option.some.injEq, Prod.mk.injEq, and_true]
  apply BitVec.eq_of_getElem_eq
  intro i hi
  simp
  grind

theorem takeDisp32_bytes (d : Dword) (rest : List Byte) : takeDisp32 (disp32Bytes d ++ rest) = some (d, rest) := by
  simp only [disp32Bytes, List.cons_append, List.nil_append, takeDisp32, Option.some.injEq, Prod.mk.injEq, and_true]
  apply BitVec.eq_of_getElem_eq
  intro i hi
  simp
  grind

theorem takeDisp16_inv {bs rest : List Byte} {d : BitVec 16} (h : takeDisp16 bs = some (d, rest)) :
    bs = disp16Bytes d ++ rest := by
  unfold takeDisp16 at h
  split at h
  · rename_i b0 b1 tl
    cases h
    simp only [disp16Bytes, List.cons_append, List.nil_append, List.cons.injEq, and_true]
    constructor <;>
      (apply BitVec.eq_of_getElem_eq; intro i hi; simp; grind)
  · cases h

theorem takeDisp32_inv {bs rest : List Byte} {d : Dword} (h : takeDisp32 bs = some (d, rest)) :
    bs = disp32Bytes d ++ rest := by
  unfold takeDisp32 at h
  split at h
  · rename_i b0 b1 b2 b3 tl
    cases h
    simp only [disp32Bytes, List.cons_append, List.nil_append, List.cons.injEq, and_true]
    refine ⟨?_, ?_, ?_, ?_⟩ <;>
      (apply BitVec.eq_of_getElem_eq; intro i hi; simp; grind)
  · cases h

theorem takeDisp8_inv {bs rest : List Byte} {d : Byte} (h : takeDisp8 bs = some (d, rest)) : bs = d :: rest := by
  cases bs with
  | nil => cases h
  | cons b bs =>
    cases h
    rfl

/-! ### Scaled index -/

theorem decodeIndex_sibByte {x : ScaledIndex} (hx : x.wf = true) (base : BitVec 3) :
    decodeIndex (sibByte x base) = x := by
  obtain ⟨scale, index⟩ := x
  cases index with
  | none => simp [decodeIndex, sibByte]
  | some r =>
    have hr : r ≠ .esp := by simpa [ScaledIndex.wf] using hx
    have hc : r.code ≠ 4 := fun h => hr ((Gpr.code_eq_four r).1 h)
    simpa [decodeIndex, sibByte] using hc

theorem decodeIndex_wf (sib : Byte) : (decodeIndex sib).wf = true := by
  unfold decodeIndex ScaledIndex.wf
  split
  · rfl
  · rename_i h
    simp only [bne_iff_ne, ne_eq, Option.some.injEq]
    intro he
    exact h (by rw [← Gpr.code_ofCode (fieldMid sib), he]; rfl)

theorem sibByte_decodeIndex (sib : Byte) : sibByte (decodeIndex sib) (fieldLo sib) = sib := by
  rw [sibByte]
  conv_rhs => rw [← fieldsByte_fields sib]
  unfold decodeIndex
  split
  · rename_i h
    rw [h]
  · simp

end Sys2Proof
end

