-- ==== Sys2Proof/Laws/Lanes.lean ====
section
/-!
SUPPORT. The laws of packed data: a lane of a packed value, of a lane-wise map or zip, and what the functions of one
element are as integers.
-/

namespace Sys2Proof.Machine

/-! ### A lane of a packed value -/

theorem lane_pack8 (e0 e1 e2 e3 e4 e5 e6 e7 : BitVec 8) :
    lane 8 (pack8 e0 e1 e2 e3 e4 e5 e6 e7) 0 = e0 ∧ lane 8 (pack8 e0 e1 e2 e3 e4 e5 e6 e7) 1 = e1
      ∧ lane 8 (pack8 e0 e1 e2 e3 e4 e5 e6 e7) 2 = e2 ∧ lane 8 (pack8 e0 e1 e2 e3 e4 e5 e6 e7) 3 = e3
      ∧ lane 8 (pack8 e0 e1 e2 e3 e4 e5 e6 e7) 4 = e4 ∧ lane 8 (pack8 e0 e1 e2 e3 e4 e5 e6 e7) 5 = e5
      ∧ lane 8 (pack8 e0 e1 e2 e3 e4 e5 e6 e7) 6 = e6 ∧ lane 8 (pack8 e0 e1 e2 e3 e4 e5 e6 e7) 7 = e7 := by
  unfold lane pack8
  refine ⟨?_, ?_, ?_, ?_, ?_, ?_, ?_, ?_⟩ <;>
    (apply BitVec.eq_of_getElem_eq; intro i hi; simp [BitVec.getElem_extractLsb']; grind)

theorem lane_pack16 (e0 e1 e2 e3 : BitVec 16) :
    lane 16 (pack16 e0 e1 e2 e3) 0 = e0 ∧ lane 16 (pack16 e0 e1 e2 e3) 1 = e1
      ∧ lane 16 (pack16 e0 e1 e2 e3) 2 = e2 ∧ lane 16 (pack16 e0 e1 e2 e3) 3 = e3 := by
  unfold lane pack16
  refine ⟨?_, ?_, ?_, ?_⟩ <;>
    (apply BitVec.eq_of_getElem_eq; intro i hi; simp [BitVec.getElem_extractLsb']; grind)

theorem lane_pack32 (e0 e1 : BitVec 32) : lane 32 (pack32 e0 e1) 0 = e0 ∧ lane 32 (pack32 e0 e1) 1 = e1 := by
  unfold lane pack32
  refine ⟨?_, ?_⟩ <;>
    (apply BitVec.eq_of_getElem_eq; intro i hi; simp [BitVec.getElem_extractLsb']; grind)

theorem lane_zip8 (f : BitVec 8 → BitVec 8 → BitVec 8) (a b : Qword) (k : Nat) (hk : k < 8) :
    lane 8 (zip8 f a b) k = f (lane 8 a k) (lane 8 b k) := by
  obtain ⟨h0, h1, h2, h3, h4, h5, h6, h7⟩ := lane_pack8 (f (lane 8 a 0) (lane 8 b 0)) (f (lane 8 a 1) (lane 8 b 1))
    (f (lane 8 a 2) (lane 8 b 2)) (f (lane 8 a 3) (lane 8 b 3)) (f (lane 8 a 4) (lane 8 b 4))
    (f (lane 8 a 5) (lane 8 b 5)) (f (lane 8 a 6) (lane 8 b 6)) (f (lane 8 a 7) (lane 8 b 7))
  match k, hk with
  | 0, _ => exact h0
  | 1, _ => exact h1
  | 2, _ => exact h2
  | 3, _ => exact h3
  | 4, _ => exact h4
  | 5, _ => exact h5
  | 6, _ => exact h6
  | 7, _ => exact h7

theorem lane_zip16 (f : BitVec 16 → BitVec 16 → BitVec 16) (a b : Qword) (k : Nat) (hk : k < 4) :
    lane 16 (zip16 f a b) k = f (lane 16 a k) (lane 16 b k) := by
  obtain ⟨h0, h1, h2, h3⟩ := lane_pack16 (f (lane 16 a 0) (lane 16 b 0)) (f (lane 16 a 1) (lane 16 b 1))
    (f (lane 16 a 2) (lane 16 b 2)) (f (lane 16 a 3) (lane 16 b 3))
  match k, hk with
  | 0, _ => exact h0
  | 1, _ => exact h1
  | 2, _ => exact h2
  | 3, _ => exact h3

theorem lane_zip32 (f : BitVec 32 → BitVec 32 → BitVec 32) (a b : Qword) (k : Nat) (hk : k < 2) :
    lane 32 (zip32 f a b) k = f (lane 32 a k) (lane 32 b k) := by
  obtain ⟨h0, h1⟩ := lane_pack32 (f (lane 32 a 0) (lane 32 b 0)) (f (lane 32 a 1) (lane 32 b 1))
  match k, hk with
  | 0, _ => exact h0
  | 1, _ => exact h1

theorem lane_map16 (f : BitVec 16 → BitVec 16) (a : Qword) (k : Nat) (hk : k < 4) :
    lane 16 (map16 f a) k = f (lane 16 a k) := lane_zip16 (fun x _ => f x) a a k hk

theorem lane_map32 (f : BitVec 32 → BitVec 32) (a : Qword) (k : Nat) (hk : k < 2) :
    lane 32 (map32 f a) k = f (lane 32 a k) := lane_zip32 (fun x _ => f x) a a k hk

/-! ### One element as an integer -/

theorem trunc_toNat (w : Nat) (n : Int) : ((trunc w n).toNat : Int) = n % 2 ^ w := by
  simp only [trunc, BitVec.toNat_ofInt]
  have : (0 : Int) ≤ n % ((2 ^ w : Nat) : Int) := Int.emod_nonneg _ (by positivity)
  rw [Int.toNat_of_nonneg this]
  push_cast
  rfl

theorem trunc_toInt_of_range {w : Nat} (hw : 0 < w) {n : Int} (hl : -2 ^ (w - 1) ≤ n) (hh : n ≤ 2 ^ (w - 1) - 1) :
    (trunc w n).toInt = n := by
  simp only [trunc, BitVec.toInt_ofInt]
  obtain ⟨v, rfl⟩ : ∃ v, w = v + 1 := ⟨w - 1, by omega⟩
  rw [Int.bmod_def]
  simp only [Nat.add_sub_cancel] at hl hh
  have h2 : ((2 ^ (v + 1) : Nat) : Int) = 2 * 2 ^ v := by push_cast; ring
  rw [h2]
  have hp : (0 : Int) < 2 ^ v := by positivity
  split
  · rename_i hlt
    rcases lt_or_ge n 0 with h0 | h0
    · exfalso
      have : n % (2 * 2 ^ v) = n + 2 * 2 ^ v := by
        rw [← Int.add_mul_emod_self_left n (2 * 2 ^ v) 1, mul_one]
        exact Int.emod_eq_of_lt (by omega) (by omega)
      rw [this] at hlt
      omega
    · exact Int.emod_eq_of_lt h0 (by omega)
  · rename_i hge
    rcases lt_or_ge n 0 with h0 | h0
    · have : n % (2 * 2 ^ v) = n + 2 * 2 ^ v := by
        rw [← Int.add_mul_emod_self_left n (2 * 2 ^ v) 1, mul_one]
        exact Int.emod_eq_of_lt (by omega) (by omega)
      rw [this]
      omega
    · exfalso
      rw [Int.emod_eq_of_lt h0 (by omega)] at hge
      omega

/-- `satS` clamps to the signed range (R13, R14). -/
theorem satS_toInt {w : Nat} (hw : 0 < w) (n : Int) :
    (satS w n).toInt = max (-2 ^ (w - 1)) (min (2 ^ (w - 1) - 1) n) := by
  have hp : (0 : Int) < 2 ^ (w - 1) := by positivity
  unfold satS
  split
  · rw [trunc_toInt_of_range hw (by omega) (by omega)]
    omega
  · split
    · rw [trunc_toInt_of_range hw (by omega) (by omega)]
      omega
    · rw [trunc_toInt_of_range hw (by omega) (by omega)]
      omega

/-- `satU` clamps to the unsigned range (R15, R16). -/
theorem satU_toNat (w : Nat) (n : Int) : ((satU w n).toNat : Int) = max 0 (min (2 ^ w - 1) n) := by
  have hp : (0 : Int) < 2 ^ w := by positivity
  unfold satU
  split
  · rw [trunc_toNat, Int.zero_emod]
    omega
  · split
    · rw [trunc_toNat, Int.emod_eq_of_lt (by omega) (by omega)]
      omega
    · rw [trunc_toNat, Int.emod_eq_of_lt (by omega) (by omega)]
      omega

theorem shiftLeft_toNat {w : Nat} (c : Nat) (x : BitVec w) :
    (shiftLeft c x).toNat = if w - 1 < c then 0 else x.toNat * 2 ^ c % 2 ^ w := by
  unfold shiftLeft
  split
  · simp
  · have h := trunc_toNat w (uval x * 2 ^ c)
    have hc : (uval x * 2 ^ c) % 2 ^ w = ((x.toNat * 2 ^ c % 2 ^ w : Nat) : Int) := by push_cast; rfl
    rw [hc] at h
    exact_mod_cast h

theorem shiftRight_toNat {w : Nat} (c : Nat) (x : BitVec w) :
    (shiftRight c x).toNat = if w - 1 < c then 0 else x.toNat / 2 ^ c := by
  unfold shiftRight
  split
  · simp
  · have h := trunc_toNat w (Int.fdiv (uval x) (2 ^ c))
    have hd : Int.fdiv (uval x) (2 ^ c) = ((x.toNat / 2 ^ c : Nat) : Int) := by
      rw [Int.fdiv_eq_ediv_of_nonneg _ (by positivity)]
      push_cast
      rfl
    have hlt : x.toNat / 2 ^ c < 2 ^ w := lt_of_le_of_lt (Nat.div_le_self _ _) x.isLt
    rw [hd] at h
    have hm : (((x.toNat / 2 ^ c : Nat) : Int) % 2 ^ w) = ((x.toNat / 2 ^ c : Nat) : Int) :=
      Int.emod_eq_of_lt (by positivity) (by exact_mod_cast hlt)
    rw [hm] at h
    rw [hd]
    exact_mod_cast h

theorem shiftRightSigned_toInt {w : Nat} (hw : 0 < w) (c : Nat) (x : BitVec w) :
    (shiftRightSigned c x).toInt = x.toInt / 2 ^ min c (w - 1) := by
  unfold shiftRightSigned
  have hd : Int.fdiv (sval x) (2 ^ min c (w - 1)) = x.toInt / 2 ^ min c (w - 1) :=
    Int.fdiv_eq_ediv_of_nonneg _ (by positivity)
  rw [hd]
  have h1 : (1 : Int) ≤ 2 ^ min c (w - 1) := one_le_pow₀ (by norm_num)
  have hlo := BitVec.le_toInt x
  have hhi := BitVec.toInt_lt (x := x)
  have hp : (0 : Int) < 2 ^ (w - 1) := by positivity
  refine trunc_toInt_of_range hw ?_ ?_
  · rw [Int.le_ediv_iff_mul_le (by omega)]
    nlinarith
  · have hlt : x.toInt / 2 ^ min c (w - 1) < 2 ^ (w - 1) := by
      rw [Int.ediv_lt_iff_lt_mul (by omega)]
      nlinarith
    omega

end Sys2Proof.Machine
end

