-- ==== Sys2Proof/Laws/State.lean ====
section
/-!
SUPPORT. One lemma per field per update of the state, and the read-after-write laws of the two register files.
-/

namespace Sys2Proof.Machine

-- One theorem at a time: elaborated at once, this many theorems take as many thread stacks.
set_option Elab.async false

@[simp] theorem State.writeMm_mm (s : State) (r : Mm) (v : Qword) : (s.writeMm r v).mm = s.mm.set r v := rfl
@[simp] theorem State.writeMm_tw (s : State) (r : Mm) (v : Qword) : (s.writeMm r v).tw = s.tw := rfl
@[simp] theorem State.writeMm_gpr (s : State) (r : Mm) (v : Qword) : (s.writeMm r v).gpr = s.gpr := rfl
@[simp] theorem State.writeMm_eip (s : State) (r : Mm) (v : Qword) : (s.writeMm r v).eip = s.eip := rfl
@[simp] theorem State.writeMm_flags (s : State) (r : Mm) (v : Qword) : (s.writeMm r v).flags = s.flags := rfl
@[simp] theorem State.writeMm_cr0Em (s : State) (r : Mm) (v : Qword) : (s.writeMm r v).cr0Em = s.cr0Em := rfl
@[simp] theorem State.writeMm_cr0Ts (s : State) (r : Mm) (v : Qword) : (s.writeMm r v).cr0Ts = s.cr0Ts := rfl
@[simp] theorem State.writeMm_fpPending (s : State) (r : Mm) (v : Qword) : (s.writeMm r v).fpPending = s.fpPending := rfl
@[simp] theorem State.writeMm_mode (s : State) (r : Mm) (v : Qword) : (s.writeMm r v).mode = s.mode := rfl
@[simp] theorem State.writeMm_cpl (s : State) (r : Mm) (v : Qword) : (s.writeMm r v).cpl = s.cpl := rfl
@[simp] theorem State.writeMm_mem (s : State) (r : Mm) (v : Qword) : (s.writeMm r v).mem = s.mem := rfl
@[simp] theorem State.writeMm_addrSize (s : State) (r : Mm) (v : Qword) : (s.writeMm r v).addrSize = s.addrSize := rfl
@[simp] theorem State.writeMm_acEnable (s : State) (r : Mm) (v : Qword) : (s.writeMm r v).acEnable = s.acEnable := rfl
@[simp] theorem State.writeMm_segs (s : State) (r : Mm) (v : Qword) : (s.writeMm r v).segs = s.segs := rfl
@[simp] theorem State.writeMm_pageRules (s : State) (r : Mm) (v : Qword) : (s.writeMm r v).pageRules = s.pageRules := rfl
@[simp] theorem State.writeMm_translation (s : State) (r : Mm) (v : Qword) : (s.writeMm r v).translation = s.translation := rfl
@[simp] theorem State.writeMm_program (s : State) (r : Mm) (v : Qword) : (s.writeMm r v).program = s.program := rfl

@[simp] theorem State.writeGpr_mm (s : State) (r : Gpr) (v : Dword) : (s.writeGpr r v).mm = s.mm := rfl
@[simp] theorem State.writeGpr_tw (s : State) (r : Gpr) (v : Dword) : (s.writeGpr r v).tw = s.tw := rfl
@[simp] theorem State.writeGpr_gpr (s : State) (r : Gpr) (v : Dword) : (s.writeGpr r v).gpr = s.gpr.set r v := rfl
@[simp] theorem State.writeGpr_eip (s : State) (r : Gpr) (v : Dword) : (s.writeGpr r v).eip = s.eip := rfl
@[simp] theorem State.writeGpr_flags (s : State) (r : Gpr) (v : Dword) : (s.writeGpr r v).flags = s.flags := rfl
@[simp] theorem State.writeGpr_cr0Em (s : State) (r : Gpr) (v : Dword) : (s.writeGpr r v).cr0Em = s.cr0Em := rfl
@[simp] theorem State.writeGpr_cr0Ts (s : State) (r : Gpr) (v : Dword) : (s.writeGpr r v).cr0Ts = s.cr0Ts := rfl
@[simp] theorem State.writeGpr_fpPending (s : State) (r : Gpr) (v : Dword) : (s.writeGpr r v).fpPending = s.fpPending := rfl
@[simp] theorem State.writeGpr_mode (s : State) (r : Gpr) (v : Dword) : (s.writeGpr r v).mode = s.mode := rfl
@[simp] theorem State.writeGpr_cpl (s : State) (r : Gpr) (v : Dword) : (s.writeGpr r v).cpl = s.cpl := rfl
@[simp] theorem State.writeGpr_mem (s : State) (r : Gpr) (v : Dword) : (s.writeGpr r v).mem = s.mem := rfl
@[simp] theorem State.writeGpr_addrSize (s : State) (r : Gpr) (v : Dword) : (s.writeGpr r v).addrSize = s.addrSize := rfl
@[simp] theorem State.writeGpr_acEnable (s : State) (r : Gpr) (v : Dword) : (s.writeGpr r v).acEnable = s.acEnable := rfl
@[simp] theorem State.writeGpr_segs (s : State) (r : Gpr) (v : Dword) : (s.writeGpr r v).segs = s.segs := rfl
@[simp] theorem State.writeGpr_pageRules (s : State) (r : Gpr) (v : Dword) : (s.writeGpr r v).pageRules = s.pageRules := rfl
@[simp] theorem State.writeGpr_translation (s : State) (r : Gpr) (v : Dword) : (s.writeGpr r v).translation = s.translation := rfl
@[simp] theorem State.writeGpr_program (s : State) (r : Gpr) (v : Dword) : (s.writeGpr r v).program = s.program := rfl

@[simp] theorem State.setByte_mm (s : State) (x : Dword) (b : Byte) : (s.setByte x b).mm = s.mm := rfl
@[simp] theorem State.setByte_tw (s : State) (x : Dword) (b : Byte) : (s.setByte x b).tw = s.tw := rfl
@[simp] theorem State.setByte_gpr (s : State) (x : Dword) (b : Byte) : (s.setByte x b).gpr = s.gpr := rfl
@[simp] theorem State.setByte_eip (s : State) (x : Dword) (b : Byte) : (s.setByte x b).eip = s.eip := rfl
@[simp] theorem State.setByte_flags (s : State) (x : Dword) (b : Byte) : (s.setByte x b).flags = s.flags := rfl
@[simp] theorem State.setByte_cr0Em (s : State) (x : Dword) (b : Byte) : (s.setByte x b).cr0Em = s.cr0Em := rfl
@[simp] theorem State.setByte_cr0Ts (s : State) (x : Dword) (b : Byte) : (s.setByte x b).cr0Ts = s.cr0Ts := rfl
@[simp] theorem State.setByte_fpPending (s : State) (x : Dword) (b : Byte) : (s.setByte x b).fpPending = s.fpPending := rfl
@[simp] theorem State.setByte_mode (s : State) (x : Dword) (b : Byte) : (s.setByte x b).mode = s.mode := rfl
@[simp] theorem State.setByte_cpl (s : State) (x : Dword) (b : Byte) : (s.setByte x b).cpl = s.cpl := rfl
@[simp] theorem State.setByte_mem (s : State) (x : Dword) (b : Byte) : (s.setByte x b).mem = s.mem.write (s.physical x).toNat b := rfl
@[simp] theorem State.setByte_addrSize (s : State) (x : Dword) (b : Byte) : (s.setByte x b).addrSize = s.addrSize := rfl
@[simp] theorem State.setByte_acEnable (s : State) (x : Dword) (b : Byte) : (s.setByte x b).acEnable = s.acEnable := rfl
@[simp] theorem State.setByte_segs (s : State) (x : Dword) (b : Byte) : (s.setByte x b).segs = s.segs := rfl
@[simp] theorem State.setByte_pageRules (s : State) (x : Dword) (b : Byte) : (s.setByte x b).pageRules = s.pageRules := rfl
@[simp] theorem State.setByte_translation (s : State) (x : Dword) (b : Byte) : (s.setByte x b).translation = s.translation := rfl
@[simp] theorem State.setByte_program (s : State) (x : Dword) (b : Byte) : (s.setByte x b).program = s.program := rfl

@[simp] theorem State.setTags_mm (s : State) (v : BitVec 16) : (s.setTags v).mm = s.mm := rfl
@[simp] theorem State.setTags_tw (s : State) (v : BitVec 16) : (s.setTags v).tw = v := rfl
@[simp] theorem State.setTags_gpr (s : State) (v : BitVec 16) : (s.setTags v).gpr = s.gpr := rfl
@[simp] theorem State.setTags_eip (s : State) (v : BitVec 16) : (s.setTags v).eip = s.eip := rfl
@[simp] theorem State.setTags_flags (s : State) (v : BitVec 16) : (s.setTags v).flags = s.flags := rfl
@[simp] theorem State.setTags_cr0Em (s : State) (v : BitVec 16) : (s.setTags v).cr0Em = s.cr0Em := rfl
@[simp] theorem State.setTags_cr0Ts (s : State) (v : BitVec 16) : (s.setTags v).cr0Ts = s.cr0Ts := rfl
@[simp] theorem State.setTags_fpPending (s : State) (v : BitVec 16) : (s.setTags v).fpPending = s.fpPending := rfl
@[simp] theorem State.setTags_mode (s : State) (v : BitVec 16) : (s.setTags v).mode = s.mode := rfl
@[simp] theorem State.setTags_cpl (s : State) (v : BitVec 16) : (s.setTags v).cpl = s.cpl := rfl
@[simp] theorem State.setTags_mem (s : State) (v : BitVec 16) : (s.setTags v).mem = s.mem := rfl
@[simp] theorem State.setTags_addrSize (s : State) (v : BitVec 16) : (s.setTags v).addrSize = s.addrSize := rfl
@[simp] theorem State.setTags_acEnable (s : State) (v : BitVec 16) : (s.setTags v).acEnable = s.acEnable := rfl
@[simp] theorem State.setTags_segs (s : State) (v : BitVec 16) : (s.setTags v).segs = s.segs := rfl
@[simp] theorem State.setTags_pageRules (s : State) (v : BitVec 16) : (s.setTags v).pageRules = s.pageRules := rfl
@[simp] theorem State.setTags_translation (s : State) (v : BitVec 16) : (s.setTags v).translation = s.translation := rfl
@[simp] theorem State.setTags_program (s : State) (v : BitVec 16) : (s.setTags v).program = s.program := rfl

@[simp] theorem State.advance_mm (s : State) (len : Nat) : (s.advance len).mm = s.mm := rfl
@[simp] theorem State.advance_tw (s : State) (len : Nat) : (s.advance len).tw = s.tw := rfl
@[simp] theorem State.advance_gpr (s : State) (len : Nat) : (s.advance len).gpr = s.gpr := rfl
@[simp] theorem State.advance_eip (s : State) (len : Nat) : (s.advance len).eip = s.eip + BitVec.ofNat 32 len := rfl
@[simp] theorem State.advance_flags (s : State) (len : Nat) : (s.advance len).flags = s.flags := rfl
@[simp] theorem State.advance_cr0Em (s : State) (len : Nat) : (s.advance len).cr0Em = s.cr0Em := rfl
@[simp] theorem State.advance_cr0Ts (s : State) (len : Nat) : (s.advance len).cr0Ts = s.cr0Ts := rfl
@[simp] theorem State.advance_fpPending (s : State) (len : Nat) : (s.advance len).fpPending = s.fpPending := rfl
@[simp] theorem State.advance_mode (s : State) (len : Nat) : (s.advance len).mode = s.mode := rfl
@[simp] theorem State.advance_cpl (s : State) (len : Nat) : (s.advance len).cpl = s.cpl := rfl
@[simp] theorem State.advance_mem (s : State) (len : Nat) : (s.advance len).mem = s.mem := rfl
@[simp] theorem State.advance_addrSize (s : State) (len : Nat) : (s.advance len).addrSize = s.addrSize := rfl
@[simp] theorem State.advance_acEnable (s : State) (len : Nat) : (s.advance len).acEnable = s.acEnable := rfl
@[simp] theorem State.advance_segs (s : State) (len : Nat) : (s.advance len).segs = s.segs := rfl
@[simp] theorem State.advance_pageRules (s : State) (len : Nat) : (s.advance len).pageRules = s.pageRules := rfl
@[simp] theorem State.advance_translation (s : State) (len : Nat) : (s.advance len).translation = s.translation := rfl
@[simp] theorem State.advance_program (s : State) (len : Nat) : (s.advance len).program = s.program := rfl

@[simp] theorem State.complete_mm (s : State) (len : Nat) : (s.complete len).mm = s.mm := rfl
@[simp] theorem State.complete_tw (s : State) (len : Nat) : (s.complete len).tw = tagsValid := rfl
@[simp] theorem State.complete_gpr (s : State) (len : Nat) : (s.complete len).gpr = s.gpr := rfl
@[simp] theorem State.complete_eip (s : State) (len : Nat) : (s.complete len).eip = s.eip + BitVec.ofNat 32 len := rfl
@[simp] theorem State.complete_flags (s : State) (len : Nat) : (s.complete len).flags = s.flags := rfl
@[simp] theorem State.complete_cr0Em (s : State) (len : Nat) : (s.complete len).cr0Em = s.cr0Em := rfl
@[simp] theorem State.complete_cr0Ts (s : State) (len : Nat) : (s.complete len).cr0Ts = s.cr0Ts := rfl
@[simp] theorem State.complete_fpPending (s : State) (len : Nat) : (s.complete len).fpPending = s.fpPending := rfl
@[simp] theorem State.complete_mode (s : State) (len : Nat) : (s.complete len).mode = s.mode := rfl
@[simp] theorem State.complete_cpl (s : State) (len : Nat) : (s.complete len).cpl = s.cpl := rfl
@[simp] theorem State.complete_mem (s : State) (len : Nat) : (s.complete len).mem = s.mem := rfl
@[simp] theorem State.complete_addrSize (s : State) (len : Nat) : (s.complete len).addrSize = s.addrSize := rfl
@[simp] theorem State.complete_acEnable (s : State) (len : Nat) : (s.complete len).acEnable = s.acEnable := rfl
@[simp] theorem State.complete_segs (s : State) (len : Nat) : (s.complete len).segs = s.segs := rfl
@[simp] theorem State.complete_pageRules (s : State) (len : Nat) : (s.complete len).pageRules = s.pageRules := rfl
@[simp] theorem State.complete_translation (s : State) (len : Nat) : (s.complete len).translation = s.translation := rfl
@[simp] theorem State.complete_program (s : State) (len : Nat) : (s.complete len).program = s.program := rfl

@[simp] theorem State.afterMm_mm (s : State) (d : Mm) (r : Qword) (len : Nat) : (s.afterMm d r len).mm = s.mm.set d r := rfl
@[simp] theorem State.afterMm_tw (s : State) (d : Mm) (r : Qword) (len : Nat) : (s.afterMm d r len).tw = 0x0000#16 := rfl
@[simp] theorem State.afterMm_gpr (s : State) (d : Mm) (r : Qword) (len : Nat) : (s.afterMm d r len).gpr = s.gpr := rfl
@[simp] theorem State.afterMm_eip (s : State) (d : Mm) (r : Qword) (len : Nat) : (s.afterMm d r len).eip = s.eip + BitVec.ofNat 32 len := rfl
@[simp] theorem State.afterMm_flags (s : State) (d : Mm) (r : Qword) (len : Nat) : (s.afterMm d r len).flags = s.flags := rfl
@[simp] theorem State.afterMm_cr0Em (s : State) (d : Mm) (r : Qword) (len : Nat) : (s.afterMm d r len).cr0Em = s.cr0Em := rfl
@[simp] theorem State.afterMm_cr0Ts (s : State) (d : Mm) (r : Qword) (len : Nat) : (s.afterMm d r len).cr0Ts = s.cr0Ts := rfl
@[simp] theorem State.afterMm_fpPending (s : State) (d : Mm) (r : Qword) (len : Nat) : (s.afterMm d r len).fpPending = s.fpPending := rfl
@[simp] theorem State.afterMm_mode (s : State) (d : Mm) (r : Qword) (len : Nat) : (s.afterMm d r len).mode = s.mode := rfl
@[simp] theorem State.afterMm_cpl (s : State) (d : Mm) (r : Qword) (len : Nat) : (s.afterMm d r len).cpl = s.cpl := rfl
@[simp] theorem State.afterMm_mem (s : State) (d : Mm) (r : Qword) (len : Nat) : (s.afterMm d r len).mem = s.mem := rfl
@[simp] theorem State.afterMm_addrSize (s : State) (d : Mm) (r : Qword) (len : Nat) : (s.afterMm d r len).addrSize = s.addrSize := rfl
@[simp] theorem State.afterMm_acEnable (s : State) (d : Mm) (r : Qword) (len : Nat) : (s.afterMm d r len).acEnable = s.acEnable := rfl
@[simp] theorem State.afterMm_segs (s : State) (d : Mm) (r : Qword) (len : Nat) : (s.afterMm d r len).segs = s.segs := rfl
@[simp] theorem State.afterMm_pageRules (s : State) (d : Mm) (r : Qword) (len : Nat) : (s.afterMm d r len).pageRules = s.pageRules := rfl
@[simp] theorem State.afterMm_translation (s : State) (d : Mm) (r : Qword) (len : Nat) : (s.afterMm d r len).translation = s.translation := rfl
@[simp] theorem State.afterMm_program (s : State) (d : Mm) (r : Qword) (len : Nat) : (s.afterMm d r len).program = s.program := rfl

@[simp] theorem State.storeBytes_mm (bs : List Byte) (s : State) (a : Dword) : (s.storeBytes a bs).mm = s.mm := by
  induction bs generalizing s a with
  | nil => rfl
  | cons b bs ih => simp [State.storeBytes, ih]

@[simp] theorem State.storeBytes_tw (bs : List Byte) (s : State) (a : Dword) : (s.storeBytes a bs).tw = s.tw := by
  induction bs generalizing s a with
  | nil => rfl
  | cons b bs ih => simp [State.storeBytes, ih]

@[simp] theorem State.storeBytes_gpr (bs : List Byte) (s : State) (a : Dword) : (s.storeBytes a bs).gpr = s.gpr := by
  induction bs generalizing s a with
  | nil => rfl
  | cons b bs ih => simp [State.storeBytes, ih]

@[simp] theorem State.storeBytes_eip (bs : List Byte) (s : State) (a : Dword) : (s.storeBytes a bs).eip = s.eip := by
  induction bs generalizing s a with
  | nil => rfl
  | cons b bs ih => simp [State.storeBytes, ih]

@[simp] theorem State.storeBytes_flags (bs : List Byte) (s : State) (a : Dword) : (s.storeBytes a bs).flags = s.flags := by
  induction bs generalizing s a with
  | nil => rfl
  | cons b bs ih => simp [State.storeBytes, ih]

@[simp] theorem State.storeBytes_cr0Em (bs : List Byte) (s : State) (a : Dword) : (s.storeBytes a bs).cr0Em = s.cr0Em := by
  induction bs generalizing s a with
  | nil => rfl
  | cons b bs ih => simp [State.storeBytes, ih]

@[simp] theorem State.storeBytes_cr0Ts (bs : List Byte) (s : State) (a : Dword) : (s.storeBytes a bs).cr0Ts = s.cr0Ts := by
  induction bs generalizing s a with
  | nil => rfl
  | cons b bs ih => simp [State.storeBytes, ih]

@[simp] theorem State.storeBytes_fpPending (bs : List Byte) (s : State) (a : Dword) : (s.storeBytes a bs).fpPending = s.fpPending := by
  induction bs generalizing s a with
  | nil => rfl
  | cons b bs ih => simp [State.storeBytes, ih]

@[simp] theorem State.storeBytes_mode (bs : List Byte) (s : State) (a : Dword) : (s.storeBytes a bs).mode = s.mode := by
  induction bs generalizing s a with
  | nil => rfl
  | cons b bs ih => simp [State.storeBytes, ih]

@[simp] theorem State.storeBytes_cpl (bs : List Byte) (s : State) (a : Dword) : (s.storeBytes a bs).cpl = s.cpl := by
  induction bs generalizing s a with
  | nil => rfl
  | cons b bs ih => simp [State.storeBytes, ih]

@[simp] theorem State.storeBytes_addrSize (bs : List Byte) (s : State) (a : Dword) : (s.storeBytes a bs).addrSize = s.addrSize := by
  induction bs generalizing s a with
  | nil => rfl
  | cons b bs ih => simp [State.storeBytes, ih]

@[simp] theorem State.storeBytes_acEnable (bs : List Byte) (s : State) (a : Dword) : (s.storeBytes a bs).acEnable = s.acEnable := by
  induction bs generalizing s a with
  | nil => rfl
  | cons b bs ih => simp [State.storeBytes, ih]

@[simp] theorem State.storeBytes_segs (bs : List Byte) (s : State) (a : Dword) : (s.storeBytes a bs).segs = s.segs := by
  induction bs generalizing s a with
  | nil => rfl
  | cons b bs ih => simp [State.storeBytes, ih]

@[simp] theorem State.storeBytes_pageRules (bs : List Byte) (s : State) (a : Dword) : (s.storeBytes a bs).pageRules = s.pageRules := by
  induction bs generalizing s a with
  | nil => rfl
  | cons b bs ih => simp [State.storeBytes, ih]

@[simp] theorem State.storeBytes_translation (bs : List Byte) (s : State) (a : Dword) : (s.storeBytes a bs).translation = s.translation := by
  induction bs generalizing s a with
  | nil => rfl
  | cons b bs ih => simp [State.storeBytes, ih]

@[simp] theorem State.storeBytes_program (bs : List Byte) (s : State) (a : Dword) : (s.storeBytes a bs).program = s.program := by
  induction bs generalizing s a with
  | nil => rfl
  | cons b bs ih => simp [State.storeBytes, ih]

/-! ### The register files -/

@[simp] theorem MmFile.get_set_same (f : MmFile) (r : Mm) (v : Qword) : (f.set r v).get r = v := by cases r <;> rfl

theorem MmFile.get_set_other (f : MmFile) (r q : Mm) (v : Qword) (h : q ≠ r) : (f.set r v).get q = f.get q := by
  cases r <;> cases q <;> first | rfl | exact absurd rfl h

@[simp] theorem MmFile.set_get (f : MmFile) (r : Mm) : f.set r (f.get r) = f := by cases r <;> rfl

theorem MmFile.ext_get {f g : MmFile} (h : ∀ r, f.get r = g.get r) : f = g := by
  have h0 := h .mm0
  have h1 := h .mm1
  have h2 := h .mm2
  have h3 := h .mm3
  have h4 := h .mm4
  have h5 := h .mm5
  have h6 := h .mm6
  have h7 := h .mm7
  cases f
  cases g
  simp_all [MmFile.get]

@[simp] theorem GprFile.get_set_same (f : GprFile) (r : Gpr) (v : Dword) : (f.set r v).get r = v := by cases r <;> rfl

theorem GprFile.get_set_other (f : GprFile) (r q : Gpr) (v : Dword) (h : q ≠ r) : (f.set r v).get q = f.get q := by
  cases r <;> cases q <;> first | rfl | exact absurd rfl h

@[simp] theorem State.readMm_writeMm_same (s : State) (r : Mm) (v : Qword) : (s.writeMm r v).readMm r = v := by
  simp [State.readMm]

theorem State.readMm_writeMm_other (s : State) (r q : Mm) (v : Qword) (h : q ≠ r) :
    (s.writeMm r v).readMm q = s.readMm q := MmFile.get_set_other s.mm r q v h

@[simp] theorem State.readGpr_writeGpr_same (s : State) (r : Gpr) (v : Dword) : (s.writeGpr r v).readGpr r = v := by
  simp [State.readGpr]

theorem State.readGpr_writeGpr_other (s : State) (r q : Gpr) (v : Dword) (h : q ≠ r) :
    (s.writeGpr r v).readGpr q = s.readGpr q := GprFile.get_set_other s.gpr r q v h

/-- A write of an MMX register and the completion are `afterMm`. -/
theorem State.writeMm_complete (s : State) (d : Mm) (r : Qword) (len : Nat) :
    (s.writeMm d r).complete len = s.afterMm d r len := rfl

end Sys2Proof.Machine
end

