-- ==== Sys2Proof/Laws/Memory.lean ====
section
/-!
SUPPORT. The laws of memory: a byte read after a byte written, the canonical form, and what a store of several bytes
does to every byte.
-/

namespace Sys2Proof.Machine

/-! ### One byte -/

theorem Memory.read_put_other {x y : Nat} (b : Byte) (m : Memory) (h : y ≠ x) :
    Memory.read (Memory.put x b m) y = Memory.read m y := by
  unfold Memory.put
  split
  · rfl
  · simp [Memory.read, Ne.symm h]

/-- A write leaves every other byte alone, whatever the memory. -/
theorem Memory.read_write_other (m : Memory) (x y : Nat) (b : Byte) (h : y ≠ x) :
    Memory.read (Memory.write m x b) y = Memory.read m y := by
  induction m with
  | nil => simpa [Memory.write] using Memory.read_put_other b [] h
  | cons c m ih =>
    obtain ⟨a, v⟩ := c
    simp only [Memory.write]
    split
    · exact Memory.read_put_other b _ h
    · split
      · rename_i hx
        rw [Memory.read_put_other b _ h]
        simp [Memory.read, ← hx, Ne.symm h]
      · simp only [Memory.read, ih]

/-- Below the first address of a canonical memory every byte is unwritten. -/
theorem Memory.read_below {lo x : Nat} {m : Memory} (h : Memory.wfFrom lo m = true) (hx : x < lo) :
    Memory.read m x = Config.unwrittenByte := by
  induction m generalizing lo with
  | nil => rfl
  | cons c m ih =>
    obtain ⟨a, v⟩ := c
    simp only [Memory.wfFrom, Bool.and_eq_true, decide_eq_true_eq] at h
    obtain ⟨⟨⟨hlo, -⟩, -⟩, hm⟩ := h
    have hax : a ≠ x := by omega
    simp only [Memory.read, if_neg hax]
    exact ih hm (by omega)

theorem Memory.read_put_same {x : Nat} {b : Byte} {m : Memory} (h : Memory.read m x = Config.unwrittenByte) :
    Memory.read (Memory.put x b m) x = b := by
  unfold Memory.put
  split
  · rename_i hb
    rw [h, hb]
  · simp [Memory.read]

theorem Memory.wfFrom_mono {lo lo' : Nat} {m : Memory} (h : Memory.wfFrom lo m = true) (hl : lo' ≤ lo) :
    Memory.wfFrom lo' m = true := by
  cases m with
  | nil => rfl
  | cons c m =>
    obtain ⟨a, v⟩ := c
    simp only [Memory.wfFrom, Bool.and_eq_true, decide_eq_true_eq] at h ⊢
    obtain ⟨⟨⟨hlo, h2⟩, h3⟩, h4⟩ := h
    exact ⟨⟨⟨by omega, h2⟩, h3⟩, h4⟩

theorem Memory.read_write_same_from {lo : Nat} {m : Memory} (x : Nat) (b : Byte) (h : Memory.wfFrom lo m = true) :
    Memory.read (Memory.write m x b) x = b := by
  induction m generalizing lo with
  | nil => exact Memory.read_put_same rfl
  | cons c m ih =>
    obtain ⟨a, v⟩ := c
    have h' := h
    simp only [Memory.wfFrom, Bool.and_eq_true, decide_eq_true_eq] at h
    obtain ⟨⟨⟨hlo, ha⟩, hv⟩, hm⟩ := h
    simp only [Memory.write]
    split
    · rename_i hxa
      refine Memory.read_put_same ?_
      simp only [Memory.read, if_neg (show a ≠ x by omega)]
      exact Memory.read_below hm (by omega)
    · split
      · rename_i hx
        exact Memory.read_put_same (Memory.read_below hm (by omega))
      · rename_i h1 h2
        simp only [Memory.read, if_neg (show a ≠ x by omega)]
        exact ih hm

/-- A byte read at the address just written is the byte written. -/
theorem Memory.read_write_same {m : Memory} (x : Nat) (b : Byte) (h : m.wf = true) :
    Memory.read (Memory.write m x b) x = b := Memory.read_write_same_from x b h

theorem Memory.wfFrom_put {lo x : Nat} {b : Byte} {m : Memory} (hlo : lo ≤ x) (hx : x < 2 ^ 32)
    (h : Memory.wfFrom (x + 1) m = true) : Memory.wfFrom lo (Memory.put x b m) = true := by
  unfold Memory.put
  split
  · exact Memory.wfFrom_mono h (by omega)
  · rename_i hb
    simp only [Memory.wfFrom, Bool.and_eq_true, decide_eq_true_eq]
    exact ⟨⟨⟨hlo, hx⟩, hb⟩, h⟩

theorem Memory.wfFrom_write {lo x : Nat} {b : Byte} {m : Memory} (hlo : lo ≤ x) (hx : x < 2 ^ 32)
    (h : Memory.wfFrom lo m = true) : Memory.wfFrom lo (Memory.write m x b) = true := by
  induction m generalizing lo with
  | nil => exact Memory.wfFrom_put hlo hx rfl
  | cons c m ih =>
    obtain ⟨a, v⟩ := c
    have h' := h
    simp only [Memory.wfFrom, Bool.and_eq_true, decide_eq_true_eq] at h
    obtain ⟨⟨⟨hla, ha⟩, hv⟩, hm⟩ := h
    simp only [Memory.write]
    split
    · rename_i hxa
      refine Memory.wfFrom_put hlo hx ?_
      simp only [Memory.wfFrom, Bool.and_eq_true, decide_eq_true_eq]
      exact ⟨⟨⟨by omega, ha⟩, hv⟩, hm⟩
    · split
      · rename_i hxe
        subst hxe
        exact Memory.wfFrom_put hlo hx hm
      · rename_i h1 h2
        simp only [Memory.wfFrom, Bool.and_eq_true, decide_eq_true_eq]
        exact ⟨⟨⟨hla, ha⟩, hv⟩, ih (by omega) hm⟩

/-- A write keeps the canonical form. -/
theorem Memory.wf_write {m : Memory} (x : Nat) (b : Byte) (hx : x < 2 ^ 32) (h : m.wf = true) :
    (Memory.write m x b).wf = true := Memory.wfFrom_write (Nat.zero_le x) hx h

/-! ### Bytes by linear address -/

theorem address_succ (a : Dword) (k : Nat) : a + 1 + BitVec.ofNat 32 k = a + BitVec.ofNat 32 (k + 1) := by
  rw [Nat.add_comm k 1, BitVec.ofNat_add, BitVec.add_assoc]
  rfl

theorem State.physical_congr {s t : State} (h : t.translation = s.translation) (x : Dword) :
    t.physical x = s.physical x := by simp only [State.physical, h]

@[simp] theorem State.physical_setByte (s : State) (x : Dword) (b : Byte) (y : Dword) :
    (s.setByte x b).physical y = s.physical y := State.physical_congr rfl y

@[simp] theorem State.physical_storeBytes (s : State) (a : Dword) (bs : List Byte) (y : Dword) :
    (s.storeBytes a bs).physical y = s.physical y := State.physical_congr (by simp) y

theorem State.setByte_wf {s : State} (x : Dword) (b : Byte) (h : s.mem.wf = true) : (s.setByte x b).mem.wf = true :=
  Memory.wf_write _ b (s.physical x).isLt h

/-- A store of several bytes keeps the canonical form. -/
theorem State.storeBytes_wf {s : State} (a : Dword) (bs : List Byte) (h : s.mem.wf = true) :
    (s.storeBytes a bs).mem.wf = true := by
  induction bs generalizing s a with
  | nil => exact h
  | cons b bs ih => exact ih _ (State.setByte_wf a b h)

/-- A store of several bytes leaves every memory address alone that is none of theirs. -/
theorem State.read_storeBytes_other (s : State) (a : Dword) (bs : List Byte) (x : Nat)
    (h : ∀ k < bs.length, x ≠ (s.physical (a + BitVec.ofNat 32 k)).toNat) :
    (s.storeBytes a bs).mem.read x = s.mem.read x := by
  induction bs generalizing s a with
  | nil => rfl
  | cons b bs ih =>
    have h0 : x ≠ (s.physical a).toNat := by simpa using h 0 (by simp)
    have hstep : ∀ k < bs.length, x ≠ ((s.setByte a b).physical (a + 1 + BitVec.ofNat 32 k)).toNat := by
      intro k hk
      have hk1 := h (k + 1) (by simpa using hk)
      rw [State.physical_setByte]
      rwa [address_succ]
    rw [State.storeBytes, ih (s.setByte a b) (a + 1) hstep]
    exact Memory.read_write_other s.mem _ _ b h0

/-- After a store of several bytes to memory addresses that are all different, each byte is where it was stored. -/
theorem State.byteAt_storeBytes (s : State) (a : Dword) (bs : List Byte) (hwf : s.mem.wf = true)
    (hd : ∀ j < bs.length, ∀ k < bs.length,
      s.physical (a + BitVec.ofNat 32 j) = s.physical (a + BitVec.ofNat 32 k) → j = k)
    (k : Nat) (hk : k < bs.length) : (s.storeBytes a bs).byteAt (a + BitVec.ofNat 32 k) = bs[k] := by
  induction bs generalizing s a k with
  | nil => simp at hk
  | cons b bs ih =>
    rw [State.storeBytes]
    cases k with
    | zero =>
      have hother : ∀ k < bs.length,
          (s.physical a).toNat ≠ ((s.setByte a b).physical (a + 1 + BitVec.ofNat 32 k)).toNat := by
        intro k hk h
        rw [State.physical_setByte, address_succ] at h
        have := hd 0 (by simp) (k + 1) (by simpa using hk) (by simpa using BitVec.eq_of_toNat_eq h)
        omega
      have hz : a + BitVec.ofNat 32 0 = a := by simp
      rw [hz]
      unfold State.byteAt
      rw [State.physical_storeBytes, State.physical_setByte,
        State.read_storeBytes_other (s.setByte a b) (a + 1) bs _ hother]
      exact Memory.read_write_same _ _ hwf
    | succ k =>
      rw [← address_succ]
      have hk' : k < bs.length := by simpa using hk
      refine ih (s.setByte a b) (a + 1) (State.setByte_wf a b hwf) ?_ k hk'
      intro i hi j hj h
      rw [State.physical_setByte, State.physical_setByte, address_succ, address_succ] at h
      have := hd (i + 1) (by simpa using hi) (j + 1) (by simpa using hj) h
      omega

end Sys2Proof.Machine
end

