-- ==== Sys2Proof/Laws/Ops.lean ====
section
/-!
SUPPORT. For each shared operation one lemma that says once what it can answer.
-/

namespace Sys2Proof.Machine

/-! ### Entry checks -/

theorem State.entryFault_eq_none (s : State) : s.entryFault = none ↔ s.entryClear := by
  unfold State.entryFault State.entryClear
  cases s.cr0Em <;> cases s.cr0Ts <;> cases s.fpPending <;> simp

/-- Where the entry checks raise nothing, the body runs. -/
theorem checked_clear {s : State} (body : Host.Outcome State Fault Refusal) (h : s.entryClear) :
    checked s body = body := by
  simp only [checked, (State.entryFault_eq_none s).2 h]

/-- Where an entry check raises, the body does not run. -/
theorem checked_raises {s : State} {f : Fault} (body : Host.Outcome State Fault Refusal)
    (h : s.entryFault = some f) : checked s body = .fault f := by
  simp only [checked, h, raise]

theorem checked_next {s t : State} {body : Host.Outcome State Fault Refusal} (h : checked s body = .next t) :
    s.entryClear ∧ body = .next t := by
  unfold checked raise at h
  split at h
  · cases h
  · rename_i hf
    exact ⟨(State.entryFault_eq_none s).1 hf, h⟩

theorem checked_fault {s : State} {f : Fault} {body : Host.Outcome State Fault Refusal}
    (h : checked s body = .fault f) : s.entryFault = some f ∨ (s.entryClear ∧ body = .fault f) := by
  unfold checked raise at h
  split at h
  · rename_i g hg
    cases h
    exact .inl hg
  · rename_i hf
    exact .inr ⟨(State.entryFault_eq_none s).1 hf, h⟩

/-! ### AccessCheck -/

theorem State.accessCheck_ok_iff (s : State) (seg : SegReg) (ea : Dword) (n : Nat) (kind : AccessKind) (a : Dword) :
    s.accessCheck seg ea n kind = .ok a ↔ s.accessFaults seg ea n kind = [] ∧ a = s.linear seg ea := by
  unfold State.accessCheck
  split
  · rename_i h
    simp [h, eq_comm]
  · rename_i f h
    simp [h]
  · rename_i f g rest h
    simp [h]

/-- AccessCheck answers a fault whose condition holds. -/
theorem State.accessCheck_error_mem {s : State} {seg : SegReg} {ea : Dword} {n : Nat} {kind : AccessKind} {f : Fault}
    (h : s.accessCheck seg ea n kind = .error f) : f ∈ s.accessFaults seg ea n kind := by
  unfold State.accessCheck at h
  split at h
  · cases h
  · rename_i g hg
    cases h
    simp [hg]
  · rename_i g g' rest hg
    cases h
    rw [hg]
    unfold State.chooseFault
    rw [List.getD_eq_getElem?_getD, List.getElem?_eq_getElem (by
      simp only [List.length_cons]
      exact Nat.mod_lt _ (by omega))]
    exact List.getElem_mem _

/-- Where exactly one fault condition holds, AccessCheck answers it. -/
theorem State.accessCheck_single {s : State} {seg : SegReg} {ea : Dword} {n : Nat} {kind : AccessKind} {f : Fault}
    (h : s.accessFaults seg ea n kind = [f]) : s.accessCheck seg ea n kind = .error f := by
  simp only [State.accessCheck, h]

/-- AccessCheck depends on the mode, the privilege level, ACEnable, the segments and the page rules only. -/
theorem State.accessCheck_congr {s t : State} (hm : t.mode = s.mode) (hc : t.cpl = s.cpl)
    (ha : t.acEnable = s.acEnable) (hs : t.segs = s.segs) (hp : t.pageRules = s.pageRules) (seg : SegReg) (ea : Dword)
    (n : Nat) (kind : AccessKind) : t.accessCheck seg ea n kind = s.accessCheck seg ea n kind := by
  cases s
  cases t
  subst hm hc ha hs hp
  rfl

theorem State.pageFaults_eq_nil (s : State) (a : Dword) (n : Nat) (kind : AccessKind) :
    s.pageFaults a n kind = [] ↔ s.pagesPresent a n kind := by
  simp [State.pageFaults, State.pagesPresent]

theorem State.alignment_fault_iff (s : State) (a : Dword) (n : Nat) :
    (s.alignmentChecked && misaligned a n) = true ↔ s.checksAlignment ∧ a.toNat % n ≠ 0 := by
  simp [State.alignmentChecked, misaligned]

theorem State.illegalOffset_eq_false (s : State) (seg : SegReg) (ea : Dword) (n : Nat) (kind : AccessKind) :
    s.illegalOffset seg ea n kind = false ↔ (s.segment seg).usable = true ∧ (s.segment seg).first.toNat ≤ ea.toNat
      ∧ ea.toNat + n - 1 ≤ (s.segment seg).last.toNat ∧ (kind = .read → (s.segment seg).readable = true) := by
  cases kind <;> simp [State.illegalOffset, and_assoc]

theorem State.nonwritable_eq_false (s : State) (seg : SegReg) (kind : AccessKind) :
    s.nonwritable seg kind = false ↔ (kind = .write → (s.segment seg).writable = true) := by
  cases kind <;> simp [State.nonwritable]

/-- In protected mode no segment fault exactly when the segment admits the access. -/
theorem State.segmentFaults_protected {s : State} (hmode : s.mode = .protectedMode) (seg : SegReg) (ea : Dword)
    (n : Nat) (kind : AccessKind) : s.segmentFaults seg ea n kind = [] ↔ (s.segment seg).admits ea n kind := by
  have hb := State.illegalOffset_eq_false s seg ea n kind
  have hw := State.nonwritable_eq_false s seg kind
  have key : s.segmentFaults seg ea n kind = []
      ↔ s.illegalOffset seg ea n kind = false ∧ s.nonwritable seg kind = false := by
    simp only [State.segmentFaults, hmode]
    cases s.illegalOffset seg ea n kind <;> cases s.nonwritable seg kind <;> cases seg <;> simp
  rw [key, hb, hw]
  simp only [Segment.admits, and_assoc]

/-- No fault condition holds exactly when the access is legal. -/
theorem State.accessFaults_eq_nil (s : State) (seg : SegReg) (ea : Dword) (n : Nat) (kind : AccessKind) :
    s.accessFaults seg ea n kind = [] ↔ s.accessLegal seg ea n kind := by
  have halign : (if s.alignmentChecked && misaligned (s.linear seg ea) n then [Fault.alignmentCheck] else []) = []
      ↔ (s.checksAlignment → (s.linear seg ea).toNat % n = 0) := by
    have h := State.alignment_fault_iff s (s.linear seg ea) n
    constructor
    · intro he hc
      by_contra hne
      rw [if_pos (h.2 ⟨hc, hne⟩)] at he
      cases he
    · intro hi
      rw [if_neg]
      intro hb
      exact (h.1 hb).2 (hi (h.1 hb).1)
  have hpage := State.pageFaults_eq_nil s (s.linear seg ea) n kind
  unfold State.accessFaults State.accessLegal
  rw [List.append_eq_nil_iff, List.append_eq_nil_iff, halign]
  cases hmode : s.mode with
  | protectedMode =>
    rw [State.segmentFaults_protected hmode]
    simp [hpage, and_assoc]
  | realAddress => simp [State.segmentFaults, hmode, outsideLimit]
  | virtual8086 => simp [State.segmentFaults, hmode, hpage, outsideLimit, and_assoc]

/-- A legal access gets the linear address. -/
theorem State.accessCheck_legal {s : State} {seg : SegReg} {ea : Dword} {n : Nat} {kind : AccessKind}
    (h : s.accessLegal seg ea n kind) : s.accessCheck seg ea n kind = .ok (s.linear seg ea) :=
  (State.accessCheck_ok_iff s seg ea n kind _).2 ⟨(State.accessFaults_eq_nil s seg ea n kind).2 h, rfl⟩

/-! ### Source operands -/

theorem State.source64_readable {s : State} {src : Rm Mm} (h : s.readable src 8) :
    s.source64 src = .ok (s.value64 src) := by
  cases src with
  | reg r => rfl
  | mem m => simp only [State.source64, State.memRead64, State.accessCheck_legal (h m rfl)]; rfl

theorem State.source32_readable {s : State} {src : Rm Mm} (h : s.readable src 4) :
    s.source32 src = .ok (s.value32 src) := by
  cases src with
  | reg r =>
    simp only [State.source32, State.value32]
    rw [BitVec.setWidth_eq_extractLsb' (by omega)]
  | mem m => simp only [State.source32, State.memRead32, State.accessCheck_legal (h m rfl)]; rfl

theorem State.sourceGpr_readable {s : State} {src : Rm Gpr} (h : s.readable src 4) :
    s.sourceGpr src = .ok (s.valueGpr src) := by
  cases src with
  | reg r => rfl
  | mem m => simp only [State.sourceGpr, State.memRead32, State.accessCheck_legal (h m rfl)]; rfl

/-- A source operand that raises is in memory, and raises what AccessCheck answers. -/
theorem State.source64_error {s : State} {src : Rm Mm} {f : Fault} (h : s.source64 src = .error f) :
    ∃ m, src = .mem m ∧ s.accessCheck (operandSegment m) (s.effectiveAddress m.addr) 8 .read = .error f := by
  cases src with
  | reg r => cases h
  | mem m =>
    refine ⟨m, rfl, ?_⟩
    simp only [State.source64, State.memRead64] at h
    split at h
    · rename_i hc
      cases h
      exact hc
    · cases h

theorem State.source32_error {s : State} {src : Rm Mm} {f : Fault} (h : s.source32 src = .error f) :
    ∃ m, src = .mem m ∧ s.accessCheck (operandSegment m) (s.effectiveAddress m.addr) 4 .read = .error f := by
  cases src with
  | reg r => cases h
  | mem m =>
    refine ⟨m, rfl, ?_⟩
    simp only [State.source32, State.memRead32] at h
    split at h
    · rename_i hc
      cases h
      exact hc
    · cases h

theorem State.sourceGpr_error {s : State} {src : Rm Gpr} {f : Fault} (h : s.sourceGpr src = .error f) :
    ∃ m, src = .mem m ∧ s.accessCheck (operandSegment m) (s.effectiveAddress m.addr) 4 .read = .error f := by
  cases src with
  | reg r => cases h
  | mem m =>
    refine ⟨m, rfl, ?_⟩
    simp only [State.sourceGpr, State.memRead32] at h
    split at h
    · rename_i hc
      cases h
      exact hc
    · cases h

/-! ### The instruction shapes -/

/-- A form `mm, mm/m64` that executes. -/
theorem packed64_readable {f : Qword → Qword → Qword} {d : Mm} {src : Rm Mm} {s : State} (hc : s.entryClear)
    (hr : s.readable src 8) :
    packed64 f d src s = .next (s.afterMm d (f (s.readMm d) (s.value64 src)) src.length) := by
  rw [packed64, checked_clear _ hc, State.source64_readable hr]
  rfl

theorem packed32_readable {f : Qword → Dword → Qword} {d : Mm} {src : Rm Mm} {s : State} (hc : s.entryClear)
    (hr : s.readable src 4) :
    packed32 f d src s = .next (s.afterMm d (f (s.readMm d) (s.value32 src)) src.length) := by
  rw [packed32, checked_clear _ hc, State.source32_readable hr]
  rfl

theorem shiftByImm_clear {f : Nat → Qword → Qword} {d : Mm} {imm : Byte} {s : State} (hc : s.entryClear) :
    shiftByImm f d imm s = .next (s.afterMm d (f imm.toNat (s.readMm d)) 4) := by
  rw [shiftByImm, checked_clear _ hc]
  rfl

/-- A form `mm, mm/m64` that answers a next state wrote its register and completed. -/
theorem packed64_next {f : Qword → Qword → Qword} {d : Mm} {src : Rm Mm} {s t : State}
    (h : packed64 f d src s = .next t) : s.entryClear ∧ ∃ r, t = s.afterMm d r src.length := by
  obtain ⟨hc, hb⟩ := checked_next h
  refine ⟨hc, ?_⟩
  split at hb
  · cases hb
  · cases hb
    exact ⟨_, rfl⟩

theorem packed32_next {f : Qword → Dword → Qword} {d : Mm} {src : Rm Mm} {s t : State}
    (h : packed32 f d src s = .next t) : s.entryClear ∧ ∃ r, t = s.afterMm d r src.length := by
  obtain ⟨hc, hb⟩ := checked_next h
  refine ⟨hc, ?_⟩
  split at hb
  · cases hb
  · cases hb
    exact ⟨_, rfl⟩

theorem shiftByImm_next {f : Nat → Qword → Qword} {d : Mm} {imm : Byte} {s t : State}
    (h : shiftByImm f d imm s = .next t) : s.entryClear ∧ ∃ r, t = s.afterMm d r formatRILength := by
  obtain ⟨hc, hb⟩ := checked_next h
  cases hb
  exact ⟨hc, _, rfl⟩

/-- MemWrite stores every byte at a legal address outside the program, or none. -/
theorem State.memWrite_next {s t : State} {seg : SegReg} {ea : Dword} {bytes : List Byte}
    (h : s.memWrite seg ea bytes = .next t) :
    s.accessCheck seg ea bytes.length .write = .ok (s.linear seg ea)
      ∧ s.storeHitsProgram (s.linear seg ea) bytes.length = false ∧ t = s.storeBytes (s.linear seg ea) bytes := by
  unfold State.memWrite raise at h
  split at h
  · cases h
  · rename_i a ha
    obtain ⟨hn, rfl⟩ := (State.accessCheck_ok_iff s seg ea _ _ a).1 ha
    split at h
    · cases h
    · rename_i hp
      cases h
      exact ⟨ha, by simpa using hp, rfl⟩

theorem State.memWrite_legal {s : State} {seg : SegReg} {ea : Dword} {bytes : List Byte}
    (h : s.accessLegal seg ea bytes.length .write) (hp : s.storeHitsProgram (s.linear seg ea) bytes.length = false) :
    s.memWrite seg ea bytes = .next (s.storeBytes (s.linear seg ea) bytes) := by
  simp [State.memWrite, State.accessCheck_legal h, hp]

theorem storeToMemory_next {m : MemOperand} {bytes : List Byte} {len : Nat} {s t : State}
    (h : storeToMemory m bytes len s = .next t) :
    s.storeHitsProgram (s.operandAddress m) bytes.length = false
      ∧ t = (s.storeBytes (s.operandAddress m) bytes).complete len := by
  unfold storeToMemory at h
  split at h
  · rename_i s' hs
    obtain ⟨-, hp, rfl⟩ := State.memWrite_next hs
    cases h
    exact ⟨hp, rfl⟩
  · cases h
  · cases h

/-! ### Every instruction -/

/-- What runs an instruction, with what the rules say of its form: the seven shapes of a meaning. -/
inductive ExecShape (i : Instr) : Prop where
  | emms (hi : i = .emms)
  | packed64 (f : Qword → Qword → Qword) (d : Mm) (src : Rm Mm) (hi : i ≠ .emms)
      (hx : ∀ s, exec i s = Sys2Proof.Machine.packed64 f d src s) (hl : i.length = src.length)
      (hm : i.memOperand? = src.mem?) (ha : i.access = some (8, .read)) (hd : i.destMm = some d)
  | packed32 (f : Qword → Dword → Qword) (d : Mm) (src : Rm Mm) (hi : i ≠ .emms)
      (hx : ∀ s, exec i s = Sys2Proof.Machine.packed32 f d src s) (hl : i.length = src.length)
      (hm : i.memOperand? = src.mem?) (ha : i.access = some (4, .read)) (hd : i.destMm = some d)
  | imm (f : Nat → Qword → Qword) (d : Mm) (imm : Byte) (hi : i ≠ .emms)
      (hx : ∀ s, exec i s = shiftByImm f d imm s) (hl : i.length = formatRILength) (hm : i.memOperand? = none)
      (ha : i.access = none) (hd : i.destMm = some d)
  | movdLoad (d : Mm) (src : Rm Gpr) (hi : i = .movdLoad d src)
  | movdStore (dst : Rm Gpr) (src : Mm) (hi : i = .movdStore dst src)
  | movqStore (dst : Rm Mm) (src : Mm) (hi : i = .movqStore dst src)

/-- Every instruction has one of the seven shapes: later proofs split on them, not on the 57 forms. -/
theorem exec_shape (i : Instr) : ExecShape i := by
  cases i
  case emms => exact .emms rfl
  case movdLoad d src => exact .movdLoad d src rfl
  case movdStore dst src => exact .movdStore dst src rfl
  case movqStore dst src => exact .movqStore dst src rfl
  case movqLoad d src => exact .packed64 (fun _ v => v) d src (by simp) (fun _ => rfl) rfl rfl rfl rfl
  case pand d src => exact .packed64 (fun a b => a &&& b) d src (by simp) (fun _ => rfl) rfl rfl rfl rfl
  case pandn d src => exact .packed64 (fun a b => ~~~a &&& b) d src (by simp) (fun _ => rfl) rfl rfl rfl rfl
  case por d src => exact .packed64 (fun a b => a ||| b) d src (by simp) (fun _ => rfl) rfl rfl rfl rfl
  case pxor d src => exact .packed64 (fun a b => a ^^^ b) d src (by simp) (fun _ => rfl) rfl rfl rfl rfl
  case psllw d src =>
    exact .packed64 (fun a c => map16 (shiftLeft c.toNat) a) d src (by simp) (fun _ => rfl) rfl rfl rfl rfl
  case pslld d src =>
    exact .packed64 (fun a c => map32 (shiftLeft c.toNat) a) d src (by simp) (fun _ => rfl) rfl rfl rfl rfl
  case psllq d src => exact .packed64 (fun a c => shiftLeft c.toNat a) d src (by simp) (fun _ => rfl) rfl rfl rfl rfl
  case psrlw d src =>
    exact .packed64 (fun a c => map16 (shiftRight c.toNat) a) d src (by simp) (fun _ => rfl) rfl rfl rfl rfl
  case psrld d src =>
    exact .packed64 (fun a c => map32 (shiftRight c.toNat) a) d src (by simp) (fun _ => rfl) rfl rfl rfl rfl
  case psrlq d src => exact .packed64 (fun a c => shiftRight c.toNat a) d src (by simp) (fun _ => rfl) rfl rfl rfl rfl
  case psraw d src =>
    exact .packed64 (fun a c => map16 (shiftRightSigned c.toNat) a) d src (by simp) (fun _ => rfl) rfl rfl rfl rfl
  case psrad d src =>
    exact .packed64 (fun a c => map32 (shiftRightSigned c.toNat) a) d src (by simp) (fun _ => rfl) rfl rfl rfl rfl
  case psllwImm d imm =>
    exact .imm (fun c => map16 (shiftLeft c)) d imm (by simp) (fun _ => rfl) rfl rfl rfl rfl
  case pslldImm d imm =>
    exact .imm (fun c => map32 (shiftLeft c)) d imm (by simp) (fun _ => rfl) rfl rfl rfl rfl
  case psllqImm d imm => exact .imm (fun c => shiftLeft c) d imm (by simp) (fun _ => rfl) rfl rfl rfl rfl
  case psrlwImm d imm =>
    exact .imm (fun c => map16 (shiftRight c)) d imm (by simp) (fun _ => rfl) rfl rfl rfl rfl
  case psrldImm d imm =>
    exact .imm (fun c => map32 (shiftRight c)) d imm (by simp) (fun _ => rfl) rfl rfl rfl rfl
  case psrlqImm d imm => exact .imm (fun c => shiftRight c) d imm (by simp) (fun _ => rfl) rfl rfl rfl rfl
  case psrawImm d imm =>
    exact .imm (fun c => map16 (shiftRightSigned c)) d imm (by simp) (fun _ => rfl) rfl rfl rfl rfl
  case psradImm d imm =>
    exact .imm (fun c => map32 (shiftRightSigned c)) d imm (by simp) (fun _ => rfl) rfl rfl rfl rfl
  all_goals first
    | exact .packed64 _ _ _ (by simp) (fun _ => rfl) rfl rfl rfl rfl
    | exact .packed32 _ _ _ (by simp) (fun _ => rfl) rfl rfl rfl rfl

/-- What an instruction that answers a next state has done. -/
inductive Effect (i : Instr) (s : State) : State → Prop where
  | emms (hi : i = .emms) : Effect i s ((s.setTags tagsEmpty).advance i.length)
  | mm (hi : i ≠ .emms) (d : Mm) (r : Qword) (hd : i.destMm = some d) : Effect i s (s.afterMm d r i.length)
  | gpr (d : Gpr) (src : Mm) (v : Dword) (hi : i = .movdStore (.reg d) src) :
      Effect i s ((s.writeGpr d v).complete i.length)
  | store (hi : i ≠ .emms) (m : MemOperand) (bytes : List Byte) (hm : i.memOperand? = some m)
      (ha : i.access = some (bytes.length, .write)) (hd : i.destMm = none)
      (hp : s.storeHitsProgram (s.operandAddress m) bytes.length = false) :
      Effect i s ((s.storeBytes (s.operandAddress m) bytes).complete i.length)

theorem execMovdLoad_next {d : Mm} {src : Rm Gpr} {s t : State} (h : exec (.movdLoad d src) s = .next t) :
    s.entryClear ∧ Effect (.movdLoad d src) s t := by
  obtain ⟨hc, hb⟩ := checked_next h
  refine ⟨hc, ?_⟩
  split at hb
  · cases hb
  · cases hb
    exact .mm (by simp) d _ rfl

theorem execMovdStore_next {dst : Rm Gpr} {src : Mm} {s t : State} (h : exec (.movdStore dst src) s = .next t) :
    s.entryClear ∧ Effect (.movdStore dst src) s t := by
  obtain ⟨hc, hb⟩ := checked_next h
  refine ⟨hc, ?_⟩
  cases dst with
  | reg r =>
    cases hb
    exact .gpr r src _ rfl
  | mem m =>
    obtain ⟨hp, rfl⟩ := storeToMemory_next hb
    exact .store (by simp) m _ rfl rfl rfl hp

theorem execMovqStore_next {dst : Rm Mm} {src : Mm} {s t : State} (h : exec (.movqStore dst src) s = .next t) :
    s.entryClear ∧ Effect (.movqStore dst src) s t := by
  obtain ⟨hc, hb⟩ := checked_next h
  refine ⟨hc, ?_⟩
  cases dst with
  | reg r =>
    cases hb
    exact .mm (by simp) r _ rfl
  | mem m =>
    obtain ⟨hp, rfl⟩ := storeToMemory_next hb
    exact .store (by simp) m _ rfl rfl rfl hp

theorem execEmms_next {s t : State} (h : exec .emms s = .next t) : s.entryClear ∧ Effect .emms s t := by
  obtain ⟨hc, hb⟩ := checked_next h
  cases hb
  exact ⟨hc, .emms rfl⟩

/-- SAY ONCE WHAT AN INSTRUCTION CAN DO: if it answers a next state, the entry checks raised nothing and its effect is
one of the four. -/
theorem exec_next {i : Instr} {s t : State} (h : exec i s = .next t) : s.entryClear ∧ Effect i s t := by
  cases exec_shape i with
  | emms hi =>
    subst hi
    exact execEmms_next h
  | packed64 f d src hi hx hl hm ha hd =>
    rw [hx] at h
    obtain ⟨hc, r, rfl⟩ := packed64_next h
    exact ⟨hc, hl ▸ .mm hi d r hd⟩
  | packed32 f d src hi hx hl hm ha hd =>
    rw [hx] at h
    obtain ⟨hc, r, rfl⟩ := packed32_next h
    exact ⟨hc, hl ▸ .mm hi d r hd⟩
  | imm f d imm hi hx hl hm ha hd =>
    rw [hx] at h
    obtain ⟨hc, r, rfl⟩ := shiftByImm_next h
    exact ⟨hc, hl ▸ .mm hi d r hd⟩
  | movdLoad d src hi =>
    subst hi
    exact execMovdLoad_next h
  | movdStore dst src hi =>
    subst hi
    exact execMovdStore_next h
  | movqStore dst src hi =>
    subst hi
    exact execMovqStore_next h

/-- A step that answers a next state ran the instruction it fetched. -/
theorem step_next {s t : State} (h : step s = .next t) : ∃ i, s.fetch = .ok i ∧ exec i s = .next t := by
  unfold step at h
  split at h
  · cases h
  · rename_i i hi
    exact ⟨i, hi, h⟩

/-- The fetch's check of the program's place is `programFetchable`. -/
theorem State.programFetchable_iff (s : State) :
    (s.programInCodeSegment && s.programPagesPresent) = true ↔ s.programFetchable := by
  have hp : s.programPagesPresent = true ↔
      (s.mode ≠ .realAddress → s.pagesPresent (s.codeLinear s.program.first) s.program.length .read) := by
    rw [← State.pageFaults_eq_nil, State.programPagesPresent, Bool.or_eq_true, beq_iff_eq, List.isEmpty_iff]
    exact Decidable.or_iff_not_imp_left
  rw [Bool.and_eq_true, hp]
  simp only [State.programInCodeSegment, State.programFetchable, Bool.and_eq_true, decide_eq_true_eq, and_assoc]

/-- Inside a fetchable program the fetch is the decoding of the bytes at EIP. -/
theorem State.fetch_inside {s : State} (hin : s.eipInProgram = true) (hf : s.programFetchable) :
    s.fetch = match decode s.addrSize s.fetchBytes with
      | .ok (i, _) => .ok i
      | .error .truncated => .error .fetchOutsideProgram
      | .error e => .error (.undecodable e) := by
  have he : s.atProgramEnd = false := by
    simp only [State.eipInProgram, State.atProgramEnd, Bool.and_eq_true, decide_eq_true_eq, decide_eq_false_iff_not] at *
    omega
  simp only [State.fetch, he, hin, (State.programFetchable_iff s).2 hf]
  rfl

/-- What a fetch that answers an instruction read. -/
theorem State.fetch_ok {s : State} {i : Instr} (h : s.fetch = .ok i) :
    s.atProgramEnd = false ∧ s.eipInProgram = true ∧ s.programFetchable
      ∧ ∃ rest, decode s.addrSize s.fetchBytes = .ok (i, rest) := by
  unfold State.fetch at h
  split at h
  · cases h
  rename_i hd
  split at h
  · cases h
  rename_i hin
  split at h
  · cases h
  rename_i hf
  split at h
  · rename_i j rest hj
    cases h
    exact ⟨by simpa using hd, by simpa using hin, (State.programFetchable_iff s).1 (by simpa using hf), rest, hj⟩
  · cases h
  · cases h

end Sys2Proof.Machine
end

