-- ==== Sys2Proof/Tests/Slice0.lean ====
section
/-!
SUPPORT. The model's own tests: each well-formedness check refuses an ill-formed term; every row of the opcode map decodes
to its constructor; one step per instruction against the vectors of spec/95_test_vectors.md (the id stands in each
docstring); the exceptions; and for each obligation with hypotheses a concrete state and operands that meet them.
-/

namespace Sys2Proof.Machine

/-- EBX as the address of an operand. -/
def State.withEbx (s : State) (a : Dword) : State := s.writeGpr .ebx a

end Sys2Proof.Machine

namespace Sys2Proof.Tests

-- One theorem at a time: elaborated at once, a hundred theorems take a hundred thread stacks.
set_option Elab.async false

open Sys2Proof Sys2Proof.Machine

/-! ### Small states -/

/-- A segment over the whole offset space with every right (spec/95_test_vectors.md section 0). -/
def flatSegment : Segment :=
  { base := 0, first := 0, last := 0xFFFFFFFF, usable := true, readable := true, writable := true }

/-- The launch state of spec/95_test_vectors.md section 0: protected mode, CPL 0, flat segments, TW = FFFFh,
EIP = 00001000h. -/
def flat : State :=
  { State.reset with
    tw := 0xFFFF, eip := 0x1000, mode := .protectedMode, addrSize := .a32,
    segs := { cs := flatSegment, ds := flatSegment, es := flatSegment, fs := flatSegment, gs := flatSegment,
              ss := flatSegment } }

/-- The same in the two modes with 16-bit addresses. -/
def real : State := { flat with mode := .realAddress, addrSize := .a16 }
def v86 : State := { flat with mode := .virtual8086, addrSize := .a16 }

/-- `[EBX]` and `[BX]`. -/
def atEbx : MemOperand := ⟨.none, .a32 (.reg .ebx)⟩
def atBx : MemOperand := ⟨.none, .a16 (.base .bx)⟩

def nextOf : Host.Outcome State Fault Refusal → Option State
  | .next t => some t
  | .fault _ => none
  | .refused _ => none

def faultOf : Host.Outcome State Fault Refusal → Option Fault
  | .next _ => none
  | .fault f => some f
  | .refused _ => none

def refusalOf : Host.Outcome State Fault Refusal → Option Refusal
  | .next _ => none
  | .fault _ => none
  | .refused r => some r

def errorOf {α : Type} : Except Fault α → Option Fault
  | .ok _ => none
  | .error f => some f

theorem nextOf_some {o : Host.Outcome State Fault Refusal} {t : State} (h : nextOf o = some t) : o = .next t := by
  cases o <;> simp_all [nextOf]

theorem exists_next {o : Host.Outcome State Fault Refusal} (h : (nextOf o).isSome = true) : ∃ t, o = .next t := by
  cases o <;> simp_all [nextOf]

theorem faultOf_some {o : Host.Outcome State Fault Refusal} {f : Fault} (h : faultOf o = some f) : o = .fault f := by
  cases o <;> simp_all [faultOf]

theorem refusalOf_some {o : Host.Outcome State Fault Refusal} {r : Refusal} (h : refusalOf o = some r) :
    o = .refused r := by
  cases o <;> simp_all [refusalOf]

theorem errorOf_some {α : Type} {x : Except Fault α} {f : Fault} (h : errorOf x = some f) : x = .error f := by
  cases x <;> simp_all [errorOf]

/-- MM0 after one step on `bytes` at EIP with these values in MM0 and MM1, where the step completed with TW = 0000h and EIP
past the bytes. -/
def mm0After (bytes : List Byte) (mm0 mm1 : Qword) : Option Qword :=
  (nextOf (step (((flat.writeMm .mm0 mm0).writeMm .mm1 mm1).loadProgram bytes))).bind fun t =>
    if t.tw = 0x0000 ∧ t.eip = 0x1000 + BitVec.ofNat 32 bytes.length then some (t.readMm .mm0) else none

/-! ### WellFormed -/

theorem test_wf_refuses_bp_without_displacement : Addr16.wf (.base .bp) = false := by decide
theorem test_wf_refuses_esp_as_plain_base : Addr32.wf (.reg .esp) = false := by decide
theorem test_wf_refuses_ebp_without_displacement : Addr32.wf (.reg .ebp) = false := by decide
theorem test_wf_refuses_esp_disp8_without_sib : Addr32.wf (.regDisp8 .esp 8) = false := by decide
theorem test_wf_refuses_esp_disp32_without_sib : Addr32.wf (.regDisp32 .esp 8) = false := by decide
theorem test_wf_refuses_sib_base_ebp_without_displacement : Addr32.wf (.sib ⟨0, none⟩ .ebp) = false := by decide
theorem test_wf_refuses_esp_as_index : Addr32.wf (.sib ⟨0, some .esp⟩ .eax) = false
    ∧ Addr32.wf (.sibNoBase ⟨1, some .esp⟩ 0) = false ∧ Addr32.wf (.sibDisp8 ⟨2, some .esp⟩ .eax 0) = false
    ∧ Addr32.wf (.sibDisp32 ⟨3, some .esp⟩ .eax 0) = false := by decide
theorem test_wf_refuses_address_of_the_other_size :
    Instr.wf .a16 (.paddb .mm0 (.mem atEbx)) = false ∧ Instr.wf .a32 (.paddb .mm0 (.mem atBx)) = false
    ∧ Instr.wf .a32 (.paddb .mm0 (.mem ⟨.addr, .a32 (.reg .ebx)⟩)) = false := by decide
theorem test_wf_accepts_the_selected_size :
    Instr.wf .a32 (.paddb .mm0 (.mem atEbx)) = true ∧ Instr.wf .a16 (.paddb .mm0 (.mem ⟨.addr, .a32 (.reg .ebx)⟩)) = true := by
  decide

/-! ### Decoding: the word of every row of the opcode map (R115), bit by bit, with reg = 010 and rm = 011 -/

def decoded (bytes : List Byte) : Option Instr :=
  match decode .a32 bytes with
  | .ok (i, []) => some i
  | _ => none

theorem test_decode_emms : List.map decoded
    [[0b00001111, 0b01110111]]
    = [some .emms] := by decide

theorem test_decode_data_transfer : List.map decoded
    [[0b00001111, 0b01101110, 0b11010011],
     [0b00001111, 0b01111110, 0b11010011],
     [0b00001111, 0b01101111, 0b11010011],
     [0b00001111, 0b01111111, 0b11010011]]
    = [some (.movdLoad .mm2 (.reg .ebx)),
       some (.movdStore (.reg .ebx) .mm2),
       some (.movqLoad .mm2 (.reg .mm3)),
       some (.movqStore (.reg .mm3) .mm2)] := by decide

theorem test_decode_conversion : List.map decoded
    [[0b00001111, 0b01100011, 0b11010011],
     [0b00001111, 0b01101011, 0b11010011],
     [0b00001111, 0b01100111, 0b11010011],
     [0b00001111, 0b01101000, 0b11010011],
     [0b00001111, 0b01101001, 0b11010011],
     [0b00001111, 0b01101010, 0b11010011],
     [0b00001111, 0b01100000, 0b11010011],
     [0b00001111, 0b01100001, 0b11010011],
     [0b00001111, 0b01100010, 0b11010011]]
    = [some (.packsswb .mm2 (.reg .mm3)),
       some (.packssdw .mm2 (.reg .mm3)),
       some (.packuswb .mm2 (.reg .mm3)),
       some (.punpckhbw .mm2 (.reg .mm3)),
       some (.punpckhwd .mm2 (.reg .mm3)),
       some (.punpckhdq .mm2 (.reg .mm3)),
       some (.punpcklbw .mm2 (.reg .mm3)),
       some (.punpcklwd .mm2 (.reg .mm3)),
       some (.punpckldq .mm2 (.reg .mm3))] := by decide

theorem test_decode_arithmetic : List.map decoded
    [[0b00001111, 0b11111100, 0b11010011],
     [0b00001111, 0b11111101, 0b11010011],
     [0b00001111, 0b11111110, 0b11010011],
     [0b00001111, 0b11101100, 0b11010011],
     [0b00001111, 0b11101101, 0b11010011],
     [0b00001111, 0b11011100, 0b11010011],
     [0b00001111, 0b11011101, 0b11010011],
     [0b00001111, 0b11110101, 0b11010011],
     [0b00001111, 0b11100101, 0b11010011],
     [0b00001111, 0b11010101, 0b11010011],
     [0b00001111, 0b11111000, 0b11010011],
     [0b00001111, 0b11111001, 0b11010011],
     [0b00001111, 0b11111010, 0b11010011],
     [0b00001111, 0b11101000, 0b11010011],
     [0b00001111, 0b11101001, 0b11010011],
     [0b00001111, 0b11011000, 0b11010011],
     [0b00001111, 0b11011001, 0b11010011]]
    = [some (.paddb .mm2 (.reg .mm3)),
       some (.paddw .mm2 (.reg .mm3)),
       some (.paddd .mm2 (.reg .mm3)),
       some (.paddsb .mm2 (.reg .mm3)),
       some (.paddsw .mm2 (.reg .mm3)),
       some (.paddusb .mm2 (.reg .mm3)),
       some (.paddusw .mm2 (.reg .mm3)),
       some (.pmaddwd .mm2 (.reg .mm3)),
       some (.pmulhw .mm2 (.reg .mm3)),
       some (.pmullw .mm2 (.reg .mm3)),
       some (.psubb .mm2 (.reg .mm3)),
       some (.psubw .mm2 (.reg .mm3)),
       some (.psubd .mm2 (.reg .mm3)),
       some (.psubsb .mm2 (.reg .mm3)),
       some (.psubsw .mm2 (.reg .mm3)),
       some (.psubusb .mm2 (.reg .mm3)),
       some (.psubusw .mm2 (.reg .mm3))] := by decide

theorem test_decode_logical : List.map decoded
    [[0b00001111, 0b11011011, 0b11010011],
     [0b00001111, 0b11011111, 0b11010011],
     [0b00001111, 0b11101011, 0b11010011],
     [0b00001111, 0b11101111, 0b11010011]]
    = [some (.pand .mm2 (.reg .mm3)),
       some (.pandn .mm2 (.reg .mm3)),
       some (.por .mm2 (.reg .mm3)),
       some (.pxor .mm2 (.reg .mm3))] := by decide

theorem test_decode_comparison : List.map decoded
    [[0b00001111, 0b01110100, 0b11010011],
     [0b00001111, 0b01110101, 0b11010011],
     [0b00001111, 0b01110110, 0b11010011],
     [0b00001111, 0b01100100, 0b11010011],
     [0b00001111, 0b01100101, 0b11010011],
     [0b00001111, 0b01100110, 0b11010011]]
    = [some (.pcmpeqb .mm2 (.reg .mm3)),
       some (.pcmpeqw .mm2 (.reg .mm3)),
       some (.pcmpeqd .mm2 (.reg .mm3)),
       some (.pcmpgtb .mm2 (.reg .mm3)),
       some (.pcmpgtw .mm2 (.reg .mm3)),
       some (.pcmpgtd .mm2 (.reg .mm3))] := by decide

theorem test_decode_shift : List.map decoded
    [[0b00001111, 0b11110001, 0b11010011],
     [0b00001111, 0b01110001, 0b11110011, 0b00000101],
     [0b00001111, 0b11110010, 0b11010011],
     [0b00001111, 0b01110010, 0b11110011, 0b00000101],
     [0b00001111, 0b11110011, 0b11010011],
     [0b00001111, 0b01110011, 0b11110011, 0b00000101],
     [0b00001111, 0b11100001, 0b11010011],
     [0b00001111, 0b01110001, 0b11100011, 0b00000101],
     [0b00001111, 0b11100010, 0b11010011],
     [0b00001111, 0b01110010, 0b11100011, 0b00000101],
     [0b00001111, 0b11010001, 0b11010011],
     [0b00001111, 0b01110001, 0b11010011, 0b00000101],
     [0b00001111, 0b11010010, 0b11010011],
     [0b00001111, 0b01110010, 0b11010011, 0b00000101],
     [0b00001111, 0b11010011, 0b11010011],
     [0b00001111, 0b01110011, 0b11010011, 0b00000101]]
    = [some (.psllw .mm2 (.reg .mm3)),
       some (.psllwImm .mm3 5),
       some (.pslld .mm2 (.reg .mm3)),
       some (.pslldImm .mm3 5),
       some (.psllq .mm2 (.reg .mm3)),
       some (.psllqImm .mm3 5),
       some (.psraw .mm2 (.reg .mm3)),
       some (.psrawImm .mm3 5),
       some (.psrad .mm2 (.reg .mm3)),
       some (.psradImm .mm3 5),
       some (.psrlw .mm2 (.reg .mm3)),
       some (.psrlwImm .mm3 5),
       some (.psrld .mm2 (.reg .mm3)),
       some (.psrldImm .mm3 5),
       some (.psrlq .mm2 (.reg .mm3)),
       some (.psrlqImm .mm3 5)] := by decide

/-- The byte sequences N1 to N24 of spec/95_test_vectors.md are refused. -/
theorem test_decode_refuses : List.filterMap decoded
    [[0x0F, 0x71, 0xC0, 0x01],
     [0x0F, 0x71, 0xC8, 0x01],
     [0x0F, 0x72, 0xD8, 0x01],
     [0x0F, 0x72, 0xE8, 0x01],
     [0x0F, 0x73, 0xF8, 0x01],
     [0x0F, 0x73, 0xE0, 0x01],
     [0x0F, 0x71, 0x30, 0x01],
     [0x0F, 0x73, 0x73, 0x08, 0x01],
     [0x0F, 0xD4, 0xC1],
     [0x0F, 0xFF, 0xC1],
     [0x0F, 0x70, 0xC1, 0x00],
     [0x0F, 0xE7, 0x03],
     [0x0F, 0xD7, 0xC1],
     [0x0F, 0xFB, 0xC1],
     [0x0F, 0xE3, 0xC1],
     [0x66, 0x0F, 0x6F, 0xC1],
     [0xF3, 0x0F, 0x6F, 0xC1],
     [0xF2, 0x0F, 0x6F, 0xC1],
     [0xF0, 0x0F, 0x7F, 0x03],
     [0x26, 0x0F, 0x6F, 0xC1],
     [0x67, 0x0F, 0x72, 0xF0, 0x04],
     [0x3E, 0x0F, 0x77],
     [0x26, 0x3E, 0x0F, 0x6F, 0x03],
     [0x67, 0x67, 0x0F, 0x6F, 0x03]] = [] := by decide

/-! ### Addresses -/

/-- The registers of the address vectors E1 to E38 of spec/95_test_vectors.md. -/
def addressRegs : State :=
  { flat with gpr := { eax := 0x10, ecx := 3, edx := 0x100, ebx := 0x2000, esp := 0x8000, ebp := 0x7000, esi := 0x20,
                       edi := 0x40 } }

/-- Segment, effective address and length of the memory operand of an instruction of exactly these bytes. -/
def address (dflt : AddrSize) (bytes : List Byte) : Option (SegReg × Dword × Nat) :=
  match decode dflt bytes with
  | .ok (i, []) => i.memOperand?.map fun m => (operandSegment m, addressRegs.effectiveAddress m.addr, i.length)
  | _ => none

/-- The 26 vectors E with a 32-bit default address size. -/
theorem test_address_32 : List.map (address .a32)
    [[0x0F, 0x6F, 0x03],
     [0x0F, 0x6F, 0x43, 0x08],
     [0x0F, 0x6F, 0x43, 0xF8],
     [0x0F, 0x6F, 0x83, 0x00, 0x01, 0x00, 0x00],
     [0x0F, 0x6F, 0x05, 0x78, 0x56, 0x34, 0x12],
     [0x0F, 0x6F, 0x45, 0xF8],
     [0x0F, 0x6F, 0x04, 0x24],
     [0x0F, 0x6F, 0x44, 0x24, 0x08],
     [0x0F, 0x6F, 0x04, 0x8B],
     [0x0F, 0x6F, 0x04, 0xCB],
     [0x0F, 0x6F, 0x44, 0x73, 0x10],
     [0x0F, 0x6F, 0x84, 0xF3, 0x00, 0x10, 0x00, 0x00],
     [0x0F, 0x6F, 0x04, 0x25, 0x00, 0x30, 0x00, 0x00],
     [0x0F, 0x6F, 0x04, 0x6D, 0x00, 0x00, 0x00, 0x00],
     [0x0F, 0x6F, 0x44, 0x2D, 0x00],
     [0x0F, 0x6F, 0x04, 0xE3],
     [0x0F, 0x6F, 0x04, 0x2C],
     [0x26, 0x0F, 0x6F, 0x03],
     [0x36, 0x0F, 0x6F, 0x03],
     [0x2E, 0x0F, 0x6F, 0x45, 0x00],
     [0x65, 0x67, 0x0F, 0x6F, 0x07],
     [0x67, 0x0F, 0x6F, 0x00],
     [0x0F, 0x7F, 0x4C, 0x8B, 0x04],
     [0x0F, 0x7E, 0x0C, 0x24],
     [0x0F, 0x62, 0x53, 0x04],
     [0x0F, 0xF1, 0x0E]]
    = [some (.ds, 0x2000, 3),
       some (.ds, 0x2008, 4),
       some (.ds, 0x1FF8, 4),
       some (.ds, 0x2100, 7),
       some (.ds, 0x12345678, 7),
       some (.ss, 0x6FF8, 4),
       some (.ss, 0x8000, 4),
       some (.ss, 0x8008, 5),
       some (.ds, 0x200C, 4),
       some (.ds, 0x2018, 4),
       some (.ds, 0x2050, 5),
       some (.ds, 0x3100, 8),
       some (.ds, 0x3000, 8),
       some (.ds, 0xE000, 8),
       some (.ss, 0xE000, 5),
       some (.ds, 0x2000, 4),
       some (.ss, 0xF000, 4),
       some (.es, 0x2000, 4),
       some (.ss, 0x2000, 4),
       some (.cs, 0x7000, 5),
       some (.gs, 0x2000, 5),
       some (.ds, 0x2020, 4),
       some (.ds, 0x2010, 5),
       some (.ss, 0x8000, 4),
       some (.ds, 0x2004, 4),
       some (.ds, 0x20, 3)] := by decide

/-- The 12 vectors E with a 16-bit default address size. -/
theorem test_address_16 : List.map (address .a16)
    [[0x0F, 0x6F, 0x00],
     [0x0F, 0x6F, 0x01],
     [0x0F, 0x6F, 0x02],
     [0x0F, 0x6F, 0x03],
     [0x0F, 0x6F, 0x04],
     [0x0F, 0x6F, 0x05],
     [0x0F, 0x6F, 0x06, 0x34, 0x12],
     [0x0F, 0x6F, 0x07],
     [0x0F, 0x6F, 0x46, 0x02],
     [0x0F, 0x6F, 0x87, 0x00, 0xF0],
     [0x0F, 0x6F, 0x47, 0xFF],
     [0x67, 0x0F, 0x6F, 0x03]]
    = [some (.ds, 0x2020, 3),
       some (.ds, 0x2040, 3),
       some (.ss, 0x7020, 3),
       some (.ss, 0x7040, 3),
       some (.ds, 0x20, 3),
       some (.ds, 0x40, 3),
       some (.ds, 0x1234, 5),
       some (.ds, 0x2000, 3),
       some (.ss, 0x7002, 4),
       some (.ds, 0x1000, 5),
       some (.ds, 0x1FFF, 4),
       some (.ds, 0x2000, 4)] := by decide

/-! ### One step per instruction: the vectors of spec/95_test_vectors.md -/

/-- A1. -/
theorem test_paddb_wraps : mm0After [0x0F, 0xFC, 0xC1] 0x7F80FF0180007FFF 0x018001FF80000001 = some 0x8000000000007F00 := by decide +kernel

/-- A2. -/
theorem test_paddw_wraps : mm0After [0x0F, 0xFD, 0xC1] 0x7F80FF0180007FFF 0x018001FF80000001 = some 0x8100010000008000 := by decide +kernel

/-- A3. -/
theorem test_paddd_wraps : mm0After [0x0F, 0xFE, 0xC1] 0x7F80FF0180007FFF 0x018001FF80000001 = some 0x8101010000008000 := by decide +kernel

/-- A4. -/
theorem test_paddb_no_carry_between_bytes : mm0After [0x0F, 0xFC, 0xC1] 0xFFFFFFFFFFFFFFFF 0x0000000000000001 = some 0xFFFFFFFFFFFFFF00 := by decide +kernel

/-- A7. -/
theorem test_paddsb_saturates : mm0After [0x0F, 0xEC, 0xC1] 0x7F80FF0180007FFF 0x018001FF80000001 = some 0x7F80000080007F00 := by decide +kernel

/-- A8. -/
theorem test_paddsw_saturates : mm0After [0x0F, 0xED, 0xC1] 0x7F80FF0180007FFF 0x018001FF80000001 = some 0x7FFF010080007FFF := by decide +kernel

/-- A9. -/
theorem test_paddusb_saturates : mm0After [0x0F, 0xDC, 0xC1] 0x7F80FF0180007FFF 0x018001FF80000001 = some 0x80FFFFFFFF007FFF := by decide +kernel

/-- A10. -/
theorem test_paddusw_saturates : mm0After [0x0F, 0xDD, 0xC1] 0x7F80FF0180007FFF 0x018001FF80000001 = some 0x8100FFFFFFFF8000 := by decide +kernel

/-- A11. -/
theorem test_psubb_wraps : mm0After [0x0F, 0xF8, 0xC1] 0x7F80FF0180007FFF 0x018001FF80000001 = some 0x7E00FE0200007FFE := by decide +kernel

/-- A12. -/
theorem test_psubw_wraps : mm0After [0x0F, 0xF9, 0xC1] 0x7F80FF0180007FFF 0x018001FF80000001 = some 0x7E00FD0200007FFE := by decide +kernel

/-- A13. -/
theorem test_psubd_wraps : mm0After [0x0F, 0xFA, 0xC1] 0x0001000080000000 0x0000000100000001 = some 0x0000FFFF7FFFFFFF := by decide +kernel

/-- A17. -/
theorem test_psubsb_saturates : mm0After [0x0F, 0xE8, 0xC1] 0x807FFF0180007FFF 0x7FFF7F0101FF8001 = some 0x807F800080017FFE := by decide +kernel

/-- A18. -/
theorem test_psubsw_saturates : mm0After [0x0F, 0xE9, 0xC1] 0x7F80800080007FFF 0x800000018000FFFF = some 0x7FFF800000007FFF := by decide +kernel

/-- A19. -/
theorem test_psubusb_saturates : mm0After [0x0F, 0xD8, 0xC1] 0x7F80FF0180007FFF 0x018001FF80000001 = some 0x7E00FE0000007FFE := by decide +kernel

/-- A20. -/
theorem test_psubusw_saturates : mm0After [0x0F, 0xD9, 0xC1] 0x0000FFFF80000005 0x00010001FFFF0003 = some 0x0000FFFE00000002 := by decide +kernel

/-- A21. -/
theorem test_pmullw_low_words : mm0After [0x0F, 0xD5, 0xC1] 0x80007FFFFFFF0100 0x80007FFF00010100 = some 0x00000001FFFF0000 := by decide +kernel

/-- A22. -/
theorem test_pmulhw_high_words : mm0After [0x0F, 0xE5, 0xC1] 0x80007FFFFFFF0100 0x80007FFF00010100 = some 0x40003FFFFFFF0001 := by decide +kernel

/-- A24. -/
theorem test_pmulhw_rounds_down : mm0After [0x0F, 0xE5, 0xC1] 0xFFFE000300040005 0x0003FFFE7FFF8000 = some 0xFFFFFFFF0001FFFD := by decide +kernel

/-- A26. -/
theorem test_pmaddwd_sums_products : mm0After [0x0F, 0xF5, 0xC1] 0x7FFF7FFFFFFF0002 0x7FFF7FFF00038000 = some 0x7FFE0002FFFEFFFD := by decide +kernel

/-- A27. -/
theorem test_pmaddwd_wraps : mm0After [0x0F, 0xF5, 0xC1] 0x8000800080008000 0x8000800080008000 = some 0x8000000080000000 := by decide +kernel

/-- Q1. -/
theorem test_pcmpeqb_masks : mm0After [0x0F, 0x74, 0xC1] 0x7F80FF0180007FFF 0x7F7F00018000FFFF = some 0xFF0000FFFFFF00FF := by decide +kernel

/-- Q2. -/
theorem test_pcmpeqw_masks : mm0After [0x0F, 0x75, 0xC1] 0x7F80FF0180007FFF 0x7F7F00018000FFFF = some 0x00000000FFFF0000 := by decide +kernel

/-- Q4. -/
theorem test_pcmpeqd_masks : mm0After [0x0F, 0x76, 0xC1] 0x1234567800000000 0x1234567800000001 = some 0xFFFFFFFF00000000 := by decide +kernel

/-- Q8. -/
theorem test_pcmpgtb_is_signed : mm0After [0x0F, 0x64, 0xC1] 0x80FF007F80FF007F 0x7F00FF80FF7F8000 = some 0x0000FFFF0000FFFF := by decide +kernel

/-- Q9. -/
theorem test_pcmpgtw_is_signed : mm0After [0x0F, 0x65, 0xC1] 0x8000FFFF00007FFF 0x7FFF0000FFFF8000 = some 0x00000000FFFFFFFF := by decide +kernel

/-- Q7. -/
theorem test_pcmpgtd_masks : mm0After [0x0F, 0x66, 0xC1] 0x7F80FF0180007FFF 0x7F7F00018000FFFF = some 0xFFFFFFFF00000000 := by decide +kernel

/-- Q11. -/
theorem test_pcmpgtd_is_signed : mm0After [0x0F, 0x66, 0xC1] 0x7FFFFFFF00000000 0x80000000FFFFFFFF = some 0xFFFFFFFFFFFFFFFF := by decide +kernel

/-- V1. -/
theorem test_packsswb_saturates : mm0After [0x0F, 0x63, 0xC1] 0x007F0080FF80FF7F 0x7FFF80000000FFFF = some 0x7F8000FF7F7F8080 := by decide +kernel

/-- V2. -/
theorem test_packssdw_saturates : mm0After [0x0F, 0x6B, 0xC1] 0x00007FFF00008000 0xFFFF8000FFFF7FFF = some 0x800080007FFF7FFF := by decide +kernel

/-- V3. -/
theorem test_packuswb_saturates : mm0After [0x0F, 0x67, 0xC1] 0x007F0080FF80FF7F 0x7FFF80000100FFFF = some 0xFF00FF007F800000 := by decide +kernel

/-- V4. -/
theorem test_packuswb_reads_signed_words : mm0After [0x0F, 0x67, 0xC1] 0x00FF010000000001 0x00FE00FF80007FFF = some 0xFEFF00FFFFFF0001 := by decide +kernel

/-- V5. -/
theorem test_punpckhbw_interleaves : mm0After [0x0F, 0x68, 0xC1] 0x8877665544332211 0xFFEEDDCCBBAA9988 = some 0xFF88EE77DD66CC55 := by decide +kernel

/-- V6. -/
theorem test_punpckhwd_interleaves : mm0After [0x0F, 0x69, 0xC1] 0x8877665544332211 0xFFEEDDCCBBAA9988 = some 0xFFEE8877DDCC6655 := by decide +kernel

/-- V7. -/
theorem test_punpckhdq_interleaves : mm0After [0x0F, 0x6A, 0xC1] 0x8877665544332211 0xFFEEDDCCBBAA9988 = some 0xFFEEDDCC88776655 := by decide +kernel

/-- V9. -/
theorem test_punpcklbw_interleaves : mm0After [0x0F, 0x60, 0xC1] 0x8877665544332211 0xFFEEDDCCBBAA9988 = some 0xBB44AA3399228811 := by decide +kernel

/-- V10. -/
theorem test_punpcklwd_interleaves : mm0After [0x0F, 0x61, 0xC1] 0x8877665544332211 0xFFEEDDCCBBAA9988 = some 0xBBAA443399882211 := by decide +kernel

/-- V11. -/
theorem test_punpckldq_interleaves : mm0After [0x0F, 0x62, 0xC1] 0x8877665544332211 0xFFEEDDCCBBAA9988 = some 0xBBAA998844332211 := by decide +kernel

/-- G1. -/
theorem test_pand_bits : mm0After [0x0F, 0xDB, 0xC1] 0xFF00FF00F0F0AAAA 0x0FF00FF0FFFF5555 = some 0x0F000F00F0F00000 := by decide +kernel

/-- G2. -/
theorem test_pandn_complements_the_destination : mm0After [0x0F, 0xDF, 0xC1] 0xFF00FF00F0F0AAAA 0x0FF00FF0FFFF5555 = some 0x00F000F00F0F5555 := by decide +kernel

/-- G3. -/
theorem test_por_bits : mm0After [0x0F, 0xEB, 0xC1] 0xFF00FF00F0F0AAAA 0x0FF00FF0FFFF5555 = some 0xFFF0FFF0FFFFFFFF := by decide +kernel

/-- G4. -/
theorem test_pxor_bits : mm0After [0x0F, 0xEF, 0xC1] 0xFF00FF00F0F0AAAA 0x0FF00FF0FFFF5555 = some 0xF0F0F0F00F0FFFFF := by decide +kernel

/-- H2. -/
theorem test_psllw_imm_by_four : mm0After [0x0F, 0x71, 0xF0, 0x04] 0x8001F00F12345678 0 = some 0x001000F023406780 := by decide +kernel

/-- H4. -/
theorem test_psllw_imm_by_the_width : mm0After [0x0F, 0x71, 0xF0, 0x10] 0x8001F00F12345678 0 = some 0x0000000000000000 := by decide +kernel

/-- H8. -/
theorem test_psllw_by_one : mm0After [0x0F, 0xF1, 0xC1] 0x8001F00F12345678 0x0000000000000001 = some 0x0002E01E2468ACF0 := by decide +kernel

/-- H7. -/
theorem test_psllw_reads_64_count_bits : mm0After [0x0F, 0xF1, 0xC1] 0x8001F00F12345678 0x0000000100000000 = some 0x0000000000000000 := by decide +kernel

/-- H10. -/
theorem test_pslld_imm_by_four : mm0After [0x0F, 0x72, 0xF0, 0x04] 0x8001F00F12345678 0 = some 0x001F00F023456780 := by decide +kernel

/-- H12. -/
theorem test_pslld_imm_by_the_width : mm0After [0x0F, 0x72, 0xF0, 0x20] 0x8001F00F12345678 0 = some 0x0000000000000000 := by decide +kernel

/-- H16. -/
theorem test_pslld_by_one : mm0After [0x0F, 0xF2, 0xC1] 0x8001F00F12345678 0x0000000000000001 = some 0x0003E01E2468ACF0 := by decide +kernel

/-- H15. -/
theorem test_pslld_reads_64_count_bits : mm0After [0x0F, 0xF2, 0xC1] 0x8001F00F12345678 0x0000000100000000 = some 0x0000000000000000 := by decide +kernel

/-- H18. -/
theorem test_psllq_imm_by_four : mm0After [0x0F, 0x73, 0xF0, 0x04] 0x8001F00F12345678 0 = some 0x001F00F123456780 := by decide +kernel

/-- H20. -/
theorem test_psllq_imm_by_the_width : mm0After [0x0F, 0x73, 0xF0, 0x40] 0x8001F00F12345678 0 = some 0x0000000000000000 := by decide +kernel

/-- H24. -/
theorem test_psllq_by_one : mm0After [0x0F, 0xF3, 0xC1] 0x8001F00F12345678 0x0000000000000001 = some 0x0003E01E2468ACF0 := by decide +kernel

/-- H23. -/
theorem test_psllq_reads_64_count_bits : mm0After [0x0F, 0xF3, 0xC1] 0x8001F00F12345678 0x0000000100000000 = some 0x0000000000000000 := by decide +kernel

/-- H26. -/
theorem test_psrlw_imm_by_four : mm0After [0x0F, 0x71, 0xD0, 0x04] 0x8001F00F12345678 0 = some 0x08000F0001230567 := by decide +kernel

/-- H28. -/
theorem test_psrlw_imm_by_the_width : mm0After [0x0F, 0x71, 0xD0, 0x10] 0x8001F00F12345678 0 = some 0x0000000000000000 := by decide +kernel

/-- H32. -/
theorem test_psrlw_by_one : mm0After [0x0F, 0xD1, 0xC1] 0x8001F00F12345678 0x0000000000000001 = some 0x40007807091A2B3C := by decide +kernel

/-- H31. -/
theorem test_psrlw_reads_64_count_bits : mm0After [0x0F, 0xD1, 0xC1] 0x8001F00F12345678 0x0000000100000000 = some 0x0000000000000000 := by decide +kernel

/-- H34. -/
theorem test_psrld_imm_by_four : mm0After [0x0F, 0x72, 0xD0, 0x04] 0x8001F00F12345678 0 = some 0x08001F0001234567 := by decide +kernel

/-- H36. -/
theorem test_psrld_imm_by_the_width : mm0After [0x0F, 0x72, 0xD0, 0x20] 0x8001F00F12345678 0 = some 0x0000000000000000 := by decide +kernel

/-- H40. -/
theorem test_psrld_by_one : mm0After [0x0F, 0xD2, 0xC1] 0x8001F00F12345678 0x0000000000000001 = some 0x4000F807091A2B3C := by decide +kernel

/-- H39. -/
theorem test_psrld_reads_64_count_bits : mm0After [0x0F, 0xD2, 0xC1] 0x8001F00F12345678 0x0000000100000000 = some 0x0000000000000000 := by decide +kernel

/-- H42. -/
theorem test_psrlq_imm_by_four : mm0After [0x0F, 0x73, 0xD0, 0x04] 0x8001F00F12345678 0 = some 0x08001F00F1234567 := by decide +kernel

/-- H44. -/
theorem test_psrlq_imm_by_the_width : mm0After [0x0F, 0x73, 0xD0, 0x40] 0x8001F00F12345678 0 = some 0x0000000000000000 := by decide +kernel

/-- H48. -/
theorem test_psrlq_by_one : mm0After [0x0F, 0xD3, 0xC1] 0x8001F00F12345678 0x0000000000000001 = some 0x4000F807891A2B3C := by decide +kernel

/-- H47. -/
theorem test_psrlq_reads_64_count_bits : mm0After [0x0F, 0xD3, 0xC1] 0x8001F00F12345678 0x0000000100000000 = some 0x0000000000000000 := by decide +kernel

/-- H50. -/
theorem test_psraw_imm_by_four : mm0After [0x0F, 0x71, 0xE0, 0x04] 0x8001F00F12345678 0 = some 0xF800FF0001230567 := by decide +kernel

/-- H52. -/
theorem test_psraw_imm_by_the_width : mm0After [0x0F, 0x71, 0xE0, 0x10] 0x8001F00F12345678 0 = some 0xFFFFFFFF00000000 := by decide +kernel

/-- H56. -/
theorem test_psraw_by_one : mm0After [0x0F, 0xE1, 0xC1] 0x8001F00F12345678 0x0000000000000001 = some 0xC000F807091A2B3C := by decide +kernel

/-- H55. -/
theorem test_psraw_reads_64_count_bits : mm0After [0x0F, 0xE1, 0xC1] 0x8001F00F12345678 0x0000000100000000 = some 0xFFFFFFFF00000000 := by decide +kernel

/-- H58. -/
theorem test_psrad_imm_by_four : mm0After [0x0F, 0x72, 0xE0, 0x04] 0x8001F00F12345678 0 = some 0xF8001F0001234567 := by decide +kernel

/-- H60. -/
theorem test_psrad_imm_by_the_width : mm0After [0x0F, 0x72, 0xE0, 0x20] 0x8001F00F12345678 0 = some 0xFFFFFFFF00000000 := by decide +kernel

/-- H64. -/
theorem test_psrad_by_one : mm0After [0x0F, 0xE2, 0xC1] 0x8001F00F12345678 0x0000000000000001 = some 0xC000F807091A2B3C := by decide +kernel

/-- H63. -/
theorem test_psrad_reads_64_count_bits : mm0After [0x0F, 0xE2, 0xC1] 0x8001F00F12345678 0x0000000100000000 = some 0xFFFFFFFF00000000 := by decide +kernel

/-! ### Data transfer and EMMS -/

/-- A register of the next state. -/
def after {α : Type} (f : State → α) (bytes : List Byte) (s : State) : Option α :=
  (nextOf (step (s.loadProgram bytes))).map f

/-- Eight bytes 11 22 33 44 55 66 77 88 at 2000h, and EBX = 2000h. -/
def withData : State := (flat.storeBytes 0x2000 [0x11, 0x22, 0x33, 0x44, 0x55, 0x66, 0x77, 0x88]).withEbx 0x2000

/-- T1. -/
theorem test_movd_load_clears_the_high_half :
    after (·.mm.mm1) [0x0F, 0x6E, 0xC8] ((flat.writeMm .mm1 0xFFFFFFFFFFFFFFFF).writeGpr .eax 0x89ABCDEF)
      = some 0x0000000089ABCDEF := by decide +kernel

/-- T2. -/
theorem test_movd_load_reads_four_bytes :
    after (·.mm.mm1) [0x0F, 0x6E, 0x0B] withData = some 0x0000000044332211 := by decide +kernel

/-- T3. -/
theorem test_movd_store_to_register :
    after (fun t => (t.gpr.eax, t.mm.mm1, t.tw)) [0x0F, 0x7E, 0xC8] (flat.writeMm .mm1 0x0123456789ABCDEF)
      = some (0x89ABCDEF, 0x0123456789ABCDEF, 0x0000) := by decide +kernel

/-- T4, on the bytes of `withData`. -/
theorem test_movd_store_writes_four_bytes :
    after (fun t => t.load64 0x2000) [0x0F, 0x7E, 0x0B] (withData.writeMm .mm1 0x0123456789ABCDEF)
      = some 0x8877665589ABCDEF := by decide +kernel

/-- T5. -/
theorem test_movq_load_is_little_endian :
    after (·.mm.mm0) [0x0F, 0x6F, 0x03] withData = some 0x8877665544332211 := by decide +kernel

/-- T6. -/
theorem test_movq_load_from_register :
    after (fun t => (t.mm.mm1, t.mm.mm2)) [0x0F, 0x6F, 0xCA] (flat.writeMm .mm2 0x0123456789ABCDEF)
      = some (0x0123456789ABCDEF, 0x0123456789ABCDEF) := by decide +kernel

/-- T7. -/
theorem test_movq_store_writes_eight_bytes :
    after (fun t => (List.range 8).map fun k => t.byteAt (0x2000 + BitVec.ofNat 32 k)) [0x0F, 0x7F, 0x0B]
        (withData.writeMm .mm1 0x0123456789ABCDEF)
      = some [0xEF, 0xCD, 0xAB, 0x89, 0x67, 0x45, 0x23, 0x01] := by decide +kernel

/-- T8. -/
theorem test_movq_store_to_register :
    after (fun t => (t.mm.mm2, t.mm.mm1)) [0x0F, 0x7F, 0xCA] (flat.writeMm .mm1 0x0123456789ABCDEF)
      = some (0x0123456789ABCDEF, 0x0123456789ABCDEF) := by decide +kernel

/-- M1. -/
theorem test_emms_writes_only_the_tag_word :
    after (fun t => (t.tw, t.eip, t.mm.mm0)) [0x0F, 0x77] { flat.writeMm .mm0 5 with tw := 0x0000 }
      = some (0xFFFF, 0x1002, 5) := by decide +kernel

/-! ### Exceptions (spec/95_test_vectors.md section 2.8) -/

/-- The exception of one step on `bytes` at EIP. -/
def exceptionOf (bytes : List Byte) (s : State) : Option Fault := faultOf (step (s.loadProgram bytes))

/-- DS and SS end at 2FFFh (the oracle of X21 to X23). -/
def limited : State :=
  { flat with segs := { flat.segs with ds := { flatSegment with last := 0x2FFF }, ss := { flatSegment with last := 0x2FFF } } }

/-- DS is not writable. -/
def readOnly : State := { flat with segs := { flat.segs with ds := { flatSegment with writable := false } } }

/-- The byte 2007h page-faults on a read with fault-code 4. -/
def paged : State := { flat with pageRules := [⟨0x2007, 0x2007, true, false, 4⟩] }

/-- CPL 3 with alignment checking. -/
def user : State := { flat with cpl := 3, acEnable := true }

/-- X1 to X5. -/
theorem test_entry_checks_order :
    [(true, false, false), (false, true, false), (false, false, true), (true, true, true), (false, true, true)].map
        (fun (em, ts, fp) => exceptionOf [0x0F, 0xFC, 0xC1] { flat with cr0Em := em, cr0Ts := ts, fpPending := fp })
      = [some .invalidOpcode, some .deviceNotAvailable, some .floatingPointError, some .invalidOpcode,
         some .deviceNotAvailable] := by decide +kernel

/-- X7 to X10. -/
theorem test_real_address_limit :
    [exceptionOf [0x0F, 0x6F, 0x07] (real.withEbx 0xFFF8), exceptionOf [0x0F, 0x6F, 0x07] (real.withEbx 0xFFF9),
      exceptionOf [0x0F, 0x6E, 0x07] (real.withEbx 0xFFFC), exceptionOf [0x0F, 0x6E, 0x07] (real.withEbx 0xFFFD)]
      = [none, some .interrupt13, none, some .interrupt13] := by decide +kernel

/-- X11, X12: PUNPCKL accesses four bytes, PUNPCKH eight. -/
theorem test_unpack_access_widths :
    [exceptionOf [0x0F, 0x60, 0x07] (real.withEbx 0xFFFC), exceptionOf [0x0F, 0x68, 0x07] (real.withEbx 0xFFFC)]
      = [none, some .interrupt13] := by decide +kernel

/-- X15 to X20. -/
theorem test_alignment_check :
    [exceptionOf [0x0F, 0x6F, 0x03] (user.withEbx 0x2004), exceptionOf [0x0F, 0x6E, 0x03] (user.withEbx 0x2004),
      exceptionOf [0x0F, 0x6F, 0x03] { user.withEbx 0x2004 with cpl := 0 },
      exceptionOf [0x0F, 0x6F, 0x03] { user.withEbx 0x2001 with acEnable := false },
      exceptionOf [0x0F, 0x7E, 0x07] { v86.withEbx 0x2002 with acEnable := true },
      exceptionOf [0x0F, 0x6F, 0x07] { real.withEbx 0x2001 with acEnable := true }]
      = [some .alignmentCheck, none, none, none, some .alignmentCheck, none] := by decide +kernel

/-- X21 to X23. -/
theorem test_segment_limit :
    [exceptionOf [0x0F, 0x6F, 0x03] (limited.withEbx 0x2FF9), exceptionOf [0x0F, 0x6F, 0x45, 0x00] (limited.writeGpr .ebp 0x2FF9),
      exceptionOf [0x3E, 0x0F, 0x6F, 0x45, 0x00] (limited.writeGpr .ebp 0x2FF9)]
      = [some .generalProtection, some .stackFault, some .generalProtection] := by decide +kernel

/-- X24, X25: a 32-bit effective address is not reduced, a 16-bit one is. -/
theorem test_effective_address_width :
    (exceptionOf [0x67, 0x0F, 0x6F, 0x03] (real.withEbx 0x12000),
      exceptionOf [0x0F, 0x6F, 0x40, 0x09] ((real.withEbx 0xFFF0).writeGpr .esi 8)) = (some .interrupt13, none) := by
  decide +kernel

/-- A store into a nonwritable segment, and a page fault (R234, R237). -/
theorem test_write_protection_and_page_fault :
    [exceptionOf [0x0F, 0x7F, 0x03] (readOnly.withEbx 0x2000), exceptionOf [0x0F, 0x6F, 0x03] (readOnly.withEbx 0x2000),
      exceptionOf [0x0F, 0x6F, 0x03] (paged.withEbx 0x2000), exceptionOf [0x0F, 0x6E, 0x03] (paged.withEbx 0x2000)]
      = [some .generalProtection, none, some (.pageFault 4), none] := by decide +kernel

/-- X26. -/
theorem test_store_into_the_program_is_refused :
    refusalOf (step ((flat.withEbx 0xFFC).loadProgram [0x0F, 0x7F, 0x03])) = some .storeIntoProgram := by decide +kernel

/-- The word of a table row, placed at reset, runs. -/
theorem test_table_word_runs_after_reset :
    decodeTableWord 24 0x0FFCC1 = some (.paddb .mm0 (.reg .mm1))
    ∧ (nextOf (step (State.reset.withFetchWord 24 0x0FFCC1))).map (·.eip) = some 0x0000FFF3 := by decide +kernel

/-! ### Witnesses: for each obligation with hypotheses, a state and operands that meet them -/

theorem witness_DecodeInvertsEncode :
    Instr.wf .a32 (.paddb .mm7 (.mem ⟨.segAddr .gs, .a16 (.baseDisp16 .bp 0xFFFF)⟩)) = true
    ∧ Instr.wf .a16 (.movdStore (.mem ⟨.addrSeg .ss, .a32 (.sibNoBase ⟨3, none⟩ 0xFFFFFFFF)⟩) .mm7) = true
    ∧ Instr.wf .a16 (.psllwImm .mm7 0xFF) = true := by decide

theorem witness_EncodeInvertsDecode :
    decode .a16 [0x65, 0x67, 0x0F, 0x7E, 0xBC, 0xE5, 0xFF, 0xFF, 0xFF, 0xFF, 0x90]
      = .ok (.movdStore (.mem ⟨.segAddr .gs, .a32 (.sibDisp32 ⟨3, none⟩ .ebp 0xFFFFFFFF)⟩) .mm7, [0x90])
    ∧ decode .a16 [0x0F, 0x77, 0x90] = .ok (.emms, [0x90]) := ⟨rfl, rfl⟩

/-- A program of `bytes` under the flat launch state. -/
def running (bytes : List Byte) : State := flat.loadProgram bytes

theorem witness_UndefinedEncodingsRefused :
    ((running [0x0F, 0x5F, 0xC1]).eipInProgram = true ∧ (running [0x0F, 0x5F, 0xC1]).programFetchable
      ∧ (running [0x0F, 0x5F, 0xC1]).fetchBytes = [0x0F, 0x5F, 0xC1])
    ∧ ((running [0x0F, 0x73, 0xE0, 0x04]).eipInProgram = true ∧ (running [0x0F, 0x73, 0xE0, 0x04]).programFetchable
      ∧ (running [0x0F, 0x73, 0xE0, 0x04]).fetchBytes = 0x0F :: 0x73 :: fieldsByte 3 4 0 :: 0x04 :: [])
    ∧ ((running [0x0F, 0x71, 0xB1, 0x04]).eipInProgram = true ∧ (running [0x0F, 0x71, 0xB1, 0x04]).programFetchable
      ∧ (running [0x0F, 0x71, 0xB1, 0x04]).fetchBytes = 0x0F :: 0x71 :: fieldsByte 2 6 1 :: 0x04 :: []) := by decide +kernel

theorem witness_RefusedPrefixes :
    (overrideSegment (.segAddr .fs)).isSome = true ∧ Prefixes.has67 (.segAddr .fs) = true ∧ Prefixes.addr ≠ .none
    ∧ Instr.memOperand? .emms = none ∧ Instr.memOperand? (.paddb .mm0 (.reg .mm1)) = none := by decide

/-- Each case of rm or base of EffectiveAddress32, SibAddress and EffectiveAddress16. -/
theorem witness_EffectiveAddress32_SibAddress_EffectiveAddress16 :
    (3 : BitVec 3) ≠ 4 ∧ (3 : BitVec 3) ≠ 5 ∧ (5 : BitVec 3) ≠ 4 ∧ (4 : BitVec 3) ≠ 5 ∧ (7 : BitVec 3) ≠ 6 := by decide

theorem witness_PrefixesSelectSizeAndSegment :
    decode .a16 [0x67, 0x0F, 0x6F, 0x00] = .ok (.movqLoad .mm0 (.mem ⟨.addr, .a32 (.reg .eax)⟩), [])
    ∧ decode .a16 [0x36, 0x0F, 0x6F, 0x00] = .ok (.movqLoad .mm0 (.mem ⟨.seg .ss, .a16 (.base .bxSi)⟩), [])
    ∧ (Instr.movqLoad .mm0 (.mem ⟨.seg .ss, .a16 (.base .bxSi)⟩)).memOperand? = some ⟨.seg .ss, .a16 (.base .bxSi)⟩
    ∧ SegReg.ss.byte ∈ (MemOperand.prefixes ⟨.seg .ss, .a16 (.base .bxSi)⟩).bytes
    ∧ SegReg.ds.byte ∉ (MemOperand.prefixes ⟨.addr, .a32 (.reg .eax)⟩).bytes := ⟨rfl, rfl, rfl, by decide, by decide⟩

theorem witness_EntryChecksComeFirst :
    flat.entryClear ∧ (∃ t, exec (.paddb .mm0 (.reg .mm1)) flat = .next t)
    ∧ Sys2Proof.core.run 1 ((limited.withEbx 0x2FF9).loadProgram [0x0F, 0x6F, 0x03]) = .fault .generalProtection :=
  ⟨by decide, exists_next (by decide +kernel), faultOf_some (by decide +kernel)⟩

theorem witness_MemoryExceptionsOfEachForm :
    (limited.withEbx 0x2FF9).entryClear ∧ (Instr.psllwImm .mm0 1).memOperand? = none
    ∧ (Instr.movdStore (.mem atEbx) .mm0).memOperand? = some atEbx
    ∧ (Instr.movdStore (.mem atEbx) .mm0).access = some (4, .write)
    ∧ exec (.movqLoad .mm0 (.mem atEbx)) (limited.withEbx 0x2FF9) = .fault .generalProtection :=
  ⟨by decide, rfl, rfl, rfl, faultOf_some (by decide +kernel)⟩

theorem witness_ExceptionsOfEachMode :
    exec (.movqLoad .mm0 (.mem atEbx)) (limited.withEbx 0x2FF9) = .fault .generalProtection
    ∧ exec (.movqLoad .mm0 (.mem ⟨.seg .ss, .a32 (.reg .ebx)⟩)) (limited.withEbx 0x2FF9) = .fault .stackFault
    ∧ exec (.movqLoad .mm0 (.mem atEbx)) (paged.withEbx 0x2000) = .fault (.pageFault 4)
    ∧ exec (.movqLoad .mm0 (.mem atEbx)) (user.withEbx 0x2004) = .fault .alignmentCheck
    ∧ exec (.movqLoad .mm0 (.mem atBx)) { v86.withEbx 0x2004 with acEnable := true } = .fault .alignmentCheck
    ∧ exec (.movqLoad .mm0 (.mem atBx)) (real.withEbx 0xFFF9) = .fault .interrupt13 :=
  ⟨faultOf_some (by decide +kernel), faultOf_some (by decide +kernel), faultOf_some (by decide +kernel),
    faultOf_some (by decide +kernel), faultOf_some (by decide +kernel), faultOf_some (by decide +kernel)⟩

theorem witness_ResultsAreTheSameInEveryMode :
    (∃ t, exec (.movqLoad .mm0 (.mem atEbx)) (flat.withEbx 0xFFF8) = .next t)
    ∧ (∃ t, exec (.movqLoad .mm0 (.mem atEbx)) { flat.withEbx 0xFFF8 with mode := .virtual8086, cpl := 3 } = .next t)
    ∧ Instr.memOperand? .emms = none ∧ ∃ t, exec .emms flat = .next t :=
  ⟨exists_next (by decide +kernel), exists_next (by decide +kernel), rfl, exists_next (by decide +kernel)⟩

theorem witness_RealAddressModeLimit :
    real.mode = .realAddress ∧ (0xFFF8 : Dword).toNat + 8 - 1 ≤ 0xFFFF ∧ 0xFFFF < (0xFFF9 : Dword).toNat + 8 - 1
    ∧ (0xFFFC : Dword).toNat + 4 - 1 ≤ 0xFFFF ∧ 0xFFFF < (0xFFFD : Dword).toNat + 4 - 1 := by decide

/-- Virtual-8086 mode with alignment checking and a page rule. -/
def v86Paged : State := { v86 with acEnable := true, pageRules := [⟨0x2007, 0x2007, true, false, 4⟩] }

theorem witness_Virtual8086ModeChecks :
    v86Paged.mode = .virtual8086
    ∧ ((0xFFF8 : Dword).toNat + 8 - 1 ≤ 0xFFFF ∧ v86Paged.pagesPresent (v86Paged.linear .ds 0xFFF8) 8 .read
      ∧ (v86Paged.linear .ds 0xFFF8).toNat % 8 = 0)
    ∧ (0xFFFF < (0x10000 : Dword).toNat + 8 - 1 ∧ v86Paged.pagesPresent (v86Paged.linear .ds 0x10000) 8 .read
      ∧ (v86Paged.linear .ds 0x10000).toNat % 8 = 0)
    ∧ ((0x2000 : Dword).toNat + 8 - 1 ≤ 0xFFFF ∧ ¬ v86Paged.pagesPresent (v86Paged.linear .ds 0x2000) 8 .read
      ∧ (v86Paged.linear .ds 0x2000).toNat % 8 = 0)
    ∧ ((0xFFF7 : Dword).toNat + 8 - 1 ≤ 0xFFFF ∧ v86Paged.pagesPresent (v86Paged.linear .ds 0xFFF7) 8 .read
      ∧ v86Paged.acEnable = true ∧ (v86Paged.linear .ds 0xFFF7).toNat % 8 ≠ 0) := by decide +kernel

theorem witness_AlignmentCheckExactly :
    (user.mode = .protectedMode ∧ (user.segment .ds).admits 0x2004 8 .read
      ∧ user.pagesPresent (user.linear .ds 0x2004) 8 .read ∧ user.checksAlignment
      ∧ (user.linear .ds 0x2004).toNat % 8 ≠ 0)
    ∧ (v86Paged.mode ≠ .protectedMode ∧ (0xFFF7 : Dword).toNat + 8 - 1 ≤ 0xFFFF
      ∧ v86Paged.pagesPresent (v86Paged.linear .ds 0xFFF7) 8 .read)
    ∧ (real.mode = .realAddress ∧ (0xFFF7 : Dword).toNat + 8 - 1 ≤ 0xFFFF) := by decide +kernel

theorem witness_ProtectedModeSegmentChecks :
    (limited.mode = .protectedMode ∧ limited.pagesPresent (limited.linear .ds 0x2FF8) 8 .write
      ∧ (limited.checksAlignment → (limited.linear .ds 0x2FF8).toNat % 8 = 0)
      ∧ (limited.segment .ds).admits 0x2FF8 8 .write)
    ∧ (¬ (limited.segment .ss).admits 0x2FF9 8 .read ∧ ¬ (limited.segment .ds).admits 0x2FF9 8 .read)
    ∧ ((readOnly.segment .ds).admits 0x2000 8 .read ∧ (readOnly.segment .ds).writable = false
      ∧ readOnly.mode = .protectedMode ∧ readOnly.pagesPresent (readOnly.linear .ds 0x2000) 8 .write) := by
  decide +kernel

theorem witness_AccessCheckAnswersAFaultThatHolds :
    limited.accessCheck .ss 0x2FF9 8 .read = .error .stackFault
    ∧ limited.accessCheck .ds 0x2FF9 8 .read = .error .generalProtection
    ∧ readOnly.accessCheck .ds 0x2000 8 .write = .error .generalProtection
    ∧ real.accessCheck .ds 0xFFF9 8 .read = .error .interrupt13
    ∧ paged.accessCheck .ds 0x2000 8 .read = .error (.pageFault 4)
    ∧ user.accessCheck .ds 0x2004 8 .read = .error .alignmentCheck
    ∧ limited.accessLegal .ds 0x2FF8 8 .read :=
  ⟨errorOf_some (by decide +kernel), errorOf_some (by decide +kernel), errorOf_some (by decide +kernel), errorOf_some (by decide +kernel),
    errorOf_some (by decide +kernel), errorOf_some (by decide +kernel), by decide +kernel⟩

theorem witness_AccessCheckIsFixedDuringARun :
    flat.mode = withData.mode ∧ flat.cpl = withData.cpl ∧ flat.acEnable = withData.acEnable ∧ flat.segs = withData.segs
    ∧ flat.pageRules = withData.pageRules ∧ flat.mem ≠ withData.mem
    ∧ ∃ t, Sys2Proof.core.run 2 (running [0x0F, 0x77, 0x0F, 0xFC, 0xC1]) = .next t :=
  ⟨rfl, rfl, rfl, rfl, rfl, by decide, exists_next (by decide +kernel)⟩

theorem witness_MemoryReturnsTheByteLastWritten :
    Memory.wf [(0, 1), (0xFFFFFFFF, 2)] = true ∧ 0xFFFFFFFF < 2 ^ 32 := by decide

theorem witness_DataIsLittleEndian :
    (∃ t, exec (.movqStore (.mem atEbx) .mm1) withData = .next t) ∧ withData.mem.wf = true
    ∧ (withData.operandBytes (withData.operandAddress atEbx) 8).Nodup :=
  ⟨exists_next (by decide +kernel), by decide, by decide +kernel⟩

/-- A store, and the same store on the program's first byte. -/
def storing : State := (running [0x0F, 0x7F, 0x03]).withEbx 0x2000

theorem witness_StoreIntoTheProgramIsRefused :
    (Instr.movqStore (.mem atEbx) .mm0).memOperand? = some atEbx
    ∧ (Instr.movqStore (.mem atEbx) .mm0).access = some (8, .write)
    ∧ exec (.movqStore (.mem atEbx) .mm0) (storing.withEbx 0xFF9) = .refused .storeIntoProgram
    ∧ ∃ t, exec (.movqStore (.mem atEbx) .mm0) (storing.withEbx 0xFF8) = .next t :=
  ⟨rfl, rfl, refusalOf_some (by decide +kernel), exists_next (by decide +kernel)⟩

theorem witness_StepRunsTheDecodedInstruction :
    (running [0x0F, 0xFC, 0xC1]).eipInProgram = true ∧ (running [0x0F, 0xFC, 0xC1]).programFetchable
    ∧ decode (running [0x0F, 0xFC, 0xC1]).addrSize (running [0x0F, 0xFC, 0xC1]).fetchBytes
        = .ok (.paddb .mm0 (.reg .mm1), []) := ⟨by decide, by decide +kernel, rfl⟩

/-- EMMS at an offset of a code segment whose last legal offset is 1FFFh, at CPL 0 with nothing paged out. -/
def emmsAt (eip : Dword) : State :=
  { flat with eip := eip, segs := { flat.segs with cs := { flatSegment with last := 0x1FFF } } }.loadProgram [0x0F, 0x77]

/-- R37, D19, U18: a program may end at the last byte of the code segment, not one byte later. -/
theorem test_program_ends_at_the_code_segment_limit :
    nextOf (step (emmsAt 0x1FFE)) ≠ none
    ∧ refusalOf (step (emmsAt 0x1FFF)) = some .programNotFetchable := by decide +kernel

/-- R37, D19, U18: a program that passes 2^32, and one whose bytes page-fault, are refused. -/
theorem test_program_past_the_offset_space_or_not_present :
    refusalOf (step (({ flat with eip := 0xFFFFFFFF }).loadProgram [0x0F, 0x77])) = some .programNotFetchable
    ∧ refusalOf (step ({ running [0x0F, 0x77] with pageRules := [⟨0x1001, 0x1001, true, false, 4⟩] }))
        = some .programNotFetchable := by decide +kernel

theorem witness_StepsOutsideTheProgramAreRefused :
    ({ running [0x0F, 0x77] with eip := 0x1002 }).eip.toNat = 0x1000 + (running [0x0F, 0x77]).program.length
    ∧ (0x0FFF : Dword).toNat < (running [0x0F, 0x77]).program.first.toNat
    ∧ (running [0x0F, 0x77]).program.first.toNat + (running [0x0F, 0x77]).program.length < (0x1003 : Dword).toNat
    ∧ ((emmsAt 0x1FFF).eipInProgram = true ∧ ¬ (emmsAt 0x1FFF).programFetchable)
    ∧ (running [0x0F]).eipInProgram = true ∧ (running [0x0F]).programFetchable
    ∧ decode (running [0x0F]).addrSize (running [0x0F]).fetchBytes = .error .truncated :=
  ⟨by decide, by decide, by decide, by decide +kernel, by decide, by decide +kernel, rfl⟩

/-- For TagWordIsWrittenAndNeverRead too. -/
theorem witness_CompleteListOfChanges :
    (∃ t, exec .emms flat = .next t) ∧ (∃ t, exec (.movdStore (.reg .edi) .mm7) flat = .next t)
    ∧ (∃ t, exec (.paddb .mm0 (.mem atEbx)) withData = .next t)
    ∧ (∃ t, exec (.movqStore (.mem atEbx) .mm0) withData = .next t)
    ∧ (Instr.movqStore (.mem atEbx) .mm0).access = some (8, .write)
    ∧ 0x2008 ∉ withData.operandBytes (withData.operandAddress atEbx) 8 :=
  ⟨exists_next (by decide +kernel), exists_next (by decide +kernel), exists_next (by decide +kernel),
    exists_next (by decide +kernel), rfl, by decide +kernel⟩

theorem witness_ConditionFlagsAreNeitherReadNorWritten :
    (∃ t, exec (.paddb .mm0 (.reg .mm1)) flat = .next t)
    ∧ exec (.movqLoad .mm0 (.mem atEbx)) (limited.withEbx 0x2FF9) = .fault .generalProtection
    ∧ exec (.movqStore (.mem atEbx) .mm0) (storing.withEbx 0x1002) = .refused .storeIntoProgram :=
  ⟨exists_next (by decide +kernel), faultOf_some (by decide +kernel), refusalOf_some (by decide +kernel)⟩

/-- For ProgramTextIsFixed and StepAdvancesPastItsBytes too. -/
theorem witness_StepKeepsTheRunInvariant : storing.runInv ∧ ∃ t, step storing = .next t :=
  ⟨by decide +kernel, exists_next (by decide +kernel)⟩

/-- Two instructions, the second a store that hits the program when EBX says so. -/
def twoSteps : State := running [0x0F, 0xFC, 0xC1, 0x0F, 0x7F, 0x03]
def twoInstrs : List Instr := [.paddb .mm0 (.reg .mm1), .movqStore (.mem atEbx) .mm0]

theorem witness_StraightLineRunsEnd :
    twoSteps.programAhead twoInstrs ∧ (∃ t, Sys2Proof.core.run twoInstrs.length (twoSteps.withEbx 0x2000) = .next t)
    ∧ (twoSteps.withEbx 0x2000).programAhead twoInstrs
    ∧ Sys2Proof.core.run 3 (twoSteps.withEbx 0x2000) = .refused .programDone
    ∧ Sys2Proof.core.run 2 (twoSteps.withEbx 0x1000) = .refused .storeIntoProgram ∧ (twoSteps.withEbx 0x1000).programAhead twoInstrs :=
  ⟨by decide +kernel, exists_next (by decide +kernel), by decide +kernel, refusalOf_some (by decide +kernel),
    refusalOf_some (by decide +kernel), by decide +kernel⟩

/-- The hypotheses of every statement of shape `Form64`, `Form32`, `FormImm`: a register operand, a legal operand in memory, an
operand in memory that raises, and the three entry checks. -/
theorem witness_Form64_Form32 :
    withData.entryClear ∧ withData.readable (.reg .mm1 : Rm Mm) 8 ∧ withData.readable (.mem atEbx : Rm Mm) 8
    ∧ withData.readable (.mem atEbx : Rm Mm) 4
    ∧ limited.accessCheck (operandSegment atEbx) ((limited.withEbx 0x2FF9).effectiveAddress atEbx.addr) 8 .read
        = .error .generalProtection
    ∧ ({ flat with cr0Em := true }).cr0Em = true
    ∧ (({ flat with cr0Ts := true }).cr0Em = false ∧ ({ flat with cr0Ts := true }).cr0Ts = true)
    ∧ ({ flat with fpPending := true }).cr0Em = false ∧ ({ flat with fpPending := true }).cr0Ts = false
    ∧ ({ flat with fpPending := true }).fpPending = true :=
  ⟨by decide, (by intro m h; cases h), (by intro m h; cases h; decide +kernel), (by intro m h; cases h; decide +kernel),
    errorOf_some (by decide +kernel), rfl, ⟨rfl, rfl⟩, rfl, rfl, rfl⟩

theorem witness_PmaddwdWrapsOnlyOnFourMinima :
    let s := (flat.writeMm .mm0 0x8000800080008000).writeMm .mm1 0x8000800080007FFF
    (∃ t, exec (.pmaddwd .mm0 (.reg .mm1)) s = .next t) ∧ s.readable (.reg .mm1 : Rm Mm) 8
    ∧ lane 16 (s.readMm .mm0) 3 = 0x8000 ∧ lane 16 (s.value64 (.reg .mm1)) 3 = 0x8000
    ∧ lane 16 (s.value64 (.reg .mm1)) 0 ≠ 0x8000 :=
  ⟨exists_next (by decide +kernel), (by intro m h; cases h), by decide, by decide, by decide⟩

theorem witness_FullProductFromTwoHalves :
    withData.readable (.mem atEbx : Rm Mm) 8 ∧ (∃ t, exec (.pmulhw .mm0 (.mem atEbx)) withData = .next t)
    ∧ ∃ t, exec (.pmullw .mm0 (.mem atEbx)) withData = .next t :=
  ⟨(by intro m h; cases h; decide +kernel), exists_next (by decide +kernel), exists_next (by decide +kernel)⟩

theorem witness_ImmediateAndRegisterCountsAgree :
    (flat.writeMm .mm1 0xFF).readMm .mm1 = (0xFF : Byte).setWidth 64 ∧ (flat.writeMm .mm1 0xFF).entryClear := by decide

theorem witness_MovdLoadZeroExtends :
    withData.entryClear ∧ withData.readable (.reg .esp : Rm Gpr) 4 ∧ withData.readable (.mem atEbx : Rm Gpr) 4 :=
  ⟨by decide, (by intro m h; cases h), (by intro m h; cases h; decide +kernel)⟩

/-- The hypotheses of `StoresToMemory`, for stores of four and of eight bytes next to the program and on it. -/
theorem witness_MovdStore_MovqStore :
    storing.entryClear ∧ (storing.withEbx 0xFF8).operandLegal atEbx 8 .write
    ∧ (storing.withEbx 0xFF8).storeHitsProgram ((storing.withEbx 0xFF8).operandAddress atEbx) 8 = false
    ∧ (storing.withEbx 0xFF9).storeHitsProgram ((storing.withEbx 0xFF9).operandAddress atEbx) 8 = true
    ∧ (storing.withEbx 0x1003).storeHitsProgram ((storing.withEbx 0x1003).operandAddress atEbx) 4 = false
    ∧ (storing.withEbx 0x1002).storeHitsProgram ((storing.withEbx 0x1002).operandAddress atEbx) 4 = true
    ∧ readOnly.accessCheck .ds 0x2000 4 .write = .error .generalProtection
    ∧ (storing.withEbx 0xFF8).mem.wf = true :=
  ⟨by decide, by decide +kernel, by decide +kernel, by decide +kernel, by decide +kernel, by decide +kernel,
    errorOf_some (by decide +kernel), by decide +kernel⟩

/-- The one hypothesis of ShiftsByImmediate, RegisterMoveEncodingsAgree, EmmsEmptiesTheTagWord and SameRegisterOperands. -/
theorem witness_SameRegisterOperands : flat.entryClear := by decide

end Sys2Proof.Tests
end

section
/-!
The scope of a step (spec/00_scope.md): a step is the fetch of an instruction and its meaning, with nothing around it.
-/

namespace Sys2Proof.Machine

/-- A step whose fetch answers an instruction is that instruction's meaning, whatever its outcome (`step_next` goes the other way). -/
theorem step_of_fetch_ok {s : State} {i : Instr} (h : s.fetch = .ok i) : step s = exec i s := by
  simp only [step, h]

/-- Inside a fetchable program, an instruction that the bytes at EIP decode to is the one fetched (`State.fetch_ok`
goes the other way). -/
theorem State.fetch_of_decode_ok {s : State} {i : Instr} {rest : List Byte} (hin : s.eipInProgram = true)
    (hf : s.programFetchable) (hd : decode s.addrSize s.fetchBytes = .ok (i, rest)) : s.fetch = .ok i := by
  simp only [State.fetch_inside hin hf, hd]

/-- Settles O25: the decoded instruction is the fetched one, and the step is its meaning. -/
theorem stepRunsTheDecodedInstruction : Obligations.StepRunsTheDecodedInstruction := by
  intro s i rest hin hf hd
  exact step_of_fetch_ok (State.fetch_of_decode_ok hin hf hd)

end Sys2Proof.Machine
end

section
/-!
What a completed instruction leaves unchanged (spec/10_state.md R46), read off the four effects of `exec_next`.
-/

namespace Sys2Proof.Machine

theorem Effect.sameControl {i : Instr} {s t : State} (h : Effect i s t) : s.sameControl t := by
  cases h <;> simp [State.sameControl]

theorem Effect.eip {i : Instr} {s t : State} (h : Effect i s t) : t.eip = s.eip + BitVec.ofNat 32 i.length := by
  cases h <;> simp

theorem Effect.tw {i : Instr} {s t : State} (h : Effect i s t) :
    t.tw = if i = .emms then 0xFFFF#16 else 0x0000#16 := by
  cases h with
  | emms hi => rw [if_pos hi]; rfl
  | mm hi d r hd => rw [if_neg hi]; rfl
  | gpr d src v hi => rw [hi, if_neg (by simp)]; rfl
  | store hi m bytes hm ha hd hp => rw [if_neg hi]; rfl

/-- An MMX register other than the form's one destination keeps its value (R32). -/
theorem Effect.readMm_other {i : Instr} {s t : State} (h : Effect i s t) {r : Mm} (hr : i.destMm ≠ some r) :
    t.readMm r = s.readMm r := by
  cases h with
  | emms hi => rfl
  | mm hi d v hd =>
    have hne : r ≠ d := by
      rintro rfl
      exact hr hd
    exact MmFile.get_set_other s.mm d r v hne
  | gpr d src v hi => rfl
  | store hi m bytes hm ha hd hp => simp [State.readMm]

/-- An integer register other than the destination of `MOVD r32, mm` keeps its value (R36). -/
theorem Effect.readGpr_other {i : Instr} {s t : State} (h : Effect i s t) {g : Gpr}
    (hg : ∀ src, i ≠ .movdStore (.reg g) src) : t.readGpr g = s.readGpr g := by
  cases h with
  | emms hi => rfl
  | mm hi d v hd => rfl
  | gpr d src v hi =>
    have hne : g ≠ d := by
      rintro rfl
      exact hg src hi
    exact GprFile.get_set_other s.gpr d g v hne
  | store hi m bytes hm ha hd hp => simp [State.readGpr]

/-- Only a store to memory changes memory. -/
theorem Effect.mem_eq {i : Instr} {s t : State} (h : Effect i s t)
    (hn : (∀ n, i.access ≠ some (n, .write)) ∨ i.memOperand? = none) : t.mem = s.mem := by
  cases h with
  | emms hi => rfl
  | mm hi d v hd => rfl
  | gpr d src v hi => rfl
  | store hi m bytes hm ha hd hp =>
    rcases hn with hn | hn
    · exact absurd ha (hn _)
    · simp [hn] at hm

theorem State.mem_operandBytes (s : State) (a : Dword) (n x : Nat) :
    x ∈ s.operandBytes a n ↔ ∃ k < n, (s.physical (a + BitVec.ofNat 32 k)).toNat = x := by
  simp [State.operandBytes]

/-- A store changes no byte of memory outside its operand (R66). -/
theorem Effect.read_other {i : Instr} {s t : State} (h : Effect i s t) {m : MemOperand} {n x : Nat}
    (hm : i.memOperand? = some m) (ha : i.access = some (n, .write))
    (hx : x ∉ s.operandBytes (s.operandAddress m) n) : t.mem.read x = s.mem.read x := by
  cases h with
  | emms hi => rfl
  | mm hi d v hd => rfl
  | gpr d src v hi => rfl
  | store hi m' bytes hm' ha' hd hp =>
    obtain rfl : m' = m := by simpa [hm'] using hm
    obtain rfl : bytes.length = n := by simpa [ha'] using ha
    refine State.read_storeBytes_other s _ bytes x fun k hk hxk => hx ?_
    exact (State.mem_operandBytes s _ _ x).2 ⟨k, hk, hxk.symm⟩

/-- Settles O27: each part of R46's list is one law of the effects. -/
theorem completeListOfChanges : Obligations.CompleteListOfChanges := by
  intro i s t h
  obtain ⟨-, he⟩ := exec_next h
  exact ⟨he.sameControl, he.eip, he.tw, fun _ => he.readMm_other, fun _ => he.readGpr_other, he.mem_eq,
    fun _ _ hm ha _ => he.read_other hm ha⟩

end Sys2Proof.Machine
end

section
/-!
TW and the condition flags are read by no instruction (spec/10_state.md R33, R38). Both follow from one law,
`exec_withStatus`: with another tag word and other flags an instruction has the same outcome, whose state differs in the
flags alone, because every completion writes TW.
-/

namespace Sys2Proof.Machine

/-- The state with another tag word and other condition flags. -/
def State.withStatus (s : State) (w : BitVec 16) (c : CondFlags) : State := { s with tw := w, flags := c }

/-- The state with other condition flags. -/
def State.withFlags (s : State) (c : CondFlags) : State := { s with flags := c }

/-- An outcome whose next state, where it has one, is changed by `g`. -/
def mapNext (g : State → State) : Host.Outcome State Fault Refusal → Host.Outcome State Fault Refusal
  | .next t => .next (g t)
  | .fault f => .fault f
  | .refused r => .refused r


section
variable (s : State) (w : BitVec 16) (c : CondFlags)

/-! ### What the operations read -/

@[simp] theorem State.withStatus_source64 (src : Rm Mm) : (s.withStatus w c).source64 src = s.source64 src := by
  cases src <;> rfl

@[simp] theorem State.withStatus_source32 (src : Rm Mm) : (s.withStatus w c).source32 src = s.source32 src := by
  cases src <;> rfl

@[simp] theorem State.withStatus_sourceGpr (src : Rm Gpr) : (s.withStatus w c).sourceGpr src = s.sourceGpr src := by
  cases src <;> rfl

@[simp] theorem State.withStatus_effectiveAddress (a : Addr) :
    (s.withStatus w c).effectiveAddress a = s.effectiveAddress a := by
  cases a <;> rfl

theorem State.storeBytes_withStatus (a : Dword) (bytes : List Byte) :
    (s.withStatus w c).storeBytes a bytes = (s.storeBytes a bytes).withStatus w c := by
  induction bytes generalizing s a with
  | nil => rfl
  | cons b bs ih => exact ih (s.setByte a b) (a + 1)

theorem State.memWrite_withStatus (seg : SegReg) (ea : Dword) (bytes : List Byte) :
    (s.withStatus w c).memWrite seg ea bytes = mapNext (·.withStatus w c) (s.memWrite seg ea bytes) := by
  have hcheck : (s.withStatus w c).accessCheck seg ea bytes.length .write
      = s.accessCheck seg ea bytes.length .write := State.accessCheck_congr rfl rfl rfl rfl rfl seg ea _ _
  have hhits : ∀ a, (s.withStatus w c).storeHitsProgram a bytes.length = s.storeHitsProgram a bytes.length :=
    fun _ => rfl
  simp only [State.memWrite, hcheck, hhits, State.storeBytes_withStatus]
  cases s.accessCheck seg ea bytes.length .write with
  | error f => rfl
  | ok a =>
    dsimp only
    split <;> rfl

/-! ### The shared shapes -/

/-- The entry checks read neither TW nor the flags. -/
theorem checked_withStatus {g : State → State} {body body' : Host.Outcome State Fault Refusal}
    (h : body' = mapNext g body) : checked (s.withStatus w c) body' = mapNext g (checked s body) := by
  have he : (s.withStatus w c).entryFault = s.entryFault := rfl
  simp only [checked, he, h]
  cases s.entryFault <;> rfl

theorem storeToMemory_withStatus (m : MemOperand) (bytes : List Byte) (len : Nat) :
    storeToMemory m bytes len (s.withStatus w c) = mapNext (·.withFlags c) (storeToMemory m bytes len s) := by
  simp only [storeToMemory, State.withStatus_effectiveAddress, State.memWrite_withStatus]
  cases s.memWrite (operandSegment m) (s.effectiveAddress m.addr) bytes <;> rfl

theorem packed64_withStatus (f : Qword → Qword → Qword) (d : Mm) (src : Rm Mm) :
    packed64 f d src (s.withStatus w c) = mapNext (·.withFlags c) (packed64 f d src s) := by
  refine checked_withStatus s w c ?_
  rw [State.withStatus_source64]
  cases s.source64 src <;> rfl

theorem packed32_withStatus (f : Qword → Dword → Qword) (d : Mm) (src : Rm Mm) :
    packed32 f d src (s.withStatus w c) = mapNext (·.withFlags c) (packed32 f d src s) := by
  refine checked_withStatus s w c ?_
  rw [State.withStatus_source32]
  cases s.source32 src <;> rfl

/-- No instruction reads TW or the flags, and none writes the flags. -/
theorem exec_withStatus (i : Instr) : exec i (s.withStatus w c) = mapNext (·.withFlags c) (exec i s) := by
  cases exec_shape i with
  | emms hi => subst hi; exact checked_withStatus s w c rfl
  | packed64 f d src hi hx hl hm ha hd => simp only [hx, packed64_withStatus]
  | packed32 f d src hi hx hl hm ha hd => simp only [hx, packed32_withStatus]
  | imm f d imm hi hx hl hm ha hd => simp only [hx]; exact checked_withStatus s w c rfl
  | movdLoad d src hi =>
    subst hi
    refine checked_withStatus s w c ?_
    rw [State.withStatus_sourceGpr]
    cases s.sourceGpr src <;> rfl
  | movdStore dst src hi =>
    subst hi
    refine checked_withStatus s w c ?_
    cases dst with
    | reg r => rfl
    | mem m => exact storeToMemory_withStatus s w c m _ _
  | movqStore dst src hi =>
    subst hi
    refine checked_withStatus s w c ?_
    cases dst with
    | reg r => rfl
    | mem m => exact storeToMemory_withStatus s w c m _ _

theorem exec_flags {i : Instr} {s t : State} (h : exec i s = .next t) : t.flags = s.flags := by
  obtain ⟨-, he⟩ := exec_next h
  obtain ⟨hflags, -⟩ := he.sameControl
  exact hflags

/-- No instruction reads TW: where it completes, the next state's flags are the old ones, so nothing differs. -/
theorem exec_withTags (i : Instr) : exec i { s with tw := w } = exec i s := by
  have h : exec i { s with tw := w } = mapNext (·.withFlags s.flags) (exec i s) := exec_withStatus s w s.flags i
  rw [h]
  cases ht : exec i s with
  | next t =>
    rw [← exec_flags ht]
    rfl
  | fault f => rfl
  | refused r => rfl

theorem exec_withFlags (i : Instr) : exec i { s with flags := c } = mapNext (·.withFlags c) (exec i s) :=
  exec_withStatus s s.tw c i

end

/-- Settles O28: TW by the law of the effects, its being unread by `exec_withTags`. -/
theorem tagWordIsWrittenAndNeverRead : Obligations.TagWordIsWrittenAndNeverRead := by
  refine fun i s => ⟨fun t h => ?_, fun w => exec_withTags s w i⟩
  obtain ⟨-, he⟩ := exec_next h
  exact ⟨fun hi => he.tw.trans (if_pos hi), fun hi => he.tw.trans (if_neg hi)⟩

/-- Settles O29: one law, `exec_withFlags`, in each of the three outcomes. -/
theorem conditionFlagsAreNeitherReadNorWritten : Obligations.ConditionFlagsAreNeitherReadNorWritten := by
  refine fun i s c => ⟨fun t h => ⟨exec_flags h, ?_⟩, fun f h => ?_, fun r h => ?_⟩ <;>
    rw [exec_withFlags, h] <;> rfl

end Sys2Proof.Machine
end

section
/-!
A program that is loaded (spec/70_reset_and_hazards.md R272) puts the machine into the invariant of a run.
-/

namespace Sys2Proof.Machine

/-- Loading meets the invariant of a run where the program's end is still an offset: EIP is its first byte. -/
theorem State.loadProgram_runInv {s : State} {bytes : List Byte} (hwf : s.mem.wf = true)
    (hend : s.eip.toNat + bytes.length < 2 ^ 32) : (s.loadProgram bytes).runInv := by
  have heip : (s.loadProgram bytes).eip = s.eip := State.storeBytes_eip bytes s _
  refine ⟨State.storeBytes_wf _ bytes hwf, hend, ?_, ?_⟩ <;> rw [heip]
  · exact Nat.le_refl s.eip.toNat
  · exact Nat.le_add_right s.eip.toNat bytes.length

/-- Settles O31: reset by its values, the placed word as any program that is loaded. -/
theorem resetMeetsTheRunInvariant : Obligations.ResetMeetsTheRunInvariant :=
  ⟨by decide, State.loadProgram_runInv rfl (by decide)⟩

end Sys2Proof.Machine
end

section
/-!
What the decoder accepts, layer by layer: each layer answers fields whose encoding is the bytes it took
(spec/30_encoding.md R90 to R111). `decode_ok` assembles them; `length_encode` is R106.
-/

namespace Sys2Proof

/-! ### Prefixes -/

theorem eq_byte_of_prefixByte_seg {b : Byte} {g : SegReg} (h : prefixByte b = .seg g) : b = g.byte := by
  unfold prefixByte at h
  split_ifs at h <;> cases h <;> assumption

theorem eq_67_of_prefixByte_addr {b : Byte} (h : prefixByte b = .addr) : b = 0x67 := by
  unfold prefixByte at h
  split_ifs at h
  assumption

theorem scanPrefixes_ok {bytes rest : List Byte} {p : Prefixes} (h : scanPrefixes bytes = .ok (p, rest)) :
    bytes = p.bytes ++ rest := by
  unfold scanPrefixes at h
  split at h
  · cases h
  rename_i b bs
  split at h
  · cases h
  · cases h
    rfl
  · rename_i g hb
    obtain rfl := eq_byte_of_prefixByte_seg hb
    split at h
    · cases h
    rename_i c cs
    split at h
    · cases h
    · cases h
    · cases h
      rfl
    · rename_i hc
      obtain rfl := eq_67_of_prefixByte_addr hc
      split at h
      · cases h
      split at h <;> cases h
      rfl
  · rename_i hb
    obtain rfl := eq_67_of_prefixByte_addr hb
    split at h
    · cases h
    rename_i c cs
    split at h
    · cases h
    · cases h
    · cases h
      rfl
    · rename_i g hc
      obtain rfl := eq_byte_of_prefixByte_seg hc
      split at h
      · cases h
      split at h <;> cases h
      rfl

/-! ### Addresses -/

theorem mod_eq_two {mod : BitVec 2} (h0 : mod ≠ 0) (h1 : mod ≠ 1) (h3 : mod ≠ 3) : mod = 2 := by
  revert mod; decide

theorem Base16.wf_base_ofCode {rm : BitVec 3} (h : rm ≠ 6) : (Addr16.base (Base16.ofCode rm)).wf = true := by
  revert rm; decide

theorem Gpr.ofCode_ne_esp {c : BitVec 3} (h : c ≠ 4) : (Gpr.ofCode c != .esp) = true := by
  revert c; decide

theorem Gpr.ofCode_ne_ebp {c : BitVec 3} (h : c ≠ 5) : (Gpr.ofCode c != .ebp) = true := by
  revert c; decide

/-- What a field taken off the head of the bytes became, with the same bytes left. -/
theorem exists_of_map_tail {α β : Type} {field : Option (α × List Byte)} {mk : α → β} {b : β} {rest : List Byte}
    (h : (field.map fun (d, bs) => (mk d, bs)) = some (b, rest)) : ∃ d, field = some (d, rest) ∧ b = mk d := by
  obtain ⟨⟨d, bs⟩, hd, he⟩ := Option.map_eq_some_iff.1 h
  cases he
  exact ⟨d, hd, rfl⟩

theorem decodeAddr16_ok {mod : BitVec 2} {rm : BitVec 3} {bs rest : List Byte} {a : Addr16} (hmod : mod ≠ 3)
    (h : decodeAddr16 mod rm bs = some (a, rest)) :
    a.wf = true ∧ ∃ tail, a.fields = (mod, rm, tail) ∧ bs = tail ++ rest := by
  unfold decodeAddr16 at h
  split_ifs at h with h0 h6 h1
  · obtain ⟨d, hd, rfl⟩ := exists_of_map_tail h
    subst h0 h6
    exact ⟨rfl, _, rfl, takeDisp16_inv hd⟩
  · cases h
    subst h0
    exact ⟨Base16.wf_base_ofCode h6, [], by simp [Addr16.fields], rfl⟩
  · obtain ⟨d, hd, rfl⟩ := exists_of_map_tail h
    subst h1
    exact ⟨rfl, [d], by simp [Addr16.fields], takeDisp8_inv hd⟩
  · obtain ⟨d, hd, rfl⟩ := exists_of_map_tail h
    obtain rfl := mod_eq_two h0 h1 hmod
    exact ⟨rfl, _, by simp [Addr16.fields], takeDisp16_inv hd⟩

theorem decodeSib_ok {mod : BitVec 2} {sib : Byte} {bs rest : List Byte} {a : Addr32} (hmod : mod ≠ 3)
    (h : decodeSib mod sib bs = some (a, rest)) :
    a.wf = true ∧ ∃ tail, a.fields = (mod, 4, tail) ∧ sib :: bs = tail ++ rest := by
  have hsib := sibByte_decodeIndex sib
  have hx := decodeIndex_wf sib
  unfold decodeSib at h
  split_ifs at h with h0 h5 h1
  · obtain ⟨d, hd, rfl⟩ := exists_of_map_tail h
    subst h0
    rw [h5] at hsib
    exact ⟨hx, _, rfl, by rw [takeDisp32_inv hd, hsib]; rfl⟩
  · cases h
    subst h0
    exact ⟨by simp [Addr32.wf, hx, Gpr.ofCode_ne_ebp h5], [sib], by simp [Addr32.fields, hsib], rfl⟩
  · obtain ⟨d, hd, rfl⟩ := exists_of_map_tail h
    subst h1
    exact ⟨hx, [sib, d], by simp [Addr32.fields, hsib], by rw [takeDisp8_inv hd]; rfl⟩
  · obtain ⟨d, hd, rfl⟩ := exists_of_map_tail h
    obtain rfl := mod_eq_two h0 h1 hmod
    exact ⟨hx, sib :: disp32Bytes d, by simp [Addr32.fields, hsib], by rw [takeDisp32_inv hd]; rfl⟩

theorem decodeAddr32_ok {mod : BitVec 2} {rm : BitVec 3} {bs rest : List Byte} {a : Addr32} (hmod : mod ≠ 3)
    (h : decodeAddr32 mod rm bs = some (a, rest)) :
    a.wf = true ∧ ∃ tail, a.fields = (mod, rm, tail) ∧ bs = tail ++ rest := by
  unfold decodeAddr32 at h
  split_ifs at h with h4 h0 h5 h1
  · subst h4
    cases bs with
    | nil => cases h
    | cons sib bs => exact decodeSib_ok hmod h
  · obtain ⟨d, hd, rfl⟩ := exists_of_map_tail h
    subst h0 h5
    exact ⟨rfl, _, rfl, takeDisp32_inv hd⟩
  · cases h
    subst h0
    exact ⟨by simp [Addr32.wf, Gpr.ofCode_ne_esp h4, Gpr.ofCode_ne_ebp h5], [], by simp [Addr32.fields], rfl⟩
  · obtain ⟨d, hd, rfl⟩ := exists_of_map_tail h
    subst h1
    exact ⟨Gpr.ofCode_ne_esp h4, [d], by simp [Addr32.fields], takeDisp8_inv hd⟩
  · obtain ⟨d, hd, rfl⟩ := exists_of_map_tail h
    obtain rfl := mod_eq_two h0 h1 hmod
    exact ⟨Gpr.ofCode_ne_esp h4, _, by simp [Addr32.fields], takeDisp32_inv hd⟩

theorem decodeAddr_ok {size : AddrSize} {mod : BitVec 2} {rm : BitVec 3} {bs rest : List Byte} {a : Addr}
    (hmod : mod ≠ 3) (h : decodeAddr size mod rm bs = some (a, rest)) :
    a.wf = true ∧ a.size = size ∧ ∃ tail, a.fields = (mod, rm, tail) ∧ bs = tail ++ rest := by
  cases size with
  | a16 =>
    obtain ⟨a', ha, rfl⟩ := exists_of_map_tail h
    obtain ⟨hwf, hbytes⟩ := decodeAddr16_ok hmod ha
    exact ⟨hwf, rfl, hbytes⟩
  | a32 =>
    obtain ⟨a', ha, rfl⟩ := exists_of_map_tail h
    obtain ⟨hwf, hbytes⟩ := decodeAddr32_ok hmod ha
    exact ⟨hwf, rfl, hbytes⟩

/-! ### Shapes -/

/-- The memory operand of a shape, where it has one. -/
def Shape.mem? : Shape → Option MemOperand
  | .e _ => none
  | .ri _ _ _ _ => none
  | .mm _ _ rm => rm.mem?
  | .gpr _ _ rm => rm.mem?

theorem Instr.mem?_shape (i : Instr) : i.shape.mem? = i.memOperand? := by cases i <;> rfl

theorem Instr.wf_iff (dflt : AddrSize) (i : Instr) :
    i.wf dflt = true ↔ ∀ m, i.memOperand? = some m → m.wf dflt = true := by
  unfold Instr.wf
  cases i.memOperand? <;> simp

/-- The r/m operand with its ModR/M byte: well formed, and its encoding is the bytes taken. -/
theorem decodeRm_ok {ρ : Type} {ofCode : BitVec 3 → ρ} {code : ρ → BitVec 3} (hcode : ∀ c, code (ofCode c) = c)
    {dflt : AddrSize} {p : Prefixes} {modrm : Byte} {bs rest : List Byte} {rm : Rm ρ} (op : Byte)
    (h : decodeRm ofCode dflt p modrm bs = .ok (rm, rest)) :
    (∀ m, rm.mem? = some m → m.wf dflt = true)
      ∧ p.bytes ++ 0x0F :: op :: modrm :: bs = rm.bytes code op (Mm.ofCode (fieldMid modrm)) ++ rest := by
  have hfields := fieldsByte_fields modrm
  unfold decodeRm at h
  split_ifs at h with h3 hp
  · cases h
    subst hp
    rw [h3] at hfields
    exact ⟨by simp [Rm.mem?], by simpa [Rm.bytes, Prefixes.bytes, hcode] using hfields.symm⟩
  · split at h
    · cases h
    rename_i a bs' ha
    cases h
    obtain ⟨hwf, hsize, tail, hf, rfl⟩ := decodeAddr_ok h3 ha
    refine ⟨fun m hm => ?_, by simp [Rm.bytes, hf, hfields]⟩
    cases hm
    simp [MemOperand.wf, hwf, hsize]

theorem decodeOperands_ok {dflt : AddrSize} {p : Prefixes} {op : Byte} {fmt : Format} {bs rest : List Byte}
    {sh : Shape} (h : decodeOperands dflt p op fmt bs = .ok (sh, rest)) :
    (∀ m, sh.mem? = some m → m.wf dflt = true) ∧ p.bytes ++ 0x0F :: op :: bs = sh.bytes ++ rest := by
  cases fmt with
  | e =>
    simp only [decodeOperands] at h
    split_ifs at h with hp
    cases h
    subst hp
    exact ⟨by simp [Shape.mem?], rfl⟩
  | ri =>
    simp only [decodeOperands] at h
    split at h
    · cases h
    rename_i modrm bs'
    split_ifs at h with h3 hp
    split at h
    · cases h
    rename_i imm bs''
    cases h
    subst hp
    have hfields := fieldsByte_fields modrm
    rw [h3] at hfields
    exact ⟨by simp [Shape.mem?], by simpa [Shape.bytes, Prefixes.bytes] using hfields.symm⟩
  | mm =>
    simp only [decodeOperands] at h
    split at h
    · cases h
    split at h
    · cases h
    rename_i hrm
    cases h
    obtain ⟨hwf, hbytes⟩ := decodeRm_ok Mm.code_ofCode op hrm
    exact ⟨hwf, hbytes⟩
  | gpr =>
    simp only [decodeOperands] at h
    split at h
    · cases h
    split at h
    · cases h
    rename_i hrm
    cases h
    obtain ⟨hwf, hbytes⟩ := decodeRm_ok Gpr.code_ofCode op hrm
    exact ⟨hwf, hbytes⟩

theorem decodeShape_ok {dflt : AddrSize} {bytes rest : List Byte} {sh : Shape}
    (h : decodeShape dflt bytes = .ok (sh, rest)) :
    (∀ m, sh.mem? = some m → m.wf dflt = true) ∧ bytes = sh.bytes ++ rest := by
  unfold decodeShape at h
  split at h
  · cases h
  rename_i p bs hp
  rw [scanPrefixes_ok hp]
  split at h
  · cases h
  split_ifs at h with h0F
  subst h0F
  split at h
  · cases h
  split at h
  · cases h
  exact decodeOperands_ok h

/-! ### The opcode map -/

theorem mem_of_lookup {α β : Type} [BEq α] [LawfulBEq α] {k : α} {b : β} {l : List (α × β)} (h : l.lookup k = some b) :
    (k, b) ∈ l := by
  obtain ⟨l₁, l₂, rfl, -⟩ := List.lookup_eq_some_iff.1 h
  simp

theorem shape_of_mmRows (reg : Mm) (rm : Rm Mm) : ∀ row ∈ mmRows, (row.2 reg rm).shape = .mm row.1 reg rm := by
  simp [mmRows, dataTransferRows, arithmeticRows, comparisonRows, conversionRows, logicalRows, shiftRows, Instr.shape]

theorem shape_of_gprRows (reg : Mm) (rm : Rm Gpr) : ∀ row ∈ gprRows, (row.2 reg rm).shape = .gpr row.1 reg rm := by
  simp [gprRows, Instr.shape]

theorem shape_of_groupRows (d : Mm) (imm : Byte) :
    ∀ row ∈ groupRows, (row.2 d imm).shape = .ri row.1.1 row.1.2 d imm := by
  simp [groupRows, Instr.shape]

/-- The instruction that the opcode map answers for a shape has that shape (`Laws.OpcodeMap` goes the other way). -/
theorem Shape.instr_ok {sh : Shape} {i : Instr} (h : sh.instr = .ok i) : i.shape = sh := by
  cases sh with
  | e op =>
    simp only [Shape.instr] at h
    split_ifs at h with hop
    cases h
    rw [hop]
    rfl
  | ri op digit d imm =>
    simp only [Shape.instr] at h
    split at h
    · rename_i f hf
      cases h
      exact shape_of_groupRows d imm _ (mem_of_lookup hf)
    · cases h
  | mm op reg rm =>
    simp only [Shape.instr] at h
    split at h
    · rename_i f hf
      cases h
      exact shape_of_mmRows reg rm _ (mem_of_lookup hf)
    · cases h
  | gpr op reg rm =>
    simp only [Shape.instr] at h
    split at h
    · rename_i f hf
      cases h
      exact shape_of_gprRows reg rm _ (mem_of_lookup hf)
    · cases h

/-- What the decoder accepts begins with the encoding of the well-formed instruction it answers. -/
theorem decode_ok {dflt : AddrSize} {bytes rest : List Byte} {i : Instr} (h : decode dflt bytes = .ok (i, rest)) :
    i.wf dflt = true ∧ bytes = encode i ++ rest := by
  unfold decode at h
  split at h
  · cases h
  rename_i sh rest' hsh
  split at h
  · cases h
  rename_i i' hi
  cases h
  obtain rfl := Shape.instr_ok hi
  obtain ⟨hwf, hbytes⟩ := decodeShape_ok hsh
  rw [Instr.mem?_shape] at hwf
  exact ⟨(Instr.wf_iff dflt _).2 hwf, hbytes⟩

/-! ### The length of an encoding (R106) -/

theorem Prefixes.length_bytes (p : Prefixes) : p.bytes.length = p.count := by cases p <;> rfl

theorem Addr.length_fields (a : Addr) : a.fields.2.2.length = a.tailLength := by
  obtain a | a := a <;> cases a <;> rfl

theorem Rm.length_bytes {ρ : Type} (code : ρ → BitVec 3) (op : Byte) (reg : Mm) (rm : Rm ρ) :
    (rm.bytes code op reg).length = rm.length := by
  cases rm with
  | reg r => rfl
  | mem m => simp [Rm.bytes, Rm.length, Prefixes.length_bytes, Addr.length_fields]; omega

theorem Shape.length_bytes (sh : Shape) : sh.bytes.length = sh.length := by
  cases sh with
  | e op => rfl
  | ri op digit d imm => rfl
  | mm op reg rm => exact Rm.length_bytes Mm.code op reg rm
  | gpr op reg rm => exact Rm.length_bytes Gpr.code op reg rm

theorem length_encode (i : Instr) : (encode i).length = i.length := i.shape.length_bytes

end Sys2Proof
end

section
/-!
Where a completed step leaves EIP (spec/10_state.md R37, D19): past the bytes that the fetch read, inside the program.
-/

namespace Sys2Proof.Machine

theorem State.length_fetchBytes (s : State) : s.fetchBytes.length = min maxLength s.programBytesLeft := by
  simp [State.fetchBytes]

theorem State.eipInProgram_iff (s : State) :
    s.eipInProgram = true ↔ s.program.first.toNat ≤ s.eip.toNat
      ∧ s.eip.toNat < s.program.first.toNat + s.program.length := by
  simp [State.eipInProgram]

/-- An address that stays below 2^32 does not wrap. -/
theorem toNat_add_ofNat {a : Dword} {n : Nat} (h : a.toNat + n < 2 ^ 32) :
    (a + BitVec.ofNat 32 n).toNat = a.toNat + n := by
  rw [BitVec.toNat_add, BitVec.toNat_ofNat, Nat.add_mod_mod, Nat.mod_eq_of_lt h]

/-- Bytes that the fetch read at EIP inside the program end inside the program. -/
theorem State.fetched_inside {s : State} {bytes rest : List Byte} (hin : s.eipInProgram = true)
    (h : s.fetchBytes = bytes ++ rest) : s.eip.toNat + bytes.length ≤ s.program.first.toNat + s.program.length := by
  obtain ⟨-, hlt⟩ := (State.eipInProgram_iff s).1 hin
  have hlen : bytes.length ≤ s.programBytesLeft := by
    calc bytes.length ≤ (bytes ++ rest).length := by simp
      _ = min maxLength s.programBytesLeft := by rw [← h, State.length_fetchBytes]
      _ ≤ s.programBytesLeft := Nat.min_le_right _ _
  unfold State.programBytesLeft at hlen
  omega

/-- Settles O34: the decoder took the encoding of the instruction, and the fetch read no byte beyond the program. -/
theorem stepAdvancesPastItsBytes : Obligations.StepAdvancesPastItsBytes := by
  intro s t h
  obtain ⟨i, hfetch, hexec⟩ := step_next h
  obtain ⟨-, hin, ⟨-, hcsFirst, hcsLast, hbound, -⟩, rest, hdecode⟩ := State.fetch_ok hfetch
  obtain ⟨hwf, hbytes⟩ := decode_ok hdecode
  obtain ⟨-, heffect⟩ := exec_next hexec
  obtain ⟨hfirst, -⟩ := (State.eipInProgram_iff s).1 hin
  have hend := State.fetched_inside hin hbytes
  have heip : t.eip = s.eip + BitVec.ofNat 32 (encode i).length := by rw [length_encode, heffect.eip]
  have hnowrap : t.eip.toNat = s.eip.toNat + (encode i).length := by
    rw [heip, toNat_add_ofNat (Nat.lt_of_le_of_lt hend hbound)]
  exact ⟨i, rest, hbytes, hwf, hexec, heip, hfirst, hend, hnowrap, hcsFirst.trans hfirst, hend.trans hcsLast⟩

end Sys2Proof.Machine
end

section
/-!
The program's own bytes (spec/20_memory.md R78, spec/70_reset_and_hazards.md R280, decision D16): a store that would
write one is refused, so no completed step changes one.
-/

namespace Sys2Proof.Machine

/-! ### Which stores meet the program -/

/-- The memory address of the program's byte j. -/
def State.programAddress (s : State) (j : Nat) : Dword :=
  s.physical (s.codeLinear (s.program.first + BitVec.ofNat 32 j))

theorem State.isProgramByte_iff (s : State) (x : Dword) :
    s.isProgramByte x = true ↔ ∃ j < s.program.length, x = s.programAddress j := by
  simp only [State.isProgramByte, State.programAddress, List.any_eq_true, List.mem_range, beq_iff_eq, eq_comm (a := x)]

theorem State.storeHitsProgram_iff (s : State) (a : Dword) (n : Nat) :
    s.storeHitsProgram a n = true ↔
      ∃ k < n, ∃ j < s.program.length, s.physical (a + BitVec.ofNat 32 k) = s.programAddress j := by
  simp only [State.storeHitsProgram, List.any_eq_true, List.mem_range, State.isProgramByte_iff]

/-- A store that hits no program byte leaves every memory address of the program alone, through whichever linear
address it stores. -/
theorem State.read_storeBytes_program {s : State} {a : Dword} {bytes : List Byte}
    (hp : s.storeHitsProgram a bytes.length = false) {j : Nat} (hj : j < s.program.length) :
    (s.storeBytes a bytes).mem.read (s.programAddress j).toNat = s.mem.read (s.programAddress j).toNat := by
  refine State.read_storeBytes_other s a bytes _ fun k hk heq => ?_
  have hhit := (State.storeHitsProgram_iff s a bytes.length).2 ⟨k, hk, j, hj, (BitVec.eq_of_toNat_eq heq).symm⟩
  simp [hp] at hhit

/-! ### No step writes the program -/

theorem Effect.read_program {i : Instr} {s t : State} (h : Effect i s t) {j : Nat} (hj : j < s.program.length) :
    t.mem.read (s.programAddress j).toNat = s.mem.read (s.programAddress j).toNat := by
  cases h with
  | emms hi => rfl
  | mm hi d r hd => rfl
  | gpr d src v hi => rfl
  | store hi m bytes hm ha hd hp => exact State.read_storeBytes_program hp hj

/-- Settles O32: the mapping is launch data, so each program byte is read where it was, and no effect wrote it. -/
theorem programTextIsFixed : Obligations.ProgramTextIsFixed := by
  intro s t h
  obtain ⟨i, -, hexec⟩ := step_next h
  obtain ⟨-, heffect⟩ := exec_next hexec
  obtain ⟨-, -, -, -, -, -, haddrSize, -, hsegs, -, htranslation, hprogram⟩ := heffect.sameControl
  refine ⟨hprogram, hsegs, htranslation, haddrSize, fun j hj => ?_⟩
  have hlinear : t.codeLinear (s.program.first + BitVec.ofNat 32 j)
      = s.codeLinear (s.program.first + BitVec.ofNat 32 j) := by simp only [State.codeLinear, hsegs]
  rw [hlinear, State.byteAt, State.physical_congr htranslation]
  exact heffect.read_program hj

/-! ### When a store is refused -/

theorem checked_refused_iff {s : State} {r : Refusal} {body : Host.Outcome State Fault Refusal} :
    checked s body = .refused r ↔ s.entryClear ∧ body = .refused r := by
  rw [← State.entryFault_eq_none]
  cases h : s.entryFault <;> simp [checked, raise, h]

/-- MemWrite refuses an admitted access to a byte of the program, and no other. -/
theorem State.memWrite_refused_iff (s : State) (seg : SegReg) (ea : Dword) (bytes : List Byte) :
    s.memWrite seg ea bytes = .refused .storeIntoProgram ↔
      s.accessLegal seg ea bytes.length .write ∧ s.storeHitsProgram (s.linear seg ea) bytes.length = true := by
  constructor
  · intro h
    unfold State.memWrite raise at h
    split at h
    · cases h
    · rename_i a ha
      obtain ⟨hnone, rfl⟩ := (State.accessCheck_ok_iff s seg ea _ _ a).1 ha
      split at h
      · rename_i hp
        exact ⟨(State.accessFaults_eq_nil s seg ea _ _).1 hnone, hp⟩
      · cases h
  · rintro ⟨hlegal, hp⟩
    simp [State.memWrite, State.accessCheck_legal hlegal, hp]

theorem storeToMemory_refused_iff (m : MemOperand) (bytes : List Byte) (len : Nat) (s : State) :
    storeToMemory m bytes len s = .refused .storeIntoProgram ↔
      s.operandLegal m bytes.length .write ∧ s.storeHitsProgram (s.operandAddress m) bytes.length = true := by
  rw [State.operandAddress, State.operandLegal, ← State.memWrite_refused_iff, storeToMemory]
  cases s.memWrite (operandSegment m) (s.effectiveAddress m.addr) bytes <;> simp

/-- A form that writes a memory operand is the entry checks and one store of as many bytes as it accesses. -/
theorem exec_store_form {i : Instr} {m : MemOperand} {n : Nat} (hm : i.memOperand? = some m)
    (ha : i.access = some (n, .write)) (s : State) :
    ∃ bytes : List Byte, bytes.length = n ∧ exec i s = checked s (storeToMemory m bytes i.length s) := by
  cases exec_shape i with
  | emms hi => simp [hi, Instr.access] at ha
  | packed64 f d src hi hx hl hm' ha' hd => simp [ha'] at ha
  | packed32 f d src hi hx hl hm' ha' hd => simp [ha'] at ha
  | imm f d imm hi hx hl hm' ha' hd => simp [ha'] at ha
  | movdLoad d src hi => simp [hi, Instr.access] at ha
  | movdStore dst src hi =>
    subst hi
    cases dst with
    | reg r => cases hm
    | mem m' =>
      cases hm
      cases ha
      exact ⟨_, rfl, rfl⟩
  | movqStore dst src hi =>
    subst hi
    cases dst with
    | reg r => cases hm
    | mem m' =>
      cases hm
      cases ha
      exact ⟨_, rfl, rfl⟩

/-- Settles O24: the entry checks, AccessCheck and the program's bytes, each by the law that says when it lets a store
through. -/
theorem storeIntoTheProgramIsRefused : Obligations.StoreIntoTheProgramIsRefused := by
  intro i s m n hm ha
  obtain ⟨bytes, rfl, hexec⟩ := exec_store_form hm ha s
  rw [hexec, checked_refused_iff, storeToMemory_refused_iff, State.storeHitsProgram_iff]
  rfl

end Sys2Proof.Machine
end

section
/-!
AccessCheck (spec/20_memory.md R67 to R71): each fault it can answer has its own condition, and where only one
condition can hold it answers that fault.
-/

namespace Sys2Proof.Machine

/-! ### The condition of each fault -/

/-- The condition of each fault of an access, rule by rule, in the terms of Sys2Proof/Safety.lean. -/
inductive State.FaultHolds (s : State) (seg : SegReg) (ea : Dword) (n : Nat) (kind : AccessKind) : Fault → Prop where
  /-- #SS(0): an illegal address in SS (R68, R235). -/
  | stack (hmode : s.mode = .protectedMode) (hseg : seg = .ss)
      (hillegal : ¬ (s.segment seg).legalAddress ea n kind) : s.FaultHolds seg ea n kind .stackFault
  /-- #GP(0): an illegal address in another segment, or a write to a nonwritable one (R68, R234). -/
  | protection (hmode : s.mode = .protectedMode)
      (hwhy : (seg ≠ .ss ∧ ¬ (s.segment seg).legalAddress ea n kind)
        ∨ (kind = .write ∧ (s.segment seg).writable = false)) : s.FaultHolds seg ea n kind .generalProtection
  /-- Interrupt 13: a byte above 0FFFFH (R69, R70). -/
  | limit (hmode : s.mode ≠ .protectedMode) (hover : 0xFFFF < ea.toNat + n - 1) :
      s.FaultHolds seg ea n kind .interrupt13
  /-- #PF: a byte that a page rule hits (R73, R237). -/
  | page (hmode : s.mode ≠ .realAddress) (r : PageRule) (hr : r ∈ s.pageRules) (k : Nat) (hk : k < n)
      (hhit : r.hits kind (s.linear seg ea + BitVec.ofNat 32 k) = true) :
      s.FaultHolds seg ea n kind (.pageFault r.code)
  /-- #AC(0): unaligned where alignment is checked (R71, R242). -/
  | alignment (hchecks : s.checksAlignment) (hodd : (s.linear seg ea).toNat % n ≠ 0) :
      s.FaultHolds seg ea n kind .alignmentCheck

section
variable {s : State} {seg : SegReg} {ea : Dword} {n : Nat} {kind : AccessKind} {f : Fault}

theorem State.illegalOffset_eq_true :
    s.illegalOffset seg ea n kind = true ↔ ¬ (s.segment seg).legalAddress ea n kind := by
  rw [Segment.legalAddress, ← State.illegalOffset_eq_false, Bool.not_eq_false]

theorem State.nonwritable_eq_true :
    s.nonwritable seg kind = true ↔ kind = .write ∧ (s.segment seg).writable = false := by
  simp [State.nonwritable]

theorem State.faultHolds_of_mem_segmentFaults (h : f ∈ s.segmentFaults seg ea n kind) :
    s.FaultHolds seg ea n kind f := by
  unfold State.segmentFaults outsideLimit at h
  split at h
  case h_1 hmode =>
    rcases List.mem_append.1 h with h | h
    · obtain ⟨hc, rfl⟩ : (s.illegalOffset seg ea n kind && seg == .ss) = true ∧ f = .stackFault := by simpa using h
      rw [Bool.and_eq_true, beq_iff_eq, State.illegalOffset_eq_true] at hc
      exact .stack hmode hc.2 hc.1
    · obtain ⟨hc, rfl⟩ : ((s.illegalOffset seg ea n kind && seg != .ss) || s.nonwritable seg kind) = true
          ∧ f = .generalProtection := by simpa using h
      rw [Bool.or_eq_true, Bool.and_eq_true, bne_iff_ne, State.illegalOffset_eq_true, State.nonwritable_eq_true,
        and_comm] at hc
      exact .protection hmode hc
  all_goals
    rename_i hmode
    obtain ⟨hover, rfl⟩ : 0xFFFF < ea.toNat + n - 1 ∧ f = .interrupt13 := by simpa using h
    exact .limit (by simp [hmode]) hover

theorem State.faultHolds_of_mem_pageFaults (hmode : s.mode ≠ .realAddress)
    (h : f ∈ s.pageFaults (s.linear seg ea) n kind) : s.FaultHolds seg ea n kind f := by
  simp only [State.pageFaults, List.mem_map, List.mem_filter, List.any_eq_true, List.mem_range] at h
  obtain ⟨r, ⟨hr, k, hk, hhit⟩, rfl⟩ := h
  exact .page hmode r hr k hk hhit

theorem State.faultHolds_of_mem_accessFaults (h : f ∈ s.accessFaults seg ea n kind) :
    s.FaultHolds seg ea n kind f := by
  rcases List.mem_append.1 h with h | h
  · rcases List.mem_append.1 h with h | h
    · exact State.faultHolds_of_mem_segmentFaults h
    · split at h
      · cases h
      · rename_i hmode
        exact State.faultHolds_of_mem_pageFaults (by simpa using hmode) h
  · split at h
    · rename_i hc
      obtain ⟨hchecks, hodd⟩ := (State.alignment_fault_iff s _ n).1 hc
      obtain rfl := List.mem_singleton.1 h
      exact .alignment hchecks hodd
    · cases h

/-! ### What AccessCheck answers -/

theorem State.accessCheck_ok_iff_legal {a : Dword} :
    s.accessCheck seg ea n kind = .ok a ↔ s.accessLegal seg ea n kind ∧ a = s.linear seg ea := by
  rw [State.accessCheck_ok_iff, State.accessFaults_eq_nil]

theorem State.faultHolds_of_accessCheck_error (h : s.accessCheck seg ea n kind = .error f) :
    s.FaultHolds seg ea n kind f :=
  State.faultHolds_of_mem_accessFaults (State.accessCheck_error_mem h)

/-- An access that is not legal raises a fault whose condition holds. -/
theorem State.accessCheck_not_legal (h : ¬ s.accessLegal seg ea n kind) :
    ∃ g, s.accessCheck seg ea n kind = .error g ∧ s.FaultHolds seg ea n kind g := by
  cases hc : s.accessCheck seg ea n kind with
  | ok a => exact absurd (State.accessCheck_ok_iff_legal.1 hc).1 h
  | error g => exact ⟨g, rfl, State.faultHolds_of_accessCheck_error hc⟩

/-- Where no condition but that of `f` can hold, an access that is not legal raises `f`: no choice is left (D21). -/
theorem State.accessCheck_only (h : ¬ s.accessLegal seg ea n kind)
    (honly : ∀ g, s.FaultHolds seg ea n kind g → g = f) : s.accessCheck seg ea n kind = .error f := by
  obtain ⟨g, hg, hholds⟩ := State.accessCheck_not_legal h
  rw [hg, honly g hholds]

/-! ### Where one condition can hold -/

/-- Outside protected mode, with pages and alignment clear, the limit is the only condition that can hold. -/
theorem State.FaultHolds.eq_interrupt13 (hmode : s.mode ≠ .protectedMode)
    (hpages : s.mode ≠ .realAddress → s.pagesPresent (s.linear seg ea) n kind)
    (halign : s.checksAlignment → (s.linear seg ea).toNat % n = 0) (h : s.FaultHolds seg ea n kind f) :
    f = .interrupt13 := by
  cases h with
  | stack hprot => exact absurd hprot hmode
  | protection hprot => exact absurd hprot hmode
  | limit => rfl
  | page hreal r hr k hk hhit => simp [hpages hreal r hr k hk] at hhit
  | alignment hchecks hodd => exact absurd (halign hchecks) hodd

/-- With segment and limit clear, only the conditions of a page fault and of #AC can hold. -/
theorem State.FaultHolds.page_or_alignment (hseg : s.mode = .protectedMode → (s.segment seg).admits ea n kind)
    (hlimit : s.mode ≠ .protectedMode → ea.toNat + n - 1 ≤ 0xFFFF) (h : s.FaultHolds seg ea n kind f) :
    (s.mode ≠ .realAddress ∧ ¬ s.pagesPresent (s.linear seg ea) n kind ∧ ∃ r ∈ s.pageRules, f = .pageFault r.code)
      ∨ (s.checksAlignment ∧ (s.linear seg ea).toNat % n ≠ 0 ∧ f = .alignmentCheck) := by
  cases h with
  | stack hprot _ hillegal =>
    obtain ⟨husable, hfirst, hlast, hread, -⟩ := hseg hprot
    exact absurd ⟨husable, hfirst, hlast, hread⟩ hillegal
  | protection hprot hwhy =>
    obtain ⟨husable, hfirst, hlast, hread, hwrite⟩ := hseg hprot
    rcases hwhy with ⟨-, hillegal⟩ | ⟨hkind, hnonwritable⟩
    · exact absurd ⟨husable, hfirst, hlast, hread⟩ hillegal
    · simp [hwrite hkind] at hnonwritable
  | limit hmode hover => exact absurd (hlimit hmode) (Nat.not_le.2 hover)
  | page hreal r hr k hk hhit =>
    refine .inl ⟨hreal, fun hpages => ?_, r, hr, rfl⟩
    simp [hpages r hr k hk] at hhit
  | alignment hchecks hodd => exact .inr ⟨hchecks, hodd, rfl⟩

/-- In real-address mode an access is legal below the limit (R69). -/
theorem State.accessLegal_realAddress (hmode : s.mode = .realAddress) :
    s.accessLegal seg ea n kind ↔ ea.toNat + n - 1 ≤ 0xFFFF := by
  simp [State.accessLegal, State.checksAlignment, hmode]

/-- In virtual-8086 mode an access is legal below the limit, on present pages, and aligned where ACEnable is set
(R70). -/
theorem State.accessLegal_virtual8086 (hmode : s.mode = .virtual8086) :
    s.accessLegal seg ea n kind ↔ ea.toNat + n - 1 ≤ 0xFFFF ∧ s.pagesPresent (s.linear seg ea) n kind
      ∧ (s.acEnable = true → (s.linear seg ea).toNat % n = 0) := by
  simp [State.accessLegal, State.checksAlignment, hmode]

end

/-! ### The statements by fault and by mode -/

/-- Settles O20: the legal accesses are those without a fault, and the fault answered is one whose condition holds. -/
theorem accessCheckAnswersAFaultThatHolds : Obligations.AccessCheckAnswersAFaultThatHolds := by
  refine fun s seg ea n kind => ⟨fun a => State.accessCheck_ok_iff_legal, fun f h => ?_⟩
  cases State.faultHolds_of_accessCheck_error h with
  | stack hmode hseg hillegal => exact .inl ⟨rfl, hmode, hseg, hillegal⟩
  | protection hmode hwhy => exact .inr (.inl ⟨rfl, hmode, hwhy⟩)
  | limit hmode hover => exact .inr (.inr (.inl ⟨rfl, hmode, hover⟩))
  | page hmode r hr k hk hhit => exact .inr (.inr (.inr (.inl ⟨r, hr, rfl, hmode, k, hk, hhit⟩)))
  | alignment hchecks hodd => exact .inr (.inr (.inr (.inr ⟨rfl, hchecks, hodd⟩)))

/-- Settles O16: in real-address mode nothing but the limit is checked. -/
theorem realAddressModeLimit : Obligations.RealAddressModeLimit := by
  intro s seg ea n kind hmode _
  have hlegal := State.accessLegal_realAddress (seg := seg) (ea := ea) (n := n) (kind := kind) hmode
  refine ⟨fun hin => State.accessCheck_legal (hlegal.2 hin), fun hover => ?_, rfl, rfl⟩
  refine State.accessCheck_only (fun hl => Nat.not_le.2 hover (hlegal.1 hl)) fun g hg => ?_
  exact hg.eq_interrupt13 (by simp [hmode]) (fun hreal => absurd hmode hreal) (by simp [State.checksAlignment, hmode])

/-- Settles O17: with two of the three conditions clear, the third is the only one that can hold. -/
theorem virtual8086ModeChecks : Obligations.Virtual8086ModeChecks := by
  intro s seg ea n kind hmode _
  have hlegal := State.accessLegal_virtual8086 (seg := seg) (ea := ea) (n := n) (kind := kind) hmode
  have hchecks : s.checksAlignment ↔ s.acEnable = true := by simp [State.checksAlignment, hmode]
  have hseg : s.mode = .protectedMode → (s.segment seg).admits ea n kind := by simp [hmode]
  refine ⟨fun hin hpages halign => State.accessCheck_legal (hlegal.2 ⟨hin, hpages, halign⟩),
    fun hover hpages halign => ?limit, fun hin hpages halign => ?page, fun hin hpages hac hodd => ?alignment⟩
  case limit =>
    refine State.accessCheck_only (fun hl => Nat.not_le.2 hover (hlegal.1 hl).1) fun g hg => ?_
    exact hg.eq_interrupt13 (by simp [hmode]) (fun _ => hpages) (halign ∘ hchecks.1)
  case page =>
    obtain ⟨g, hg, hholds⟩ := State.accessCheck_not_legal fun hl => have ⟨_, hp, _⟩ := hlegal.1 hl; hpages hp
    rcases hholds.page_or_alignment hseg (fun _ => hin) with ⟨-, -, r, hr, rfl⟩ | ⟨hc, hodd, -⟩
    · exact ⟨r, hr, hg⟩
    · exact absurd (halign (hchecks.1 hc)) hodd
  case alignment =>
    refine State.accessCheck_only (fun hl => have ⟨_, _, ha⟩ := hlegal.1 hl; hodd (ha hac)) fun g hg => ?_
    rcases hg.page_or_alignment hseg (fun _ => hin) with ⟨-, habsent, -⟩ | ⟨-, -, rfl⟩
    · exact absurd hpages habsent
    · rfl

/-- Settles O18: where segment, limit and pages are clear, the access is legal or #AC is the only condition that
holds. -/
theorem alignmentCheckExactly : Obligations.AlignmentCheckExactly := by
  intro s seg ea n kind _ hseg hlimit hpages
  split
  case isTrue hac =>
    obtain ⟨henable, hwhere, hodd⟩ := hac
    refine State.accessCheck_only (fun ⟨_, _, _, halign⟩ => hodd (halign ⟨henable, hwhere⟩)) fun g hg => ?_
    rcases hg.page_or_alignment hseg hlimit with ⟨hreal, habsent, -⟩ | ⟨-, -, rfl⟩
    · exact absurd (hpages hreal) habsent
    · rfl
  case isFalse hac =>
    exact State.accessCheck_legal
      ⟨hseg, hlimit, hpages, fun ⟨henable, hwhere⟩ => by_contra fun hodd => hac ⟨henable, hwhere, hodd⟩⟩

/-! ### During a run -/

theorem State.sameControl.trans {s t u : State} (hst : s.sameControl t) (htu : t.sameControl u) : s.sameControl u := by
  unfold State.sameControl at *
  simp_all

theorem step_sameControl {s t : State} (h : step s = .next t) : s.sameControl t := by
  obtain ⟨i, -, hexec⟩ := step_next h
  exact (exec_next hexec).2.sameControl

/-- A run of k + 1 steps is one step and a run of k. -/
theorem run_succ_next {s t : State} {k : Nat} (h : Sys2Proof.core.run (k + 1) s = .next t) :
    ∃ s', step s = .next s' ∧ Sys2Proof.core.run k s' = .next t := by
  cases hstep : step s with
  | next s' => exact ⟨s', rfl, by simpa [Host.Core.run, Sys2Proof.core, hstep] using h⟩
  | fault f => simp [Host.Core.run, Sys2Proof.core, hstep] at h
  | refused r => simp [Host.Core.run, Sys2Proof.core, hstep] at h

/-- After any number of steps the control bits and the launch parameters are what they were (D7). -/
theorem run_sameControl {s t : State} {k : Nat} (h : Sys2Proof.core.run k s = .next t) : s.sameControl t := by
  induction k generalizing s with
  | zero =>
    cases h
    simp [State.sameControl]
  | succ k ih =>
    obtain ⟨s', hstep, hrun⟩ := run_succ_next h
    exact (step_sameControl hstep).trans (ih hrun)

/-- Settles O21: AccessCheck reads control bits and launch parameters only, and a run keeps them. -/
theorem accessCheckIsFixedDuringARun : Obligations.AccessCheckIsFixedDuringARun := by
  refine ⟨fun s t seg ea n kind hmode hcpl hac hsegs hrules =>
    State.accessCheck_congr hmode hcpl hac hsegs hrules seg ea n kind, fun s t k h seg ea n kind => ?_⟩
  obtain ⟨-, -, -, -, hmode, hcpl, -, hac, hsegs, hrules, -, -⟩ := run_sameControl h
  exact State.accessCheck_congr hmode hcpl hac hsegs hrules seg ea n kind

end Sys2Proof.Machine
end

section
/-!
Bytes of memory (spec/20_memory.md R60, R61, R74): a byte reads as last written, the canonical form has one list for
each contents, and data is little-endian.
-/

namespace Sys2Proof.Machine

/-! ### The canonical form -/

theorem Memory.wfFrom_cons {lo a : Nat} {b : Byte} {m : Memory} :
    Memory.wfFrom lo ((a, b) :: m) = true ↔
      lo ≤ a ∧ a < 2 ^ 32 ∧ b ≠ Config.unwrittenByte ∧ Memory.wfFrom (a + 1) m = true := by
  simp only [Memory.wfFrom, Bool.and_eq_true, decide_eq_true_eq, and_assoc]

@[simp] theorem Memory.read_cons_same (a : Nat) (b : Byte) (m : Memory) : Memory.read ((a, b) :: m) a = b := by
  simp [Memory.read]

theorem Memory.read_cons_other {a x : Nat} (b : Byte) (m : Memory) (h : x ≠ a) :
    Memory.read ((a, b) :: m) x = Memory.read m x := by
  simp [Memory.read, h.symm]

/-- A canonical memory that reads as unwritten everywhere lists nothing. -/
theorem Memory.eq_nil_of_read {lo : Nat} {m : Memory} (h : Memory.wfFrom lo m = true)
    (hr : ∀ x, m.read x = Config.unwrittenByte) : m = [] := by
  cases m with
  | nil => rfl
  | cons c m =>
    obtain ⟨a, b⟩ := c
    obtain ⟨-, -, hb, -⟩ := Memory.wfFrom_cons.1 h
    exact absurd (by simpa using hr a) hb

/-- The first listed address is the least one that does not read as unwritten, so reading alike fixes it. -/
theorem Memory.first_le_of_read {lo lo' a a' : Nat} {b b' : Byte} {m m' : Memory}
    (h : Memory.wfFrom lo ((a, b) :: m) = true) (h' : Memory.wfFrom lo' ((a', b') :: m') = true)
    (hr : ∀ x, Memory.read ((a, b) :: m) x = Memory.read ((a', b') :: m') x) : a' ≤ a := by
  by_contra hlt
  obtain ⟨-, -, hb, -⟩ := Memory.wfFrom_cons.1 h
  obtain ⟨-, hb', hne, hm'⟩ := Memory.wfFrom_cons.1 h'
  have hbelow : Memory.wfFrom a' ((a', b') :: m') = true := Memory.wfFrom_cons.2 ⟨Nat.le_refl a', hb', hne, hm'⟩
  have hread := hr a
  rw [Memory.read_cons_same, Memory.read_below hbelow (Nat.not_le.1 hlt)] at hread
  exact hb hread

/-- Canonical memories that read alike are the same list: the first addresses agree, so the first bytes do, and below
the next address both tails read as unwritten. -/
theorem Memory.eq_of_read {lo lo' : Nat} {m m' : Memory} (h : Memory.wfFrom lo m = true)
    (h' : Memory.wfFrom lo' m' = true) (hr : ∀ x, m.read x = m'.read x) : m = m' := by
  induction m generalizing lo lo' m' with
  | nil => exact (Memory.eq_nil_of_read h' fun x => (hr x).symm).symm
  | cons c m ih =>
    cases m' with
    | nil => exact Memory.eq_nil_of_read h hr
    | cons c' m' =>
      obtain ⟨a, b⟩ := c
      obtain ⟨a', b'⟩ := c'
      obtain rfl : a = a' :=
        Nat.le_antisymm (Memory.first_le_of_read h' h fun x => (hr x).symm) (Memory.first_le_of_read h h' hr)
      obtain rfl : b = b' := by simpa using hr a
      obtain ⟨-, -, -, hm⟩ := Memory.wfFrom_cons.1 h
      obtain ⟨-, -, -, hm'⟩ := Memory.wfFrom_cons.1 h'
      have htail : ∀ x, Memory.read m x = Memory.read m' x := by
        intro x
        by_cases hx : x = a
        · rw [hx, Memory.read_below hm (Nat.lt_succ_self a), Memory.read_below hm' (Nat.lt_succ_self a)]
        · simpa [Memory.read_cons_other _ _ hx] using hr x
      rw [ih hm hm' htail]

/-- Settles O22: the laws of a write and the uniqueness of the canonical form. -/
theorem memoryReturnsTheByteLastWritten : Obligations.MemoryReturnsTheByteLastWritten := by
  refine ⟨fun m x y b h hx => ⟨Memory.wf_write x b hx h, ?_⟩, fun m m' h h' hr => Memory.eq_of_read h h' hr⟩
  split
  case isTrue hy =>
    subst hy
    exact Memory.read_write_same y b h
  case isFalse hy => exact Memory.read_write_other m x y b hy

/-! ### The bytes of a word -/

/-- Bits of a field of a word are bits of the word. -/
theorem extractLsb'_extractLsb' {w : Nat} (x : BitVec w) {start len i n : Nat} (h : i + n ≤ len) :
    (x.extractLsb' start len).extractLsb' i n = x.extractLsb' (start + i) n := by
  ext j hj
  have hlt : i + j < len := by omega
  simp [hlt, Nat.add_assoc]

/-- A quadword is its eight bytes: bit i is bit i mod 8 of byte i / 8. -/
theorem eq_of_bytes {v w : Qword} (h : ∀ k < 8, v.extractLsb' (8 * k) 8 = w.extractLsb' (8 * k) 8) : v = w := by
  refine BitVec.eq_of_getLsbD_eq fun i hi => ?_
  have hbit := congrArg (BitVec.getLsbD · (i % 8)) (h (i / 8) (by omega))
  simpa [BitVec.getLsbD_extractLsb', Nat.mod_lt, Nat.div_add_mod] using hbit

/-- Byte k of a quadword as it is stored. -/
theorem getElem_bytes64 (v : Qword) {k : Nat} (hk : k < 8) : (bytes64 v)[k]'hk = v.extractLsb' (8 * k) 8 := by
  match k, hk with
  | 0, _ | 1, _ | 2, _ | 3, _ | 4, _ | 5, _ | 6, _ | 7, _ => exact extractLsb'_extractLsb' v (by decide)

/-- Each byte of a doubleword put together from four: those below it are skipped one by one. -/
theorem extractLsb'_append_bytes (b3 b2 b1 b0 : Byte) :
    (b3 ++ b2 ++ b1 ++ b0).extractLsb' 0 8 = b0 ∧ (b3 ++ b2 ++ b1 ++ b0).extractLsb' 8 8 = b1
      ∧ (b3 ++ b2 ++ b1 ++ b0).extractLsb' 16 8 = b2 ∧ (b3 ++ b2 ++ b1 ++ b0).extractLsb' 24 8 = b3 := by
  have skip {w n : Nat} (x : BitVec w) (b : Byte) : (x ++ b).extractLsb' (n + 8) 8 = x.extractLsb' n 8 :=
    BitVec.extractLsb'_append_eq_of_le (Nat.le_add_left 8 n)
  refine ⟨BitVec.extractLsb'_append_eq_right, ?_, ?_, ?_⟩
  · exact (skip _ b0).trans BitVec.extractLsb'_append_eq_right
  · exact (skip _ b0).trans ((skip _ b1).trans BitVec.extractLsb'_append_eq_right)
  · exact (skip _ b0).trans ((skip _ b1).trans BitVec.extractLsb'_append_eq_left)

theorem State.load32_byte (s : State) (a : Dword) {k : Nat} (hk : k < 4) :
    (s.load32 a).extractLsb' (8 * k) 8 = s.byteAt (a + BitVec.ofNat 32 k) := by
  obtain ⟨h0, h1, h2, h3⟩ :=
    extractLsb'_append_bytes (s.byteAt (a + 3)) (s.byteAt (a + 2)) (s.byteAt (a + 1)) (s.byteAt a)
  match k, hk with
  | 0, _ => exact h0.trans (congrArg s.byteAt (BitVec.add_zero a).symm)
  | 1, _ => exact h1
  | 2, _ => exact h2
  | 3, _ => exact h3

/-- The low half of a loaded quadword holds bytes 0 to 3, the high half bytes 4 to 7. -/
theorem State.load64_byte (s : State) (a : Dword) {k : Nat} (hk : k < 8) :
    (s.load64 a).extractLsb' (8 * k) 8 = s.byteAt (a + BitVec.ofNat 32 k) := by
  rcases Nat.lt_or_ge k 4 with hlow | hhigh
  · rw [State.load64, BitVec.extractLsb'_append_eq_of_add_le (by omega), State.load32_byte s a hlow]
  · obtain ⟨j, rfl⟩ := Nat.exists_eq_add_of_le hhigh
    have hstart : 8 * (4 + j) - 32 = 8 * j := by omega
    rw [State.load64, BitVec.extractLsb'_append_eq_of_le (by omega), hstart, State.load32_byte s (a + 4) (by omega),
      BitVec.ofNat_add, BitVec.add_assoc]
    rfl

theorem State.load32_eq_low (s : State) (a : Dword) : s.load32 a = (s.load64 a).extractLsb' 0 32 :=
  BitVec.extractLsb'_append_eq_right.symm

theorem State.load32_eq_high (s : State) (a : Dword) : s.load32 (a + 4) = (s.load64 a).extractLsb' 32 32 :=
  BitVec.extractLsb'_append_eq_left.symm

/-! ### A quadword stored and loaded -/

@[simp] theorem State.load64_complete (s : State) (len : Nat) (a : Dword) : (s.complete len).load64 a = s.load64 a := rfl

/-- Bytes at different memory addresses have different positions in the operand. -/
theorem State.operandBytes_injective {s : State} {a : Dword} {n j k : Nat} (h : (s.operandBytes a n).Nodup)
    (hj : j < n) (hk : k < n) (heq : s.physical (a + BitVec.ofNat 32 j) = s.physical (a + BitVec.ofNat 32 k)) :
    j = k :=
  List.inj_on_of_nodup_map h (List.mem_range.2 hj) (List.mem_range.2 hk) (congrArg BitVec.toNat heq)

/-- A quadword stored at eight different memory addresses is what a load there returns. -/
theorem State.load64_storeBytes {s : State} {a : Dword} (v : Qword) (hwf : s.mem.wf = true)
    (hd : (s.operandBytes a 8).Nodup) : (s.storeBytes a (bytes64 v)).load64 a = v := by
  refine eq_of_bytes fun k hk => ?_
  rw [State.load64_byte _ a hk, ← getElem_bytes64 v hk]
  exact State.byteAt_storeBytes s a (bytes64 v) hwf (fun _ hi _ hj => State.operandBytes_injective hd hi hj) k hk

/-- Settles O23: each byte of a load, and a store of eight bytes read back as a quadword and by its halves. -/
theorem dataIsLittleEndian : Obligations.DataIsLittleEndian := by
  refine ⟨fun s a => ⟨fun k => s.load64_byte a, fun k => s.load32_byte a⟩, fun s t m src h hwf hd => ?_⟩
  obtain ⟨-, hstore⟩ := checked_next h
  obtain ⟨-, rfl⟩ := storeToMemory_next hstore
  have hload : ((s.storeBytes (s.operandAddress m) (bytes64 (s.readMm src))).complete (Rm.mem m : Rm Mm).length).load64
      (s.operandAddress m) = s.readMm src := by
    rw [State.load64_complete, State.load64_storeBytes _ hwf hd]
  exact ⟨hload, by rw [State.load32_eq_low, hload], by rw [State.load32_eq_high, hload]⟩

end Sys2Proof.Machine
end

section
/-!
The decoder reads the encoder's bytes back, layer by layer (spec/30_encoding.md R90 to R111): each layer is an equation
for the encoding followed by any bytes. With `decode_ok`, which goes the other way, encoding and decoding are inverse.
After them, the bounds of R106 and what the prefixes of a decoded operand select.
-/

namespace Sys2Proof

/-! ### Prefixes -/

@[simp] theorem prefixByte_byte (g : SegReg) : prefixByte g.byte = .seg g := by cases g <;> rfl

@[simp] theorem prefixByte_67 : prefixByte 0x67#8 = .addr := rfl

/-- The scan takes all of the admitted prefixes and stops at the first other byte. -/
theorem scanPrefixes_bytes (p : Prefixes) {b : Byte} (hb : prefixByte b = .no) (bs : List Byte) :
    scanPrefixes (p.bytes ++ b :: bs) = .ok (p, b :: bs) := by
  cases p <;> simp [Prefixes.bytes, scanPrefixes, hb]

/-! ### Addresses -/

theorem takeDisp8_cons (d : Byte) (rest : List Byte) : takeDisp8 (d :: rest) = some (d, rest) := rfl

@[simp] theorem fieldLo_sibByte (x : ScaledIndex) (base : BitVec 3) : fieldLo (sibByte x base) = base :=
  fieldLo_fieldsByte _ _ _

theorem decodeAddr16_fields {a : Addr16} (h : a.wf = true) (rest : List Byte) :
    decodeAddr16 a.fields.1 a.fields.2.1 (a.fields.2.2 ++ rest) = some (a, rest) := by
  cases a with
  | base b =>
    have hb : b.code ≠ 6#3 := mt (Base16.code_eq_six b).1 (by simpa [Addr16.wf] using h)
    simp [Addr16.fields, decodeAddr16, hb]
  | disp16 d => simp [Addr16.fields, decodeAddr16, takeDisp16_bytes]
  | baseDisp8 b d => simp [Addr16.fields, decodeAddr16, takeDisp8_cons]
  | baseDisp16 b d => simp [Addr16.fields, decodeAddr16, takeDisp16_bytes]

theorem decodeAddr32_fields {a : Addr32} (h : a.wf = true) (rest : List Byte) :
    decodeAddr32 a.fields.1 a.fields.2.1 (a.fields.2.2 ++ rest) = some (a, rest) := by
  cases a with
  | reg r =>
    obtain ⟨hesp, hebp⟩ : r ≠ .esp ∧ r ≠ .ebp := by simpa [Addr32.wf] using h
    have h4 : r.code ≠ 4#3 := mt (Gpr.code_eq_four r).1 hesp
    have h5 : r.code ≠ 5#3 := mt (Gpr.code_eq_five r).1 hebp
    simp [Addr32.fields, decodeAddr32, h4, h5]
  | disp32 d => simp [Addr32.fields, decodeAddr32, takeDisp32_bytes]
  | regDisp8 r d =>
    have h4 : r.code ≠ 4#3 := mt (Gpr.code_eq_four r).1 (by simpa [Addr32.wf] using h)
    simp [Addr32.fields, decodeAddr32, h4, takeDisp8_cons]
  | regDisp32 r d =>
    have h4 : r.code ≠ 4#3 := mt (Gpr.code_eq_four r).1 (by simpa [Addr32.wf] using h)
    simp [Addr32.fields, decodeAddr32, h4, takeDisp32_bytes]
  | sib x b =>
    obtain ⟨hx, hebp⟩ : x.wf = true ∧ b ≠ .ebp := by simpa [Addr32.wf] using h
    have h5 : b.code ≠ 5#3 := mt (Gpr.code_eq_five b).1 hebp
    simp [Addr32.fields, decodeAddr32, decodeSib, h5, decodeIndex_sibByte hx]
  | sibNoBase x d => simp [Addr32.fields, decodeAddr32, decodeSib, takeDisp32_bytes, decodeIndex_sibByte h]
  | sibDisp8 x b d => simp [Addr32.fields, decodeAddr32, decodeSib, takeDisp8_cons, decodeIndex_sibByte h]
  | sibDisp32 x b d => simp [Addr32.fields, decodeAddr32, decodeSib, takeDisp32_bytes, decodeIndex_sibByte h]

theorem decodeAddr_fields {a : Addr} (h : a.wf = true) (rest : List Byte) :
    decodeAddr a.size a.fields.1 a.fields.2.1 (a.fields.2.2 ++ rest) = some (a, rest) := by
  cases a with
  | a16 a => simp [decodeAddr, Addr.size, Addr.fields, decodeAddr16_fields h]
  | a32 a => simp [decodeAddr, Addr.size, Addr.fields, decodeAddr32_fields h]

/-- mod = 11 is a register (R92). -/
theorem Addr.mod_ne_three (a : Addr) : a.fields.1 ≠ 3#2 := by
  obtain a | a := a <;> cases a <;> simp [Addr.fields, Addr16.fields, Addr32.fields]

/-! ### Shapes -/

/-- The prefixes before an operand: those of its memory operand, and none where it has none. -/
def operandPrefixes : Option MemOperand → Prefixes
  | none => .none
  | some m => m.prefixes

/-- The ModR/M byte of an r/m operand (R93). -/
def Rm.modrm {ρ : Type} (code : ρ → BitVec 3) (reg : Mm) : Rm ρ → Byte
  | .reg r => fieldsByte 3 reg.code (code r)
  | .mem m => fieldsByte m.addr.fields.1 reg.code m.addr.fields.2.1

/-- The bytes of an r/m operand after its ModR/M byte. -/
def Rm.tail {ρ : Type} : Rm ρ → List Byte
  | .reg _ => []
  | .mem m => m.addr.fields.2.2

theorem Rm.bytes_eq {ρ : Type} (code : ρ → BitVec 3) (op : Byte) (reg : Mm) (rm : Rm ρ) :
    rm.bytes code op reg = (operandPrefixes rm.mem?).bytes ++ 0x0F :: op :: rm.modrm code reg :: rm.tail := by
  cases rm <;> rfl

@[simp] theorem Rm.fieldMid_modrm {ρ : Type} (code : ρ → BitVec 3) (reg : Mm) (rm : Rm ρ) :
    fieldMid (rm.modrm code reg) = reg.code := by
  cases rm <;> exact fieldMid_fieldsByte _ _ _

theorem decodeRm_bytes {ρ : Type} {ofCode : BitVec 3 → ρ} {code : ρ → BitVec 3} (hcode : ∀ r, ofCode (code r) = r)
    {dflt : AddrSize} {rm : Rm ρ} (hwf : ∀ m, rm.mem? = some m → m.wf dflt = true) (reg : Mm) (rest : List Byte) :
    decodeRm ofCode dflt (operandPrefixes rm.mem?) (rm.modrm code reg) (rm.tail ++ rest) = .ok (rm, rest) := by
  cases rm with
  | reg r => simp [decodeRm, Rm.modrm, Rm.mem?, operandPrefixes, Rm.tail, hcode]
  | mem m =>
    obtain ⟨haddr, hsize⟩ : m.addr.wf = true ∧ m.addr.size = m.prefixes.addrSize dflt := by
      simpa [MemOperand.wf] using hwf m rfl
    have hdecode := decodeAddr_fields haddr rest
    rw [hsize] at hdecode
    simp [decodeRm, Rm.modrm, Rm.mem?, operandPrefixes, Rm.tail, m.addr.mod_ne_three, hdecode]

/-- The second opcode byte of a shape. -/
def Shape.op : Shape → Byte
  | .e op => op
  | .ri op _ _ _ => op
  | .mm op _ _ => op
  | .gpr op _ _ => op

/-- The format of a shape (R91). -/
def Shape.format : Shape → Format
  | .e _ => .e
  | .ri _ _ _ _ => .ri
  | .mm _ _ _ => .mm
  | .gpr _ _ _ => .gpr

/-- The bytes of a shape after its second opcode byte. -/
def Shape.operandBytes : Shape → List Byte
  | .e _ => []
  | .ri _ digit d imm => [fieldsByte 3 digit d.code, imm]
  | .mm _ reg rm => rm.modrm Mm.code reg :: rm.tail
  | .gpr _ reg rm => rm.modrm Gpr.code reg :: rm.tail

theorem Shape.bytes_eq (sh : Shape) :
    sh.bytes = (operandPrefixes sh.mem?).bytes ++ 0x0F :: sh.op :: sh.operandBytes := by
  cases sh with
  | e op => rfl
  | ri op digit d imm => rfl
  | mm op reg rm => exact Rm.bytes_eq Mm.code op reg rm
  | gpr op reg rm => exact Rm.bytes_eq Gpr.code op reg rm

theorem decodeOperands_bytes {dflt : AddrSize} {sh : Shape} (hwf : ∀ m, sh.mem? = some m → m.wf dflt = true)
    (rest : List Byte) :
    decodeOperands dflt (operandPrefixes sh.mem?) sh.op sh.format (sh.operandBytes ++ rest) = .ok (sh, rest) := by
  cases sh with
  | e op => rfl
  | ri op digit d imm => simp [decodeOperands, Shape.mem?, operandPrefixes, Shape.op, Shape.format, Shape.operandBytes]
  | mm op reg rm =>
    simp [decodeOperands, Shape.mem?, Shape.op, Shape.format, Shape.operandBytes, decodeRm_bytes Mm.ofCode_code hwf]
  | gpr op reg rm =>
    simp [decodeOperands, Shape.mem?, Shape.op, Shape.format, Shape.operandBytes, decodeRm_bytes Gpr.ofCode_code hwf]

/-- After the prefixes and 0F, the second opcode byte decides how the operands are read (R91). -/
theorem decodeShape_of_opFormat {op : Byte} {fmt : Format} (h : opFormat op = some fmt) (dflt : AddrSize)
    (p : Prefixes) (bs : List Byte) :
    decodeShape dflt (p.bytes ++ 0x0F :: op :: bs) = decodeOperands dflt p op fmt bs := by
  simp only [decodeShape, scanPrefixes_bytes p (b := 0x0F) rfl, h, if_true]

theorem decodeShape_of_opFormat_none {op : Byte} (h : opFormat op = none) (dflt : AddrSize) (p : Prefixes)
    (bs : List Byte) : decodeShape dflt (p.bytes ++ 0x0F :: op :: bs) = .error .notMmx := by
  simp only [decodeShape, scanPrefixes_bytes p (b := 0x0F) rfl, h, if_true]

/-! ### The opcode map -/

/-- The law of every row. -/
theorem Laws.OpcodeMap.instr_shape (i : Instr) : Statement i := by
  cases i
  exacts [emms, movdLoad .., movdStore .., movqLoad .., movqStore .., packsswb .., packssdw .., packuswb .., paddb ..,
    paddw .., paddd .., paddsb .., paddsw .., paddusb .., paddusw .., pand .., pandn .., pcmpeqb .., pcmpeqw ..,
    pcmpeqd .., pcmpgtb .., pcmpgtw .., pcmpgtd .., pmaddwd .., pmulhw .., pmullw .., por .., psllw .., psllwImm ..,
    pslld .., pslldImm .., psllq .., psllqImm .., psraw .., psrawImm .., psrad .., psradImm .., psrlw .., psrlwImm ..,
    psrld .., psrldImm .., psrlq .., psrlqImm .., psubb .., psubw .., psubd .., psubsb .., psubsw .., psubusb ..,
    psubusw .., punpckhbw .., punpckhwd .., punpckhdq .., punpcklbw .., punpcklwd .., punpckldq .., pxor ..]

theorem opFormat_shape (i : Instr) : opFormat i.shape.op = some i.shape.format := by cases i <;> rfl

theorem encode_eq (i : Instr) :
    encode i = (operandPrefixes i.memOperand?).bytes ++ 0x0F :: i.shape.op :: i.shape.operandBytes := by
  rw [encode, Shape.bytes_eq, Instr.mem?_shape]

/-- Settles O2: layer by layer, the prefixes, the operands and the opcode map are read back. -/
theorem decodeInvertsEncode : Obligations.DecodeInvertsEncode := by
  intro dflt i rest hwf
  have hmem : ∀ m, i.shape.mem? = some m → m.wf dflt = true := by
    rw [Instr.mem?_shape]
    exact (Instr.wf_iff dflt i).1 hwf
  have hoperands := decodeOperands_bytes hmem rest
  rw [Instr.mem?_shape] at hoperands
  have hshape : decodeShape dflt (encode i ++ rest) = .ok (i.shape, rest) := by
    rw [encode_eq, List.append_assoc]
    exact (decodeShape_of_opFormat (opFormat_shape i) dflt _ _).trans hoperands
  have hinstr : i.shape.instr = .ok i := Laws.OpcodeMap.instr_shape i
  simp only [decode, hshape, hinstr]

/-- Settles O3: the decoder took exactly the encoding of what it answers. -/
theorem encodeInvertsDecode : Obligations.EncodeInvertsDecode :=
  fun _ _ _ _ h => decode_ok h

/-! ### The length of an encoding (R106) -/

theorem Prefixes.count_le (p : Prefixes) : p.count ≤ 2 := by cases p <;> simp [Prefixes.count]

theorem Addr.tailLength_le (a : Addr) : a.tailLength ≤ 5 := by
  obtain a | a := a <;> cases a <;> simp [Addr.tailLength, Addr16.tailLength, Addr32.tailLength]

theorem Rm.length_bounds {ρ : Type} (rm : Rm ρ) : 2 ≤ rm.length ∧ rm.length ≤ 10 := by
  cases rm with
  | reg r => simp [Rm.length]
  | mem m =>
    have hp := m.prefixes.count_le
    have ht := m.addr.tailLength_le
    simp only [Rm.length]
    omega

theorem Shape.length_bounds (sh : Shape) : 2 ≤ sh.length ∧ sh.length ≤ 10 := by
  cases sh with
  | e op => simp [Shape.length, formatELength]
  | ri op digit d imm => simp [Shape.length, formatRILength]
  | mm op reg rm => exact rm.length_bounds
  | gpr op reg rm => exact rm.length_bounds

/-- Settles O4: the encoding has the length of R106, whose bounds are those of its parts. -/
theorem lengthCountsEncodedBytes : Obligations.LengthCountsEncodedBytes :=
  fun i => ⟨length_encode i, i.shape.length_bounds⟩

/-! ### What the prefixes select (R104, R105) -/

theorem SegReg.byte_injective : Function.Injective SegReg.byte := fun g h e => by
  simpa using congrArg prefixByte e

theorem SegReg.byte_ne_67 (g : SegReg) : g.byte ≠ 0x67#8 := by cases g <;> decide

theorem Prefixes.mem_bytes_67 (p : Prefixes) : 0x67 ∈ p.bytes ↔ p.has67 = true := by
  cases p <;> simp [Prefixes.bytes, Prefixes.has67, (SegReg.byte_ne_67 _).symm]

theorem Prefixes.mem_bytes_byte (p : Prefixes) (g : SegReg) :
    g.byte ∈ p.bytes ↔ Machine.overrideSegment p = some g := by
  cases p <;>
    simp [Prefixes.bytes, Machine.overrideSegment, SegReg.byte_injective.eq_iff, SegReg.byte_ne_67, eq_comm (a := g)]

theorem Prefixes.addrSize_eq_dflt (p : Prefixes) (dflt : AddrSize) : p.addrSize dflt = dflt ↔ p.has67 = false := by
  unfold Prefixes.addrSize
  cases p.has67 <;> cases dflt <;> decide

/-- An encoding begins with the prefixes of its memory operand. -/
theorem prefixes_isPrefix_encode {i : Instr} {m : MemOperand} (h : i.memOperand? = some m) :
    m.prefixes.bytes <+: encode i := by
  rw [encode_eq, h]
  exact ⟨_, rfl⟩

/-- Settles O10: the decoder answers a well-formed operand, whose size is the one that its prefixes select. -/
theorem prefixesSelectSizeAndSegment : Obligations.PrefixesSelectSizeAndSegment := by
  intro dflt m g bytes rest i hdecode hm
  obtain ⟨hwf, rfl⟩ := decode_ok hdecode
  obtain ⟨-, hsize⟩ : m.addr.wf = true ∧ m.addr.size = m.prefixes.addrSize dflt := by
    simpa [MemOperand.wf] using (Instr.wf_iff dflt i).1 hwf m hm
  refine ⟨?_, fun hg => ?_, fun hnone => ?_, (prefixes_isPrefix_encode hm).trans ⟨_, rfl⟩⟩
  · rw [hsize, Prefixes.addrSize_eq_dflt, Prefixes.mem_bytes_67, Bool.not_eq_true]
  · rw [Machine.operandSegment, (Prefixes.mem_bytes_byte _ g).1 hg, Option.getD_some]
  · have hover : Machine.overrideSegment m.prefixes = none :=
      Option.eq_none_iff_forall_ne_some.2 fun h hh => hnone h ((Prefixes.mem_bytes_byte _ h).2 hh)
    rw [Machine.operandSegment, hover, Option.getD_none]

/-- Settles O1: nine words evaluated. -/
theorem decodesWordsOfEveryFamily : Obligations.DecodesWordsOfEveryFamily :=
  ⟨rfl, rfl, rfl, rfl, rfl, rfl, rfl, rfl, rfl⟩

end Sys2Proof
end

section
/-!
What the decoder refuses (spec/30_encoding.md R97, R109, R111, D3 to D5): the scan of the prefixes first, then the opcode
map and its groups, then prefixes without a memory operand to apply to.
-/

namespace Sys2Proof

/-! ### Errors by layer -/

theorem decode_of_decodeShape_error {dflt : AddrSize} {bytes : List Byte} {e : DecodeError}
    (h : decodeShape dflt bytes = .error e) : decode dflt bytes = .error e := by
  simp only [decode, h]

theorem decodeShape_of_scanPrefixes_error {dflt : AddrSize} {bytes : List Byte} {e : DecodeError}
    (h : scanPrefixes bytes = .error e) : decodeShape dflt bytes = .error e := by
  simp only [decodeShape, h]

theorem decode_of_scanPrefixes_error {dflt : AddrSize} {bytes : List Byte} {e : DecodeError}
    (h : scanPrefixes bytes = .error e) : decode dflt bytes = .error e :=
  decode_of_decodeShape_error (decodeShape_of_scanPrefixes_error h)

/-! ### Prefixes -/

theorem prefixByte_refused {b : Byte} (h : b ∈ ([0x66, 0xF0, 0xF2, 0xF3] : List Byte)) :
    prefixByte b = .refused := by
  revert b; decide

section
variable (p : Prefixes) (bs : List Byte)

theorem scanPrefixes_refused {b : Byte} (hb : prefixByte b = .refused) :
    scanPrefixes (p.bytes ++ b :: bs) = .error .refusedPrefix := by
  cases p <;> simp [Prefixes.bytes, scanPrefixes, hb]

theorem scanPrefixes_second_seg (h : (Machine.overrideSegment p).isSome = true) (g : SegReg) :
    scanPrefixes (p.bytes ++ g.byte :: bs) = .error .repeatedPrefix := by
  cases p with
  | none | addr => cases h
  | seg s | segAddr s | addrSeg s => simp [Prefixes.bytes, scanPrefixes]

theorem scanPrefixes_second_67 (h : p.has67 = true) :
    scanPrefixes (p.bytes ++ 0x67 :: bs) = .error .repeatedPrefix := by
  cases p with
  | none | seg s => cases h
  | addr | segAddr s | addrSeg s => simp [Prefixes.bytes, scanPrefixes]

end

/-- Prefixes before a shape without a memory operand are refused when its format or its ModR/M byte has been read. -/
theorem decodeOperands_prefixWithoutMemory {sh : Shape} (h : sh.mem? = none) {p : Prefixes} (hp : p ≠ .none)
    (dflt : AddrSize) (rest : List Byte) :
    decodeOperands dflt p sh.op sh.format (sh.operandBytes ++ rest) = .error .prefixWithoutMemory := by
  cases sh with
  | e op => simp [decodeOperands, Shape.format, hp]
  | ri op digit d imm => simp [decodeOperands, Shape.format, Shape.operandBytes, hp]
  | mm op reg rm =>
    cases rm with
    | reg r => simp [decodeOperands, decodeRm, Shape.format, Shape.operandBytes, Rm.modrm, hp]
    | mem m => cases h
  | gpr op reg rm =>
    cases rm with
    | reg r => simp [decodeOperands, decodeRm, Shape.format, Shape.operandBytes, Rm.modrm, hp]
    | mem m => cases h

/-- Settles O6: three refusals of the scan, and one of the operands' layer. -/
theorem refusedPrefixes : Obligations.RefusedPrefixes := by
  refine fun dflt p rest => ⟨fun b hb => ?_, fun hp g => ?_, fun hp => ?_, fun hp i hi => ?_⟩
  · exact decode_of_scanPrefixes_error (scanPrefixes_refused p rest (prefixByte_refused hb))
  · exact decode_of_scanPrefixes_error (scanPrefixes_second_seg p rest hp g)
  · exact decode_of_scanPrefixes_error (scanPrefixes_second_67 p rest hp)
  · have hmem : i.shape.mem? = none := (Instr.mem?_shape i).trans hi
    rw [encode_eq, hi]
    exact decode_of_decodeShape_error ((decodeShape_of_opFormat (opFormat_shape i) dflt p _).trans
      (decodeOperands_prefixWithoutMemory hmem hp dflt rest))

/-! ### Opcodes and groups -/

/-- The second opcode bytes of the 57 forms, in order (R115). -/
def opcodes : List Byte :=
  [0x60, 0x61, 0x62, 0x63, 0x64, 0x65, 0x66, 0x67, 0x68, 0x69, 0x6A, 0x6B, 0x6E, 0x6F, 0x71, 0x72, 0x73, 0x74, 0x75,
    0x76, 0x77, 0x7E, 0x7F, 0xD1, 0xD2, 0xD3, 0xD5, 0xD8, 0xD9, 0xDB, 0xDC, 0xDD, 0xDF, 0xE1, 0xE2, 0xE5, 0xE8, 0xE9,
    0xEB, 0xEC, 0xED, 0xEF, 0xF1, 0xF2, 0xF3, 0xF5, 0xF8, 0xF9, 0xFA, 0xFC, 0xFD, 0xFE]

theorem opFormat_eq_none_iff (op : Byte) : opFormat op = none ↔ op ∉ opcodes := by
  revert op; decide +kernel

theorem opFormat_group {op : Byte} (h : op = 0x71 ∨ op = 0x72 ∨ op = 0x73) : opFormat op = some .ri := by
  rcases h with rfl | rfl | rfl <;> rfl

theorem groupRows_lookup_eq_none {op : Byte} {digit : BitVec 3}
    (h : ((op = 0x71 ∨ op = 0x72) ∧ digit ∉ ([2, 4, 6] : List (BitVec 3)))
      ∨ (op = 0x73 ∧ digit ∉ ([2, 6] : List (BitVec 3)))) :
    groupRows.lookup (op, digit) = none := by
  obtain ⟨rfl | rfl, hd⟩ | ⟨rfl, hd⟩ := h <;> revert digit <;> decide

section
variable (dflt : AddrSize)

theorem decode_notMmx {op : Byte} (h : op ∉ opcodes) (bs : List Byte) :
    decode dflt (0x0F :: op :: bs) = .error .notMmx :=
  decode_of_decodeShape_error (decodeShape_of_opFormat_none ((opFormat_eq_none_iff op).2 h) dflt .none bs)

theorem decode_undefinedDigit {op : Byte} {digit : BitVec 3} (hop : opFormat op = some .ri)
    (h : groupRows.lookup (op, digit) = none) (rm : BitVec 3) (imm : Byte) (tail : List Byte) :
    decode dflt (0x0F :: op :: fieldsByte 3 digit rm :: imm :: tail) = .error .undefinedDigit := by
  have hshape : decodeShape dflt (0x0F :: op :: fieldsByte 3 digit rm :: imm :: tail)
      = .ok (.ri op digit (Mm.ofCode rm) imm, tail) :=
    (decodeShape_of_opFormat hop dflt .none _).trans (by simp [decodeOperands])
  simp only [decode, hshape, Shape.instr, h]

theorem decode_groupMemoryOperand {op : Byte} {mod : BitVec 2} (hop : opFormat op = some .ri) (h : mod ≠ 3#2)
    (reg rm : BitVec 3) (tail : List Byte) :
    decode dflt (0x0F :: op :: fieldsByte mod reg rm :: tail) = .error .groupMemoryOperand :=
  decode_of_decodeShape_error
    ((decodeShape_of_opFormat hop dflt .none _).trans (by simp [decodeOperands, h]))

end

theorem Machine.step_of_decode_error {s : State} {e : DecodeError} (hin : s.eipInProgram = true)
    (hf : s.programFetchable) (hd : decode s.addrSize s.fetchBytes = .error e) (he : e ≠ .truncated) :
    step s = .refused (.undecodable e) := by
  have hfetch : s.fetch = .error (.undecodable e) := by
    rw [State.fetch_inside hin hf, hd]
    cases e with
    | truncated => exact absurd rfl he
    | _ => rfl
  simp only [step, hfetch]

/-- Settles O5: the opcode map, the group's digits and its ModR/M byte, each refused by the decoder. -/
theorem undefinedEncodingsRefused : Obligations.UndefinedEncodingsRefused := by
  intro s op rest hin hf hbytes
  have hstep : ∀ e, e ≠ .truncated → decode s.addrSize (0x0F :: op :: rest) = .error e →
      Machine.step s = .refused (.undecodable e) :=
    fun e he hd => Machine.step_of_decode_error hin hf (hbytes ▸ hd) he
  refine ⟨fun hop => ?_, fun digit rm imm tail hrest hdigit => ?_, fun mod reg rm tail hrest hmod hop => ?_⟩
  · exact hstep _ (by decide) (decode_notMmx _ hop rest)
  · subst hrest
    have hop : op = 0x71 ∨ op = 0x72 ∨ op = 0x73 := by tauto
    exact hstep _ (by decide)
      (decode_undefinedDigit _ (opFormat_group hop) (groupRows_lookup_eq_none hdigit) rm imm tail)
  · subst hrest
    exact hstep _ (by decide) (decode_groupMemoryOperand _ (opFormat_group hop) hmod reg rm tail)

end Sys2Proof
end

section
/-!
The address of every ModR/M and SIB byte (spec/30_encoding.md R99 to R105). Each form is a well-formed address with
those fields, so the decoder reads it (`decodeAddr_fields`); what is left is its sum, which the model takes in machine
words and the statements take in integers.
-/

namespace Sys2Proof.Machine

/-- The bytes that encode a well-formed address are the form of its effective address and default segment. -/
theorem State.addressForm_of_fields {s : State} {a : Addr} {mod : BitVec 2} {rm : BitVec 3} {bytes : List Byte}
    {ea : Dword} {seg : SegReg} (hwf : a.wf = true) (hfields : a.fields = (mod, rm, bytes))
    (hea : s.effectiveAddress a = ea) (hseg : defaultSegment a = seg) : s.addressForm a.size mod rm bytes ea seg := by
  intro rest
  have hdecode := decodeAddr_fields hwf rest
  rw [hfields] at hdecode
  exact ⟨a, hdecode, hea, hseg⟩

/-! ### Displacements -/

theorem disp16Bytes_append (d1 d0 : Byte) : disp16Bytes (d1 ++ d0) = [d0, d1] := by
  simpa using (takeDisp16_inv (rest := []) (rfl : takeDisp16 [d0, d1] = _)).symm

theorem disp32Bytes_append (d3 d2 d1 d0 : Byte) : disp32Bytes (d3 ++ d2 ++ d1 ++ d0) = [d0, d1, d2, d3] := by
  simpa using (takeDisp32_inv (rest := []) (rfl : takeDisp32 [d0, d1, d2, d3] = _)).symm

/-! ### Default segments -/

theorem baseSegment_ofCode (c : BitVec 3) : baseSegment (Gpr.ofCode c) = if c = 4 ∨ c = 5 then .ss else .ds := by
  revert c; decide

theorem baseSegment16_ofCode (c : BitVec 3) :
    baseSegment16 (Base16.ofCode c) = if c = 2 ∨ c = 3 ∨ c = 6 then .ss else .ds := by
  revert c; decide

/-! ### Sums -/

section
variable {w n : Nat} {x : BitVec w}

theorem add_eq_ofNat (hx : x = BitVec.ofNat w n) (y : BitVec w) : x + y = BitVec.ofNat w (n + y.toNat) := by
  simp [hx, BitVec.ofNat_add]

theorem add_signExtend (hx : x = BitVec.ofNat w n) (d : Byte) : x + d.signExtend w = BitVec.ofInt w (n + d.toInt) := by
  simp [hx, BitVec.ofInt_add, BitVec.signExtend]

end

theorem readGpr_eq_ofNat (s : State) (r : Gpr) : s.readGpr r = BitVec.ofNat 32 (s.readGpr r).toNat := by simp

theorem scaledIndex_decodeIndex (s : State) (sib : Byte) :
    s.scaledIndex (decodeIndex sib) = BitVec.ofNat 32 (s.indexProduct (fieldHi sib) (fieldMid sib)) := by
  unfold State.scaledIndex decodeIndex State.indexProduct
  by_cases h : fieldMid sib = 4
  · simp [h]
  · simp only [if_neg h]
    apply BitVec.eq_of_toNat_eq
    simp [Nat.shiftLeft_eq]

/-- The rows of R102: each register part is the word of the sum of its low halves. -/
theorem base16_ofCode (s : State) (rm : BitVec 3) :
    s.base16 (Base16.ofCode rm) = BitVec.ofNat 16 (s.baseSum16 rm) := by
  have hrow : ∀ b : Base16, s.base16 b = BitVec.ofNat 16 (s.baseSum16 b.code) := by
    intro b
    apply BitVec.eq_of_toNat_eq
    cases b <;> simp [State.base16, State.baseSum16, Base16.code, State.readGpr16]
  simpa using hrow (Base16.ofCode rm)

theorem setWidth_ofNat16 (n : Nat) : (BitVec.ofNat 16 n).setWidth 32 = BitVec.ofNat 32 (n % 65536) := by
  apply BitVec.eq_of_toNat_eq
  simp

theorem setWidth_ofInt16 (n : Int) : (BitVec.ofInt 16 n).setWidth 32 = BitVec.ofInt 32 (n % 65536) := by
  apply BitVec.eq_of_toNat_eq
  simp
  omega

/-! ### The statements -/

/-- Settles O7: the four rows of R99. -/
theorem effectiveAddress32 : Obligations.EffectiveAddress32 := by
  intro s rm d0 d1 d2 d3 h4
  have hesp := Gpr.ofCode_ne_esp h4
  have hss : baseSegment (Gpr.ofCode rm) = if rm = 5 then .ss else .ds := by
    simp [baseSegment_ofCode, show rm ≠ 4#3 from h4]
  have hreg := readGpr_eq_ofNat s (Gpr.ofCode rm)
  refine ⟨fun h5 => ?_, fun h5 => ?_, ?_, ?_⟩
  · exact State.addressForm_of_fields (a := .a32 (.reg (Gpr.ofCode rm)))
      (by simp [Addr.wf, Addr32.wf, hesp, Gpr.ofCode_ne_ebp h5]) (by simp [Addr.fields, Addr32.fields]) rfl
      (hss.trans (if_neg h5))
  · exact State.addressForm_of_fields (a := .a32 (.disp32 (d3 ++ d2 ++ d1 ++ d0))) rfl
      (by simp [Addr.fields, Addr32.fields, disp32Bytes_append, h5]) rfl rfl
  · exact State.addressForm_of_fields (a := .a32 (.regDisp8 (Gpr.ofCode rm) d0)) hesp
      (by simp [Addr.fields, Addr32.fields]) (add_signExtend hreg d0) hss
  · exact State.addressForm_of_fields (a := .a32 (.regDisp32 (Gpr.ofCode rm) (d3 ++ d2 ++ d1 ++ d0))) hesp
      (by simp [Addr.fields, Addr32.fields, disp32Bytes_append]) (add_eq_ofNat hreg _) hss

/-- Settles O8: the four rows of R100. -/
theorem sibAddress : Obligations.SibAddress := by
  intro s scale index base d0 d1 d2 d3
  generalize hx : decodeIndex (fieldsByte scale index base) = x
  have hwf : x.wf = true := hx ▸ decodeIndex_wf _
  have hsib : sibByte x base = fieldsByte scale index base := by
    simpa [hx] using sibByte_decodeIndex (fieldsByte scale index base)
  have hindex : s.scaledIndex x = BitVec.ofNat 32 (s.indexProduct scale index) := by
    simpa [hx] using scaledIndex_decodeIndex s (fieldsByte scale index base)
  have hsum : s.readGpr (Gpr.ofCode base) + s.scaledIndex x
      = BitVec.ofNat 32 ((s.readGpr (Gpr.ofCode base)).toNat + s.indexProduct scale index) := by
    rw [hindex, BitVec.ofNat_add, ← readGpr_eq_ofNat]
  have hss := baseSegment_ofCode base
  refine ⟨fun h5 => ?_, fun h5 => ?_, ?_, ?_⟩
  · exact State.addressForm_of_fields (a := .a32 (.sib x (Gpr.ofCode base)))
      (by simp [Addr.wf, Addr32.wf, hwf, Gpr.ofCode_ne_ebp h5]) (by simp [Addr.fields, Addr32.fields, hsib]) hsum
      (hss.trans (by simp only [h5, or_false]))
  · subst h5
    exact State.addressForm_of_fields (a := .a32 (.sibNoBase x (d3 ++ d2 ++ d1 ++ d0))) hwf
      (by simp only [Addr.fields, Addr32.fields, hsib, disp32Bytes_append]) (add_eq_ofNat hindex _) rfl
  · exact State.addressForm_of_fields (a := .a32 (.sibDisp8 x (Gpr.ofCode base) d0)) hwf
      (by simp [Addr.fields, Addr32.fields, hsib]) (add_signExtend hsum d0) hss
  · exact State.addressForm_of_fields (a := .a32 (.sibDisp32 x (Gpr.ofCode base) (d3 ++ d2 ++ d1 ++ d0))) hwf
      (by simp [Addr.fields, Addr32.fields, hsib, disp32Bytes_append]) (add_eq_ofNat hsum _) hss

/-- Settles O9: the rows of R102, with zeros above the 16-bit sum. -/
theorem effectiveAddress16 : Obligations.EffectiveAddress16 := by
  intro s rm d0 d1
  have hbase := base16_ofCode s rm
  have hss := baseSegment16_ofCode rm
  refine ⟨fun h6 => ?_, fun h6 => ?_, ?_, ?_⟩
  · exact State.addressForm_of_fields (a := .a16 (.base (Base16.ofCode rm))) (Base16.wf_base_ofCode h6)
      (by simp [Addr.fields, Addr16.fields])
      ((congrArg (BitVec.setWidth 32) hbase).trans (setWidth_ofNat16 _)) (hss.trans (by simp only [h6, or_false]))
  · exact State.addressForm_of_fields (a := .a16 (.disp16 (d1 ++ d0))) rfl
      (by simp [Addr.fields, Addr16.fields, disp16Bytes_append, h6]) (BitVec.ofNat_toNat 32 (d1 ++ d0)).symm rfl
  · exact State.addressForm_of_fields (a := .a16 (.baseDisp8 (Base16.ofCode rm) d0)) rfl
      (by simp [Addr.fields, Addr16.fields])
      ((congrArg (BitVec.setWidth 32) (add_signExtend hbase d0)).trans (setWidth_ofInt16 _)) hss
  · exact State.addressForm_of_fields (a := .a16 (.baseDisp16 (Base16.ofCode rm) (d1 ++ d0))) rfl
      (by simp [Addr.fields, Addr16.fields, disp16Bytes_append])
      ((congrArg (BitVec.setWidth 32) (add_eq_ofNat hbase _)).trans (setWidth_ofNat16 _)) hss

end Sys2Proof.Machine
end

section
/-!
What the whole rule of a form asks (`RaisesEntry`, `RaisesOnAccess`, `Form64`), reduced to what the shape `packed64`
gives: the exceptions are those of the entry checks and of the source operand, so of each instruction only its encoding
and its function remain to be shown.
-/

namespace Sys2Proof.Machine

/-! ### The exceptions -/

/-- A meaning that starts with the entry checks raises them in their order (R236). -/
theorem raisesEntry_of_checked {i : Instr} {s : State} {body : Host.Outcome State Fault Refusal}
    (hx : exec i s = checked s body) : RaisesEntry i s := by
  refine ⟨fun hem => ?_, fun hem hts => ?_, fun hem hts hfp => ?_⟩
  all_goals
    rw [hx]
    exact checked_raises body (by simp [State.entryFault, *])

/-- A meaning that starts with the entry checks raises what AccessCheck answers when the part after them does (R241). -/
theorem raisesOnAccess_of_checked {ρ : Type} {i : Instr} {op : Rm ρ} {n : Nat} {kind : AccessKind} {s : State}
    {body : Host.Outcome State Fault Refusal} (hx : exec i s = checked s body)
    (hbody : ∀ m f, op = .mem m → s.accessCheck (operandSegment m) (s.effectiveAddress m.addr) n kind = .error f →
      body = .fault f) : RaisesOnAccess i op n kind s := by
  refine ⟨raisesEntry_of_checked hx, fun hclear m f hm hf => ?_⟩
  rw [hx, checked_clear body hclear, hbody m f hm hf]

/-- An operand in memory raises what AccessCheck answers (`State.source64_error` goes the other way). -/
theorem State.source64_of_accessCheck_error {s : State} {m : MemOperand} {f : Fault}
    (h : s.accessCheck (operandSegment m) (s.effectiveAddress m.addr) 8 .read = .error f) :
    s.source64 (.mem m) = .error f := by
  simp only [State.source64, State.memRead64, h]

/-! ### The shape `packed64` -/

section
variable {i : Instr} {d : Mm} {src : Rm Mm} {s t : State}

theorem raisesOnAccess_of_packed64 {f : Qword → Qword → Qword} (hx : exec i s = packed64 f d src s) :
    RaisesOnAccess i src 8 .read s := by
  refine raisesOnAccess_of_checked hx ?_
  rintro m g rfl hg
  simp only [State.source64_of_accessCheck_error hg, raise]

/-- The whole rule of a form that is `packed64 f`: its encoding is read off, and `f` meets the relation. -/
theorem form64_of_packed64 {op : Byte} {mk : Mm → Rm Mm → Instr} {rel : Qword → Qword → Qword → Prop}
    (f : Qword → Qword → Qword) (hrel : ∀ a b, rel a b (f a b))
    (hx : ∀ d src s, exec (mk d src) s = packed64 f d src s := by intros; rfl)
    (hbytes : ∀ d src, encode (mk d src) = src.bytes Mm.code op d := by intros; rfl) :
    Form64 op mk rel := by
  refine fun d src s => ⟨hbytes d src, fun hclear hread => ?_, raisesOnAccess_of_packed64 (hx d src s)⟩
  exact ⟨f (s.readMm d) (s.value64 src), by rw [hx, packed64_readable hclear hread], hrel _ _⟩

@[simp] theorem State.readMm_afterMm_same (r : Qword) (len : Nat) : (s.afterMm d r len).readMm d = r := by
  simp [State.readMm]

/-- What a completed form `mm, mm/m64` with a readable source wrote to its register. -/
theorem readMm_of_packed64_next {f : Qword → Qword → Qword} (h : packed64 f d src s = .next t)
    (hread : s.readable src 8) : t.readMm d = f (s.readMm d) (s.value64 src) := by
  obtain ⟨hclear, -⟩ := packed64_next h
  rw [packed64_readable hclear hread] at h
  cases h
  exact State.readMm_afterMm_same _ _

/-- With the source register equal to the destination both operands are the old value (R108, R130). -/
theorem exec_of_packed64_self {r : Qword} (f : Qword → Qword → Qword) (hx : exec i s = packed64 f d (.reg d) s)
    (hclear : s.entryClear) (hself : f (s.readMm d) (s.readMm d) = r) : exec i s = .next (s.afterMm d r 3) := by
  have hread : s.readable (.reg d : Rm Mm) 8 := fun _ h => nomatch h
  rw [hx, packed64_readable hclear hread, ← hself]
  rfl

end

end Sys2Proof.Machine
end

section
/-!
The arithmetic instructions (spec/40_arithmetic.md): what each function of one element is as an integer, and with it the
rule of each form, lane by lane.
-/

namespace Sys2Proof.Machine

/-! ### Sums and differences of one element (R131 to R144) -/

section
variable {w : Nat} (a b : BitVec w)

theorem addWrap_toNat : (addWrap a b).toNat = (a.toNat + b.toNat) % 2 ^ w := by
  have h : ((addWrap a b).toNat : Int) = (a.toNat + b.toNat : Int) % 2 ^ w := trunc_toNat w _
  exact_mod_cast h

theorem subWrap_toNat : ((subWrap a b).toNat : Int) = (a.toNat - b.toNat : Int) % 2 ^ w := trunc_toNat w _

theorem addSatS_toInt (hw : 0 < w) :
    (addSatS a b).toInt = max (-2 ^ (w - 1)) (min (2 ^ (w - 1) - 1) (a.toInt + b.toInt)) := satS_toInt hw _

theorem subSatS_toInt (hw : 0 < w) :
    (subSatS a b).toInt = max (-2 ^ (w - 1)) (min (2 ^ (w - 1) - 1) (a.toInt - b.toInt)) := satS_toInt hw _

/-- An unsigned sum is never below 0, so only the upper clamp acts. -/
theorem addSatU_toNat : (addSatU a b).toNat = min (2 ^ w - 1) (a.toNat + b.toNat) := by
  have h : ((addSatU a b).toNat : Int) = max 0 (min (2 ^ w - 1) (a.toNat + b.toNat : Int)) := satU_toNat w _
  have hpow : ((2 ^ w : Nat) : Int) = 2 ^ w := by push_cast; rfl
  have hpos := Nat.two_pow_pos w
  omega

/-- An unsigned difference is never above the range, so only the lower clamp acts, which is subtraction in `Nat`. -/
theorem subSatU_toNat : (subSatU a b).toNat = a.toNat - b.toNat := by
  have h : ((subSatU a b).toNat : Int) = max 0 (min (2 ^ w - 1) (a.toNat - b.toNat : Int)) := satU_toNat w _
  have hpow : ((2 ^ w : Nat) : Int) = 2 ^ w := by push_cast; rfl
  have ha := a.isLt
  omega

end

/-- Settles O35: each lane is the wrapped sum or difference of its element. -/
theorem paddAndPsubWrapAround : Obligations.PaddAndPsubWrapAround :=
  ⟨form64_of_packed64 (zip8 addWrap) fun a b k hk => by rw [lane_zip8 _ a b k hk, addWrap_toNat],
    form64_of_packed64 (zip16 addWrap) fun a b k hk => by rw [lane_zip16 _ a b k hk, addWrap_toNat],
    form64_of_packed64 (zip32 addWrap) fun a b k hk => by rw [lane_zip32 _ a b k hk, addWrap_toNat],
    form64_of_packed64 (zip8 subWrap) fun a b k hk => by rw [lane_zip8 _ a b k hk, subWrap_toNat],
    form64_of_packed64 (zip16 subWrap) fun a b k hk => by rw [lane_zip16 _ a b k hk, subWrap_toNat],
    form64_of_packed64 (zip32 subWrap) fun a b k hk => by rw [lane_zip32 _ a b k hk, subWrap_toNat]⟩

/-- Settles O36: each lane is the sum or difference of its element, clamped to the signed range. -/
theorem paddsAndPsubsSaturateSigned : Obligations.PaddsAndPsubsSaturateSigned := by
  refine ⟨form64_of_packed64 (zip8 addSatS) fun a b k hk => ?_, form64_of_packed64 (zip16 addSatS) fun a b k hk => ?_,
    form64_of_packed64 (zip8 subSatS) fun a b k hk => ?_, form64_of_packed64 (zip16 subSatS) fun a b k hk => ?_⟩
  · rw [lane_zip8 _ a b k hk]
    exact addSatS_toInt _ _ (by decide)
  · rw [lane_zip16 _ a b k hk]
    exact addSatS_toInt _ _ (by decide)
  · rw [lane_zip8 _ a b k hk]
    exact subSatS_toInt _ _ (by decide)
  · rw [lane_zip16 _ a b k hk]
    exact subSatS_toInt _ _ (by decide)

/-- Settles O37: each lane is the sum clamped from above, or the difference clamped at 0. -/
theorem paddusAndPsubusSaturateUnsigned : Obligations.PaddusAndPsubusSaturateUnsigned := by
  refine ⟨form64_of_packed64 (zip8 addSatU) fun a b k hk => ?_, form64_of_packed64 (zip16 addSatU) fun a b k hk => ?_,
    form64_of_packed64 (zip8 subSatU) fun a b k hk => ?_, form64_of_packed64 (zip16 subSatU) fun a b k hk => ?_⟩
  · rw [lane_zip8 _ a b k hk]
    exact addSatU_toNat _ _
  · rw [lane_zip16 _ a b k hk]
    exact addSatU_toNat _ _
  · rw [lane_zip8 _ a b k hk]
    exact subSatU_toNat _ _
  · rw [lane_zip16 _ a b k hk]
    exact subSatU_toNat _ _

/-! ### Sums of products of signed words (R145) -/

theorem lane_madd (a b : Qword) (k : Nat) (hk : k < 2) : lane 32 (madd a b) k = maddPair a b (2 * k) := by
  obtain ⟨h0, h1⟩ := lane_pack32 (maddPair a b 0) (maddPair a b 2)
  match k, hk with
  | 0, _ => exact h0
  | 1, _ => exact h1

theorem maddPair_toInt (a b : Qword) (k : Nat) :
    (maddPair a b k).toInt = Int.bmod ((lane 16 a k).toInt * (lane 16 b k).toInt
      + (lane 16 a (k + 1)).toInt * (lane 16 b (k + 1)).toInt) (2 ^ 32) := BitVec.toInt_ofInt _

/-- Settles O38: each doubleword is the wrapped sum of its word pair's products. -/
theorem pmaddwdSumsSignedProducts : Obligations.PmaddwdSumsSignedProducts :=
  form64_of_packed64 madd fun a b k hk => by rw [lane_madd a b k hk, maddPair_toInt]

section
variable (x y : BitVec 16)

theorem toInt_word_bounds : -32768 ≤ x.toInt ∧ x.toInt ≤ 32767 :=
  ⟨BitVec.le_toInt x, Int.lt_add_one_iff.1 BitVec.toInt_lt⟩

theorem toInt_mul_toInt_bounds : -2 ^ 30 < x.toInt * y.toInt ∧ x.toInt * y.toInt ≤ 2 ^ 30 := by
  obtain ⟨hx, hx'⟩ := toInt_word_bounds x
  obtain ⟨hy, hy'⟩ := toInt_word_bounds y
  constructor <;> nlinarith

/-- Only the square of the least word, 8000h, reaches 2^30 (C7). -/
theorem toInt_mul_toInt_eq_iff : x.toInt * y.toInt = 2 ^ 30 ↔ x = 0x8000 ∧ y = 0x8000 := by
  constructor
  · intro h
    obtain ⟨hx, hx'⟩ := toInt_word_bounds x
    obtain ⟨hy, hy'⟩ := toInt_word_bounds y
    have hxmin : x.toInt = -32768 := by nlinarith
    have hymin : y.toInt = -32768 := by rw [hxmin] at h; omega
    exact ⟨BitVec.eq_of_toInt_eq hxmin, BitVec.eq_of_toInt_eq hymin⟩
  · rintro ⟨rfl, rfl⟩
    decide

end

/-- The sum of two products of signed words passes the signed range of a doubleword only when both are 2^30. -/
theorem maddPair_toInt_exact (a b : Qword) (k : Nat) :
    (maddPair a b k).toInt = if lane 16 a k = 0x8000 ∧ lane 16 a (k + 1) = 0x8000 ∧ lane 16 b k = 0x8000
        ∧ lane 16 b (k + 1) = 0x8000
      then -2147483648
      else (lane 16 a k).toInt * (lane 16 b k).toInt + (lane 16 a (k + 1)).toInt * (lane 16 b (k + 1)).toInt := by
  split
  case isTrue h =>
    obtain ⟨ha, ha', hb, hb'⟩ := h
    rw [maddPair_toInt, ha, ha', hb, hb']
    decide
  case isFalse h =>
    obtain ⟨hlow, hlow'⟩ := toInt_mul_toInt_bounds (lane 16 a k) (lane 16 b k)
    obtain ⟨hhigh, hhigh'⟩ := toInt_mul_toInt_bounds (lane 16 a (k + 1)) (lane 16 b (k + 1))
    have hlt : (lane 16 a k).toInt * (lane 16 b k).toInt + (lane 16 a (k + 1)).toInt * (lane 16 b (k + 1)).toInt
        < 2 ^ 31 := by
      by_contra hge
      obtain ⟨ha, hb⟩ := (toInt_mul_toInt_eq_iff (lane 16 a k) (lane 16 b k)).1 (by omega)
      obtain ⟨ha', hb'⟩ := (toInt_mul_toInt_eq_iff (lane 16 a (k + 1)) (lane 16 b (k + 1))).1 (by omega)
      exact h ⟨ha, ha', hb, hb'⟩
    exact trunc_toInt_of_range (by decide) (by simp only [sval]; omega) (by simp only [sval]; omega)

/-- Settles O39: what was written is `madd` of the operands, whose doublewords wrap in one case. -/
theorem pmaddwdWrapsOnlyOnFourMinima : Obligations.PmaddwdWrapsOnlyOnFourMinima := by
  intro d src s t h hread k hk
  have hresult : t.readMm d = madd (s.readMm d) (s.value64 src) := readMm_of_packed64_next h hread
  rw [hresult, lane_madd _ _ k hk]
  exact maddPair_toInt_exact _ _ _

/-! ### The halves of a product (R146, R147) -/

section
variable (x y : BitVec 16)

theorem mulLow_toNat : (mulLow x y).toNat = x.toNat * y.toNat % 65536 := by
  have h : ((mulLow x y).toNat : Int) = x.toNat * y.toNat % 65536 := trunc_toNat 16 _
  exact_mod_cast h

/-- A word as a signed and as an unsigned integer agree modulo 2^16. -/
theorem toInt_emod_65536 : x.toInt % 65536 = x.toNat % 65536 := by
  rw [BitVec.toInt_eq_toNat_bmod]
  exact Int.bmod_emod

/-- So the low word of the unsigned product is that of the signed one. -/
theorem mulLow_toNat_eq_signed : ((mulLow x y).toNat : Int) = x.toInt * y.toInt % 65536 := by
  calc ((mulLow x y).toNat : Int)
      = x.toNat * y.toNat % 65536 := trunc_toNat 16 _
    _ = x.toInt * y.toInt % 65536 := by
      rw [Int.mul_emod, Int.mul_emod x.toInt, toInt_emod_65536, toInt_emod_65536]

theorem toInt_extractLsb'_high (z : BitVec 32) : (z.extractLsb' 16 16).toInt = z.toInt / 65536 := by
  have hz := z.isLt
  simp only [BitVec.toInt, BitVec.extractLsb'_toNat, Nat.shiftRight_eq_div_pow]
  split <;> split <;> omega

/-- The signed product is in the range of a doubleword, and its high word the quotient rounded down. -/
theorem mulHigh_toInt : (mulHigh x y).toInt = x.toInt * y.toInt / 65536 := by
  obtain ⟨hlo, hhi⟩ := toInt_mul_toInt_bounds x y
  have hproduct : (trunc 32 (x.toInt * y.toInt)).toInt = x.toInt * y.toInt :=
    trunc_toInt_of_range (by decide) (by omega) (by omega)
  rw [mulHigh, toInt_extractLsb'_high]
  exact congrArg (· / 65536) hproduct

end

/-- Settles O40: each word is the half of its element's product. -/
theorem pmulhwAndPmullwSplitTheProducts : Obligations.PmulhwAndPmullwSplitTheProducts :=
  ⟨form64_of_packed64 (zip16 mulHigh) fun a b k hk => by rw [lane_zip16 _ a b k hk, mulHigh_toInt],
    form64_of_packed64 (zip16 mulLow) fun a b k hk => by rw [lane_zip16 _ a b k hk, mulLow_toNat]⟩

/-- The two words together are the product: quotient and remainder by 2^16. -/
theorem mulHigh_append_mulLow_toInt (x y : BitVec 16) :
    (mulHigh x y ++ mulLow x y : BitVec 32).toInt = x.toInt * y.toInt := by
  calc (mulHigh x y ++ mulLow x y : BitVec 32).toInt
      = 65536 * (mulHigh x y).toInt + (mulLow x y).toNat := BitVec.toInt_append
    _ = 65536 * (x.toInt * y.toInt / 65536) + x.toInt * y.toInt % 65536 := by
      rw [mulHigh_toInt, mulLow_toNat_eq_signed]
    _ = x.toInt * y.toInt := Int.mul_ediv_add_emod _ _

/-- Settles O41: each register holds its half of every product, and the halves make the product. -/
theorem fullProductFromTwoHalves : Obligations.FullProductFromTwoHalves := by
  intro d src s hi lo hread hhi hlo k hk
  have hhigh : hi.readMm d = zip16 mulHigh (s.readMm d) (s.value64 src) := readMm_of_packed64_next hhi hread
  have hlow : lo.readMm d = zip16 mulLow (s.readMm d) (s.value64 src) := readMm_of_packed64_next hlo hread
  rw [hhigh, hlow, lane_zip16 _ _ _ k hk, lane_zip16 _ _ _ k hk]
  exact mulHigh_append_mulLow_toInt _ _

end Sys2Proof.Machine
end

section
/-!
A source register that is the destination (spec/40_arithmetic.md R130): each lane meets itself, so the result is known
from what the function of one element makes of an element with itself.
-/

namespace Sys2Proof.Machine

/-! ### An element with itself -/

section
variable {w : Nat} (x : BitVec w)

theorem subWrap_self : subWrap x x = 0#w := by simp [subWrap, trunc]

theorem satS_zero (hw : 0 < w) : satS w 0 = 0#w := by
  refine BitVec.eq_of_toInt_eq ?_
  have hp : (0 : Int) < 2 ^ (w - 1) := by positivity
  rw [satS_toInt hw, BitVec.toInt_zero]
  omega

theorem subSatS_self (hw : 0 < w) : subSatS x x = 0#w := by
  rw [subSatS, sub_self, satS_zero hw]

theorem subSatU_self : subSatU x x = 0#w := BitVec.eq_of_toNat_eq (by rw [subSatU_toNat, Nat.sub_self]; rfl)

theorem cmpEq_self : cmpEq x x = BitVec.allOnes w := by simp [cmpEq, mask]

theorem cmpGt_self : cmpGt x x = 0#w := by simp [cmpGt, mask]

end

/-! ### A register with itself (R130, R108) -/

theorem zip8_self {f : BitVec 8 → BitVec 8 → BitVec 8} {c : BitVec 8} (h : ∀ x, f x x = c) (a : Qword) :
    zip8 f a a = pack8 c c c c c c c c := by
  simp only [zip8, h]

theorem zip16_self {f : BitVec 16 → BitVec 16 → BitVec 16} {c : BitVec 16} (h : ∀ x, f x x = c) (a : Qword) :
    zip16 f a a = pack16 c c c c := by
  simp only [zip16, h]

theorem zip32_self {f : BitVec 32 → BitVec 32 → BitVec 32} {c : BitVec 32} (h : ∀ x, f x x = c) (a : Qword) :
    zip32 f a a = pack32 c c := by
  simp only [zip32, h]

/-- Settles O58: each form is its function of the old value twice, and that is the stated constant or the value. -/
theorem sameRegisterOperands : Obligations.SameRegisterOperands := by
  intro d s hclear
  simp only [List.forall_mem_cons, List.not_mem_nil, false_imp_iff, implies_true, and_true]
  refine ⟨⟨?psubb, ?psubw, ?psubd, ?psubsb, ?psubsw, ?psubusb, ?psubusw, ?pxor, ?pandn, ?pcmpgtb, ?pcmpgtw,
    ?pcmpgtd⟩, ⟨?pcmpeqb, ?pcmpeqw, ?pcmpeqd⟩, ?pand, ?por⟩
  case psubb => exact exec_of_packed64_self (zip8 subWrap) rfl hclear (zip8_self subWrap_self _)
  case psubw => exact exec_of_packed64_self (zip16 subWrap) rfl hclear (zip16_self subWrap_self _)
  case psubd => exact exec_of_packed64_self (zip32 subWrap) rfl hclear (zip32_self subWrap_self _)
  case psubsb => exact exec_of_packed64_self (zip8 subSatS) rfl hclear (zip8_self (subSatS_self · (by decide)) _)
  case psubsw => exact exec_of_packed64_self (zip16 subSatS) rfl hclear (zip16_self (subSatS_self · (by decide)) _)
  case psubusb => exact exec_of_packed64_self (zip8 subSatU) rfl hclear (zip8_self subSatU_self _)
  case psubusw => exact exec_of_packed64_self (zip16 subSatU) rfl hclear (zip16_self subSatU_self _)
  case pxor => exact exec_of_packed64_self (· ^^^ ·) rfl hclear BitVec.xor_self
  case pandn => exact exec_of_packed64_self (~~~· &&& ·) rfl hclear (by simp)
  case pcmpgtb => exact exec_of_packed64_self (zip8 cmpGt) rfl hclear (zip8_self cmpGt_self _)
  case pcmpgtw => exact exec_of_packed64_self (zip16 cmpGt) rfl hclear (zip16_self cmpGt_self _)
  case pcmpgtd => exact exec_of_packed64_self (zip32 cmpGt) rfl hclear (zip32_self cmpGt_self _)
  case pcmpeqb => exact exec_of_packed64_self (zip8 cmpEq) rfl hclear (zip8_self cmpEq_self _)
  case pcmpeqw => exact exec_of_packed64_self (zip16 cmpEq) rfl hclear (zip16_self cmpEq_self _)
  case pcmpeqd => exact exec_of_packed64_self (zip32 cmpEq) rfl hclear (zip32_self cmpEq_self _)
  case pand => exact exec_of_packed64_self (· &&& ·) rfl hclear BitVec.and_self
  case por => exact exec_of_packed64_self (· ||| ·) rfl hclear BitVec.or_self

end Sys2Proof.Machine
end

section
/-!
The comparison instructions (spec/41_comparison.md): a mask is the greatest unsigned number of its width or 0, so each
lane as a number says how its two elements compare.
-/

namespace Sys2Proof.Machine

/-! ### The masks as numbers (R160) -/

theorem mask_toNat (w : Nat) (b : Bool) : (mask w b).toNat = if b then 2 ^ w - 1 else 0 := by
  cases b with
  | true => exact BitVec.toNat_allOnes
  | false => exact BitVec.toNat_zero

section
variable {w : Nat} (a b : BitVec w)

theorem cmpEq_toNat : (cmpEq a b).toNat = if a = b then 2 ^ w - 1 else 0 :=
  (mask_toNat w (a == b)).trans (if_congr beq_iff_eq rfl rfl)

theorem cmpGt_toNat : (cmpGt a b).toNat = if b.toInt < a.toInt then 2 ^ w - 1 else 0 :=
  (mask_toNat w (decide (b.toInt < a.toInt))).trans (if_congr decide_eq_true_iff rfl rfl)

end

/-! ### The forms (R161 to R166) -/

/-- Settles O42: each lane is the mask of the equality of its elements. -/
theorem pcmpeqWritesMasks : Obligations.PcmpeqWritesMasks := by
  refine ⟨form64_of_packed64 (zip8 cmpEq) fun a b k hk => ?bytes,
    form64_of_packed64 (zip16 cmpEq) fun a b k hk => ?words,
    form64_of_packed64 (zip32 cmpEq) fun a b k hk => ?dwords⟩
  case bytes =>
    rw [lane_zip8 _ a b k hk]
    exact cmpEq_toNat _ _
  case words =>
    rw [lane_zip16 _ a b k hk]
    exact cmpEq_toNat _ _
  case dwords =>
    rw [lane_zip32 _ a b k hk]
    exact cmpEq_toNat _ _

/-- Settles O43: each lane is the mask of the signed order of its elements, the destination's the greater one. -/
theorem pcmpgtWritesMasks : Obligations.PcmpgtWritesMasks := by
  refine ⟨form64_of_packed64 (zip8 cmpGt) fun a b k hk => ?bytes,
    form64_of_packed64 (zip16 cmpGt) fun a b k hk => ?words,
    form64_of_packed64 (zip32 cmpGt) fun a b k hk => ?dwords⟩
  case bytes =>
    rw [lane_zip8 _ a b k hk]
    exact cmpGt_toNat _ _
  case words =>
    rw [lane_zip16 _ a b k hk]
    exact cmpGt_toNat _ _
  case dwords =>
    rw [lane_zip32 _ a b k hk]
    exact cmpGt_toNat _ _

end Sys2Proof.Machine
end

section
/-!
The conversion instructions (spec/42_conversion.md): the shape `packed32` gives the whole rule of a form `mm, mm/m32`
as `packed64` does of a form `mm, mm/m64`; where each element of a packed or interleaved value stands; and with both the
rule of each form.
-/

namespace Sys2Proof.Machine

/-! ### The shape `packed32` -/

/-- An operand in memory raises what AccessCheck answers (`State.source32_error` goes the other way). -/
theorem State.source32_of_accessCheck_error {s : State} {m : MemOperand} {f : Fault}
    (h : s.accessCheck (operandSegment m) (s.effectiveAddress m.addr) 4 .read = .error f) :
    s.source32 (.mem m) = .error f := by
  simp only [State.source32, State.memRead32, h]

theorem raisesOnAccess_of_packed32 {i : Instr} {d : Mm} {src : Rm Mm} {s : State} {f : Qword → Dword → Qword}
    (hx : exec i s = packed32 f d src s) : RaisesOnAccess i src 4 .read s := by
  refine raisesOnAccess_of_checked hx ?_
  rintro m g rfl hg
  simp only [State.source32_of_accessCheck_error hg, raise]

/-- The whole rule of a form that is `packed32 f`: its encoding is read off, and `f` meets the relation. -/
theorem form32_of_packed32 {op : Byte} {mk : Mm → Rm Mm → Instr} {rel : Qword → Dword → Qword → Prop}
    (f : Qword → Dword → Qword) (hrel : ∀ a b, rel a b (f a b))
    (hx : ∀ d src s, exec (mk d src) s = packed32 f d src s := by intros; rfl)
    (hbytes : ∀ d src, encode (mk d src) = src.bytes Mm.code op d := by intros; rfl) :
    Form32 op mk rel := by
  refine fun d src s => ⟨hbytes d src, fun hclear hread => ?_, raisesOnAccess_of_packed32 (hx d src s)⟩
  exact ⟨f (s.readMm d) (s.value32 src), by rw [hx, packed32_readable hclear hread], hrel _ _⟩

/-! ### Two sequences of elements, one after the other (R171 to R173) -/

theorem lane_pack8_halves (e f : Nat → BitVec 8) (k : Nat) (hk : k < 4) :
    lane 8 (pack8 (e 0) (e 1) (e 2) (e 3) (f 0) (f 1) (f 2) (f 3)) k = e k
      ∧ lane 8 (pack8 (e 0) (e 1) (e 2) (e 3) (f 0) (f 1) (f 2) (f 3)) (4 + k) = f k := by
  obtain ⟨e0, e1, e2, e3, f0, f1, f2, f3⟩ := lane_pack8 (e 0) (e 1) (e 2) (e 3) (f 0) (f 1) (f 2) (f 3)
  match k, hk with
  | 0, _ => exact ⟨e0, f0⟩
  | 1, _ => exact ⟨e1, f1⟩
  | 2, _ => exact ⟨e2, f2⟩
  | 3, _ => exact ⟨e3, f3⟩

theorem lane_pack16_halves (e f : Nat → BitVec 16) (k : Nat) (hk : k < 2) :
    lane 16 (pack16 (e 0) (e 1) (f 0) (f 1)) k = e k
      ∧ lane 16 (pack16 (e 0) (e 1) (f 0) (f 1)) (2 + k) = f k := by
  obtain ⟨e0, e1, f0, f1⟩ := lane_pack16 (e 0) (e 1) (f 0) (f 1)
  match k, hk with
  | 0, _ => exact ⟨e0, f0⟩
  | 1, _ => exact ⟨e1, f1⟩

section
variable (a b : Qword) (k : Nat)

theorem lane_packWords (f : Int → BitVec 8) (hk : k < 4) :
    lane 8 (packWords f a b) k = f (lane 16 a k).toInt
      ∧ lane 8 (packWords f a b) (4 + k) = f (lane 16 b k).toInt :=
  lane_pack8_halves (fun j => f (lane 16 a j).toInt) (fun j => f (lane 16 b j).toInt) k hk

theorem lane_packDwords (f : Int → BitVec 16) (hk : k < 2) :
    lane 16 (packDwords f a b) k = f (lane 32 a k).toInt
      ∧ lane 16 (packDwords f a b) (2 + k) = f (lane 32 b k).toInt :=
  lane_pack16_halves (fun j => f (lane 32 a j).toInt) (fun j => f (lane 32 b j).toInt) k hk

end

/-- Settles O44: a low lane is a clamped element of the destination, a high lane one of the source. -/
theorem packSaturates : Obligations.PackSaturates := by
  refine ⟨form64_of_packed64 (packWords (satS 8)) fun a b k hk => ?packsswb,
    form64_of_packed64 (packDwords (satS 16)) fun a b k hk => ?packssdw,
    form64_of_packed64 (packWords (satU 8)) fun a b k hk => ?packuswb⟩
  case packsswb =>
    obtain ⟨hlow, hhigh⟩ := lane_packWords a b k (satS 8) hk
    rw [hlow, hhigh]
    exact ⟨satS_toInt (by decide) _, satS_toInt (by decide) _⟩
  case packssdw =>
    obtain ⟨hlow, hhigh⟩ := lane_packDwords a b k (satS 16) hk
    rw [hlow, hhigh]
    exact ⟨satS_toInt (by decide) _, satS_toInt (by decide) _⟩
  case packuswb =>
    obtain ⟨hlow, hhigh⟩ := lane_packWords a b k (satU 8) hk
    rw [hlow, hhigh]
    exact ⟨satU_toNat 8 _, satU_toNat 8 _⟩

/-! ### Two sequences of elements in turn (R174 to R179) -/

theorem lane_pack8_interleaved (e f : Nat → BitVec 8) (k : Nat) (hk : k < 4) :
    lane 8 (pack8 (e 0) (f 0) (e 1) (f 1) (e 2) (f 2) (e 3) (f 3)) (2 * k) = e k
      ∧ lane 8 (pack8 (e 0) (f 0) (e 1) (f 1) (e 2) (f 2) (e 3) (f 3)) (2 * k + 1) = f k := by
  obtain ⟨e0, f0, e1, f1, e2, f2, e3, f3⟩ := lane_pack8 (e 0) (f 0) (e 1) (f 1) (e 2) (f 2) (e 3) (f 3)
  match k, hk with
  | 0, _ => exact ⟨e0, f0⟩
  | 1, _ => exact ⟨e1, f1⟩
  | 2, _ => exact ⟨e2, f2⟩
  | 3, _ => exact ⟨e3, f3⟩

theorem lane_pack16_interleaved (e f : Nat → BitVec 16) (k : Nat) (hk : k < 2) :
    lane 16 (pack16 (e 0) (f 0) (e 1) (f 1)) (2 * k) = e k
      ∧ lane 16 (pack16 (e 0) (f 0) (e 1) (f 1)) (2 * k + 1) = f k := by
  obtain ⟨e0, f0, e1, f1⟩ := lane_pack16 (e 0) (f 0) (e 1) (f 1)
  match k, hk with
  | 0, _ => exact ⟨e0, f0⟩
  | 1, _ => exact ⟨e1, f1⟩

/-- Settles O45: the two sequences are the elements of the high halves. -/
theorem punpckhInterleavesHighHalves : Obligations.PunpckhInterleavesHighHalves :=
  ⟨form64_of_packed64 unpackHighBytes fun a b =>
      lane_pack8_interleaved (fun j => lane 8 a (4 + j)) (fun j => lane 8 b (4 + j)),
    form64_of_packed64 unpackHighWords fun a b =>
      lane_pack16_interleaved (fun j => lane 16 a (2 + j)) (fun j => lane 16 b (2 + j)),
    form64_of_packed64 unpackHighDwords fun a b => lane_pack32 (lane 32 a 1) (lane 32 b 1)⟩

/-- Settles O46: the two sequences are the elements of the destination's low half and of the 32-bit source. -/
theorem punpcklInterleavesLowHalves : Obligations.PunpcklInterleavesLowHalves :=
  ⟨form32_of_packed32 unpackLowBytes fun a b => lane_pack8_interleaved (lane 8 a) (lane 8 b),
    form32_of_packed32 unpackLowWords fun a b => lane_pack16_interleaved (lane 16 a) (lane 16 b),
    form32_of_packed32 unpackLowDwords fun a b => lane_pack32 (lane 32 a 0) b⟩

end Sys2Proof.Machine
end

section
/-!
The logical instructions (spec/43_logical.md): each is one bitwise operation on the whole quadwords, so its rule is the
shape `packed64` with the library's equation for a bit of that operation.
-/

namespace Sys2Proof.Machine

/-- The complement has a bit of its own only below the width, which is why the bit's place has to be in the quadword. -/
theorem getLsbD_not_and {w j : Nat} (a b : BitVec w) (hj : j < w) :
    (~~~a &&& b).getLsbD j = (!a.getLsbD j && b.getLsbD j) := by
  rw [BitVec.getLsbD_and, BitVec.getLsbD_not, decide_eq_true hj, Bool.true_and]

/-- Settles O47: each bit of the result is the operation on the operands' bits; PANDN complements the destination's. -/
theorem logicalBitByBit : Obligations.LogicalBitByBit := by
  refine ⟨form64_of_packed64 (· &&& ·) fun a b j _ => ?pand, form64_of_packed64 (~~~· &&& ·) fun a b j hj => ?pandn,
    form64_of_packed64 (· ||| ·) fun a b j _ => ?por, form64_of_packed64 (· ^^^ ·) fun a b j _ => ?pxor⟩
  case pand => exact BitVec.getLsbD_and
  case pandn => exact getLsbD_not_and a b hj
  case por => exact BitVec.getLsbD_or
  case pxor => exact BitVec.getLsbD_xor

end Sys2Proof.Machine
end

section
/-!
The shift instructions (spec/44_shift.md): the operand forms are the shape `packed64` and the immediate forms
`shiftByImm`, both with the same function of a count and the old value. So each lane is described once as a number, and
the two forms of a shift agree where their counts do.
-/

namespace Sys2Proof.Machine

/-! ### The lanes of a shifted value (R194) -/

section
variable (c : Nat) (a : Qword) (k : Nat)

theorem lane_map16_shiftLeft (hk : k < 4) :
    (lane 16 (map16 (shiftLeft c) a) k).toNat = if 15 < c then 0 else (lane 16 a k).toNat * 2 ^ c % 2 ^ 16 := by
  rw [lane_map16 _ a k hk]
  exact shiftLeft_toNat c _

theorem lane_map32_shiftLeft (hk : k < 2) :
    (lane 32 (map32 (shiftLeft c) a) k).toNat = if 31 < c then 0 else (lane 32 a k).toNat * 2 ^ c % 2 ^ 32 := by
  rw [lane_map32 _ a k hk]
  exact shiftLeft_toNat c _

theorem lane_map16_shiftRight (hk : k < 4) :
    (lane 16 (map16 (shiftRight c) a) k).toNat = if 15 < c then 0 else (lane 16 a k).toNat / 2 ^ c := by
  rw [lane_map16 _ a k hk]
  exact shiftRight_toNat c _

theorem lane_map32_shiftRight (hk : k < 2) :
    (lane 32 (map32 (shiftRight c) a) k).toNat = if 31 < c then 0 else (lane 32 a k).toNat / 2 ^ c := by
  rw [lane_map32 _ a k hk]
  exact shiftRight_toNat c _

theorem lane_map16_shiftRightSigned (hk : k < 4) :
    (lane 16 (map16 (shiftRightSigned c) a) k).toInt = (lane 16 a k).toInt / 2 ^ min c 15 := by
  rw [lane_map16 _ a k hk]
  exact shiftRightSigned_toInt (by decide) c _

theorem lane_map32_shiftRightSigned (hk : k < 2) :
    (lane 32 (map32 (shiftRightSigned c) a) k).toInt = (lane 32 a k).toInt / 2 ^ min c 31 := by
  rw [lane_map32 _ a k hk]
  exact shiftRightSigned_toInt (by decide) c _

end

/-! ### The shape `shiftByImm` -/

/-- The whole rule of a form that is `shiftByImm f`, as `form64_of_packed64` of a form that is `packed64 f`. -/
theorem formImm_of_shiftByImm {op : Byte} {digit : BitVec 3} {mk : Mm → Byte → Instr} {rel : Nat → Qword → Qword → Prop}
    (f : Nat → Qword → Qword) (hrel : ∀ c a, rel c a (f c a))
    (hx : ∀ d imm s, exec (mk d imm) s = shiftByImm f d imm s := by intros; rfl)
    (hbytes : ∀ d imm, encode (mk d imm) = [0x0F, op, fieldsByte 3 digit d.code, imm] := by intros; rfl) :
    FormImm op digit mk rel := by
  refine fun d imm s => ⟨hbytes d imm, fun hclear => ?_, raisesEntry_of_checked (hx d imm s)⟩
  exact ⟨f imm.toNat (s.readMm d), by rw [hx, shiftByImm_clear hclear], hrel _ _⟩

/-! ### The forms (R195 to R210) -/

/-- Settles O48: each lane is shifted left by the source's 64 bits as one number. -/
theorem psllByOperand : Obligations.PsllByOperand :=
  ⟨form64_of_packed64 (fun a b => map16 (shiftLeft b.toNat) a) fun a b => lane_map16_shiftLeft b.toNat a,
    form64_of_packed64 (fun a b => map32 (shiftLeft b.toNat) a) fun a b => lane_map32_shiftLeft b.toNat a,
    form64_of_packed64 (fun a b => shiftLeft b.toNat a) fun a b => shiftLeft_toNat b.toNat a⟩

/-- Settles O49: the immediate forms shift each lane as the operand forms do, by the byte as a number. -/
theorem shiftsByImmediate : Obligations.ShiftsByImmediate :=
  ⟨formImm_of_shiftByImm (fun c => map16 (shiftLeft c)) lane_map16_shiftLeft,
    formImm_of_shiftByImm (fun c => map32 (shiftLeft c)) lane_map32_shiftLeft,
    formImm_of_shiftByImm (fun c => shiftLeft c) shiftLeft_toNat,
    formImm_of_shiftByImm (fun c => map16 (shiftRight c)) lane_map16_shiftRight,
    formImm_of_shiftByImm (fun c => map32 (shiftRight c)) lane_map32_shiftRight,
    formImm_of_shiftByImm (fun c => shiftRight c) shiftRight_toNat,
    formImm_of_shiftByImm (fun c => map16 (shiftRightSigned c)) lane_map16_shiftRightSigned,
    formImm_of_shiftByImm (fun c => map32 (shiftRightSigned c)) lane_map32_shiftRightSigned⟩

/-- Settles O50: each lane is shifted right, unsigned or signed, by the source's 64 bits as one number. -/
theorem psrlAndPsraByOperand : Obligations.PsrlAndPsraByOperand :=
  ⟨form64_of_packed64 (fun a b => map16 (shiftRight b.toNat) a) fun a b => lane_map16_shiftRight b.toNat a,
    form64_of_packed64 (fun a b => map32 (shiftRight b.toNat) a) fun a b => lane_map32_shiftRight b.toNat a,
    form64_of_packed64 (fun a b => shiftRight b.toNat a) fun a b => shiftRight_toNat b.toNat a,
    form64_of_packed64 (fun a b => map16 (shiftRightSigned b.toNat) a) fun a b => lane_map16_shiftRightSigned b.toNat a,
    form64_of_packed64 (fun a b => map32 (shiftRightSigned b.toNat) a) fun a b => lane_map32_shiftRightSigned b.toNat a⟩

/-! ### A count in a register and the same immediate count (R193, R194) -/

/-- The effect of an instruction one byte longer is the same but for EIP. -/
theorem State.afterMm_succ (s : State) (d : Mm) (r : Qword) (len : Nat) :
    s.afterMm d r (len + 1) = { s.afterMm d r len with eip := (s.afterMm d r len).eip + 1 } := by
  simp only [State.afterMm, BitVec.ofNat_add, BitVec.add_assoc]
  rfl

/-- The two forms of one shift function leave the same state but for EIP where their counts are the same number. -/
theorem exec_shift_counts_agree {i j : Instr} {d c : Mm} {imm : Byte} {s : State} (f : Nat → Qword → Qword)
    (hi : exec i s = shiftByOperand f d (.reg c) s) (hj : exec j s = shiftByImm f d imm s) (hclear : s.entryClear)
    (hcount : s.readMm c = imm.setWidth 64) : ∃ t, exec i s = .next t ∧ exec j s = .next { t with eip := t.eip + 1 } := by
  have hread : s.readable (.reg c : Rm Mm) 8 := fun _ h => nomatch h
  have hnat : (s.value64 (.reg c)).toNat = imm.toNat := by
    rw [State.value64, hcount, BitVec.toNat_setWidth_of_le (by decide)]
  refine ⟨s.afterMm d (f imm.toNat (s.readMm d)) 3, ?_, ?_⟩
  · rw [hi, shiftByOperand, packed64_readable hclear hread, hnat]
    rfl
  · rw [hj, shiftByImm_clear hclear, State.afterMm_succ]

/-- Settles O51: the two forms of each shift are one function of the count. -/
theorem immediateAndRegisterCountsAgree : Obligations.ImmediateAndRegisterCountsAgree := by
  intro d c imm s hcount hclear
  simp only [List.forall_mem_cons, List.not_mem_nil, false_imp_iff, implies_true, and_true]
  refine ⟨?psllw, ?pslld, ?psllq, ?psrlw, ?psrld, ?psrlq, ?psraw, ?psrad⟩
  case psllw => exact exec_shift_counts_agree (fun n => map16 (shiftLeft n)) rfl rfl hclear hcount
  case pslld => exact exec_shift_counts_agree (fun n => map32 (shiftLeft n)) rfl rfl hclear hcount
  case psllq => exact exec_shift_counts_agree (fun n => shiftLeft n) rfl rfl hclear hcount
  case psrlw => exact exec_shift_counts_agree (fun n => map16 (shiftRight n)) rfl rfl hclear hcount
  case psrld => exact exec_shift_counts_agree (fun n => map32 (shiftRight n)) rfl rfl hclear hcount
  case psrlq => exact exec_shift_counts_agree (fun n => shiftRight n) rfl rfl hclear hcount
  case psraw => exact exec_shift_counts_agree (fun n => map16 (shiftRightSigned n)) rfl rfl hclear hcount
  case psrad => exact exec_shift_counts_agree (fun n => map32 (shiftRightSigned n)) rfl rfl hclear hcount

end Sys2Proof.Machine
end

section
/-!
The data transfer instructions (spec/45_data_transfer.md): what a store of several bytes leaves in memory, where two of
its linear addresses may be mapped to one memory address; with it the whole rule of a store form
(`storesToMemory_of_checked`); and the four forms.
-/

namespace Sys2Proof.Machine

/-! ### What a store leaves in memory (R61, R66) -/

/-- A memory address reads as the last byte stored to it: the bytes after it go elsewhere (`State.byteAt_storeBytes`
asks that all the memory addresses differ). -/
theorem State.read_storeBytes_last {s : State} {a : Dword} {bs : List Byte} {k : Nat} (hwf : s.mem.wf = true)
    (hk : k < bs.length)
    (hlast : ∀ j < bs.length, k < j → s.physical (a + BitVec.ofNat 32 j) ≠ s.physical (a + BitVec.ofNat 32 k)) :
    (s.storeBytes a bs).mem.read (s.physical (a + BitVec.ofNat 32 k)).toNat = bs[k] := by
  induction bs generalizing s a k with
  | nil => exact absurd hk (Nat.not_lt_zero k)
  | cons b bs ih =>
    have hlen (j : Nat) (hj : j < bs.length) : j + 1 < (b :: bs).length := Nat.succ_lt_succ hj
    rw [State.storeBytes]
    cases k with
    | zero =>
      have hlater : ∀ j < bs.length, (s.physical (a + BitVec.ofNat 32 0)).toNat
          ≠ ((s.setByte a b).physical (a + 1 + BitVec.ofNat 32 j)).toNat := by
        intro j hj heq
        rw [State.physical_setByte, address_succ] at heq
        exact hlast (j + 1) (hlen j hj) (Nat.succ_pos j) (BitVec.eq_of_toNat_eq heq.symm)
      rw [State.read_storeBytes_other _ _ _ _ hlater, BitVec.add_zero]
      exact Memory.read_write_same _ _ hwf
    | succ k =>
      have htail : ∀ j < bs.length, k < j → (s.setByte a b).physical (a + 1 + BitVec.ofNat 32 j)
          ≠ (s.setByte a b).physical (a + 1 + BitVec.ofNat 32 k) := by
        intro j hj hkj
        simp only [State.physical_setByte, address_succ]
        exact hlast (j + 1) (hlen j hj) (Nat.succ_lt_succ hkj)
      have hread := ih (State.setByte_wf a b hwf) (Nat.lt_of_succ_lt_succ hk) htail
      rwa [State.physical_setByte, address_succ] at hread

/-- A store of the low bytes of v, in order, is the memory that `State.storedAt` describes. -/
theorem State.storedAt_storeBytes {s : State} {a : Dword} {v : Qword} {bytes : List Byte}
    (hbytes : ∀ k (hk : k < bytes.length), bytes[k] = v.extractLsb' (8 * k) 8) :
    s.storedAt a bytes.length v (s.storeBytes a bytes).mem := by
  refine ⟨fun x hx => State.read_storeBytes_other s a bytes x hx, fun hwf => ⟨State.storeBytes_wf a bytes hwf, ?_⟩⟩
  intro k hk hlast
  rw [State.read_storeBytes_last hwf hk hlast, hbytes k hk]

/-- A store of bytes changes memory and no other field. -/
theorem State.storeBytes_eq_mem (s : State) (a : Dword) (bytes : List Byte) :
    s.storeBytes a bytes = { s with mem := (s.storeBytes a bytes).mem } := by
  induction bytes generalizing s a with
  | nil => rfl
  | cons b bs ih => exact ih (s.setByte a b) (a + 1)

/-- A store of bytes and the completion change memory, TW and EIP. -/
theorem State.storeBytes_complete (s : State) (a : Dword) (bytes : List Byte) (len : Nat) :
    (s.storeBytes a bytes).complete len
      = { s with mem := (s.storeBytes a bytes).mem, tw := 0x0000#16, eip := s.eip + BitVec.ofNat 32 len } :=
  congrArg (State.complete · len) (State.storeBytes_eq_mem s a bytes)

/-- Byte k of the low doubleword of a register, as `getElem_bytes64` of the whole register. -/
theorem getElem_bytes32_low (v : Qword) {k : Nat} (hk : k < 4) :
    (bytes32 (v.extractLsb' 0 32))[k]'hk = v.extractLsb' (8 * k) 8 := by
  match k, hk with
  | 0, _ | 1, _ | 2, _ | 3, _ => exact extractLsb'_extractLsb' v (by decide)

/-! ### The end of a store form -/

section
variable {m : MemOperand} {bytes : List Byte} {len : Nat} {s : State}

/-- A legal store outside the program writes its bytes, TW and EIP (`storeToMemory_next` goes the other way). -/
theorem storeToMemory_legal (hlegal : s.operandLegal m bytes.length .write)
    (hp : s.storeHitsProgram (s.operandAddress m) bytes.length = false) :
    storeToMemory m bytes len s = .next { s with
      mem := (s.storeBytes (s.operandAddress m) bytes).mem, tw := 0x0000#16, eip := s.eip + BitVec.ofNat 32 len } := by
  rw [storeToMemory, State.memWrite_legal hlegal hp]
  exact congrArg Host.Outcome.next (State.storeBytes_complete s (s.operandAddress m) bytes len)

/-- A store raises what AccessCheck answers. -/
theorem storeToMemory_of_accessCheck_error {f : Fault}
    (h : s.accessCheck (operandSegment m) (s.effectiveAddress m.addr) bytes.length .write = .error f) :
    storeToMemory m bytes len s = .fault f := by
  simp only [storeToMemory, State.memWrite, h, raise]

/-- The whole rule of a store to memory: after the entry checks the form is one store of the low n bytes of v. -/
theorem storesToMemory_of_checked {i : Instr} {n : Nat} {v : Qword}
    (hx : exec i s = checked s (storeToMemory m bytes len s)) (hlen : bytes.length = n)
    (hbytes : ∀ k (hk : k < bytes.length), bytes[k] = v.extractLsb' (8 * k) 8) :
    StoresToMemory i m n v len s := by
  subst hlen
  refine ⟨fun hclear hlegal hp => ?completes, fun hclear hlegal hp => ?refused, fun hclear f hf => ?raises⟩
  all_goals rw [hx, checked_clear _ hclear]
  case completes => exact ⟨_, storeToMemory_legal hlegal hp, State.storedAt_storeBytes hbytes⟩
  case refused => exact (storeToMemory_refused_iff m bytes len s).2 ⟨hlegal, hp⟩
  case raises => exact storeToMemory_of_accessCheck_error hf

end

/-! ### MOVD (R216, R217) -/

/-- Zero extension is the doubleword below a doubleword of zeros. -/
theorem setWidth_eq_pack32 (v : Dword) : v.setWidth 64 = pack32 v 0 := BitVec.setWidth_eq_append (by decide)

/-- An r/m32 operand in memory raises what AccessCheck answers (`State.sourceGpr_error` goes the other way). -/
theorem State.sourceGpr_of_accessCheck_error {s : State} {m : MemOperand} {f : Fault}
    (h : s.accessCheck (operandSegment m) (s.effectiveAddress m.addr) 4 .read = .error f) :
    s.sourceGpr (.mem m) = .error f := by
  simp only [State.sourceGpr, State.memRead32, h]

theorem execMovdLoad_readable {d : Mm} {src : Rm Gpr} {s : State} (hclear : s.entryClear) (hread : s.readable src 4) :
    execMovdLoad d src s = .next (s.afterMm d ((s.valueGpr src).setWidth 64) src.length) := by
  rw [execMovdLoad, checked_clear _ hclear, State.sourceGpr_readable hread]
  rfl

/-- Settles O52: the source is the low lane of its zero extension, and the high lane is zero. -/
theorem movdLoadZeroExtends : Obligations.MovdLoadZeroExtends := by
  refine fun d src s => ⟨rfl, fun hclear hread => ?completes, raisesOnAccess_of_checked rfl ?raises⟩
  case completes =>
    refine ⟨(s.valueGpr src).setWidth 64, execMovdLoad_readable hclear hread, ?_⟩
    rw [setWidth_eq_pack32]
    exact lane_pack32 (s.valueGpr src) 0
  case raises =>
    rintro m f rfl hf
    simp only [State.sourceGpr_of_accessCheck_error hf, raise]

/-- Settles O53: an integer register is written whole, and memory by a store of the four low bytes. -/
theorem movdStoreWritesLowDoubleword : Obligations.MovdStoreWritesLowDoubleword := by
  refine fun dst src s => ⟨rfl, ?register, ?memory, raisesEntry_of_checked rfl⟩
  case register =>
    rintro hclear g rfl
    exact checked_clear _ hclear
  case memory =>
    rintro m rfl
    exact storesToMemory_of_checked rfl rfl fun k hk => getElem_bytes32_low (s.readMm src) hk

/-! ### MOVQ (R218, R219) -/

/-- Settles O54: MOVQ is the shape `packed64` of the function that answers its source. -/
theorem movqLoadCopies : Obligations.MovqLoadCopies := form64_of_packed64 (fun _ b => b) fun _ _ => rfl

/-- Settles O55: an MMX register is written whole, and memory by a store of its eight bytes. -/
theorem movqStoreCopies : Obligations.MovqStoreCopies := by
  refine fun dst src s => ⟨rfl, ?register, ?memory, raisesEntry_of_checked rfl⟩
  case register =>
    rintro hclear r rfl
    exact checked_clear _ hclear
  case memory =>
    rintro m rfl
    exact storesToMemory_of_checked rfl rfl fun k hk => getElem_bytes64 (s.readMm src) hk

/-- A register written with its own value keeps it, so only TW and EIP change. -/
theorem State.afterMm_readMm (s : State) (d : Mm) (len : Nat) :
    s.afterMm d (s.readMm d) len = { s with tw := 0x0000#16, eip := s.eip + BitVec.ofNat 32 len } := by
  simp only [State.afterMm, State.readMm, MmFile.set_get]

/-- Settles O56: both encodings run the entry checks and then write the register read; a register written with its own
value is unchanged. -/
theorem registerMoveEncodingsAgree : Obligations.RegisterMoveEncodingsAgree := by
  refine fun d r s => ⟨rfl, fun hclear => ?_⟩
  rw [exec_of_packed64_self (fun _ b => b) rfl hclear rfl, State.afterMm_readMm]

end Sys2Proof.Machine
end

section
/-!
EMMS (spec/46_emms.md R225): after the entry checks the form only sets the tag word and advances EIP.
-/

namespace Sys2Proof.Machine

/-- The tags set to empty and the advance past format E are one update of TW and EIP. -/
theorem State.setTags_empty_advance (s : State) :
    (s.setTags tagsEmpty).advance formatELength = { s with tw := 0xFFFF#16, eip := s.eip + 2#32 } := rfl

/-- EMMS is its entry checks and then that one update. -/
theorem exec_emms (s : State) :
    exec .emms s = checked s (.next { s with tw := 0xFFFF#16, eip := s.eip + 2#32 }) := by
  rw [← State.setTags_empty_advance]
  rfl

/-- Settles O57: both clauses about exec come from EMMS being checked and then one update: it completes where the
checks pass, and raises what they raise where one fails. -/
theorem emmsEmptiesTheTagWord : Obligations.EmmsEmptiesTheTagWord := by
  refine fun s => ⟨rfl, fun hclear => ?completes, raisesEntry_of_checked (exec_emms s)⟩
  case completes =>
    rw [exec_emms]
    exact checked_clear _ hclear

end Sys2Proof.Machine
end

section
/-!
What an instruction can raise (spec/60_exceptions.md). After the entry checks an instruction completes, or it makes
one access and goes on with the linear address that AccessCheck answers (R18, R63, R241): `exec_form` says so once for
all 57 forms. Which exceptions there are, and that nothing else depends on the mode, follow from it.
-/

namespace Sys2Proof.Machine

/-! ### An access and what follows it -/

/-- What AccessCheck answers for a memory operand. -/
abbrev State.checkOperand (s : State) (m : MemOperand) (n : Nat) (kind : AccessKind) : Except Fault Dword :=
  s.accessCheck (operandSegment m) (s.effectiveAddress m.addr) n kind

/-- An access: the fault that AccessCheck answers, or what follows with the linear address. -/
def afterAccess (answer : Except Fault Dword) (next : Dword → Host.Outcome State Fault Refusal) :
    Host.Outcome State Fault Refusal :=
  match answer with
  | .error f => .fault f
  | .ok a => next a

theorem afterAccess_fault_iff {answer : Except Fault Dword} {next : Dword → Host.Outcome State Fault Refusal}
    (hnext : ∀ a f, next a ≠ .fault f) (f : Fault) : afterAccess answer next = .fault f ↔ answer = .error f := by
  cases answer <;> simp [afterAccess, hnext]

/-- Only what follows an admitted access completes or is refused. -/
theorem ok_of_afterAccess {answer : Except Fault Dword} {next : Dword → Host.Outcome State Fault Refusal}
    {o : Host.Outcome State Fault Refusal} (h : afterAccess answer next = o) (ho : ∀ f, o ≠ .fault f) :
    ∃ a, answer = .ok a ∧ next a = o := by
  cases answer with
  | error f => exact absurd h.symm (ho f)
  | ok a => exact ⟨a, rfl, h⟩

/-- The state under another mode and privilege level. -/
def State.withMode (s : State) (mode : Mode) (cpl : BitVec 2) : State := { s with mode := mode, cpl := cpl }

/-! ### Every instruction after its entry checks -/

/-- What an instruction is after its entry checks, without and with a memory operand: nothing but the access itself
raises, nothing but a store into the program is refused, and nothing after the access reads the mode or the level. -/
inductive ExecForm (i : Instr) : Prop where
  | plain (result : State → State) (hm : i.memOperand? = none) (hx : ∀ s, exec i s = checked s (.next (result s)))
      (hmode : ∀ s mode cpl, result (s.withMode mode cpl) = (result s).withMode mode cpl)
  | access (m : MemOperand) (n : Nat) (kind : AccessKind) (next : State → Dword → Host.Outcome State Fault Refusal)
      (hm : i.memOperand? = some m) (ha : i.access = some (n, kind)) (hn : n = 4 ∨ n = 8)
      (hx : ∀ s, exec i s = checked s (afterAccess (s.checkOperand m n kind) (next s)))
      (hfault : ∀ s a f, next s a ≠ .fault f) (hrefused : ∀ s a r, next s a = .refused r → r = .storeIntoProgram)
      (hmode : ∀ s mode cpl a, next (s.withMode mode cpl) a = mapNext (·.withMode mode cpl) (next s a))

/-- A form that reads its memory operand completes once the access is admitted. -/
theorem ExecForm.of_read {i : Instr} {m : MemOperand} {n : Nat} (result : State → Dword → State)
    (hm : i.memOperand? = some m) (ha : i.access = some (n, .read)) (hn : n = 4 ∨ n = 8)
    (hx : ∀ s, exec i s = checked s (afterAccess (s.checkOperand m n .read) fun a => .next (result s a)))
    (hmode : ∀ s mode cpl a, result (s.withMode mode cpl) a = (result s a).withMode mode cpl) : ExecForm i :=
  .access m n .read (fun s a => .next (result s a)) hm ha hn hx (by simp) (by simp)
    fun s mode cpl a => congrArg Host.Outcome.next (hmode s mode cpl a)

/-- What a store does once its access is admitted (R66, R78). -/
def storeAt (bytes : List Byte) (len : Nat) (s : State) (a : Dword) : Host.Outcome State Fault Refusal :=
  if s.storeHitsProgram a bytes.length then .refused .storeIntoProgram else .next ((s.storeBytes a bytes).complete len)

theorem storeToMemory_eq (m : MemOperand) (bytes : List Byte) (len : Nat) (s : State) :
    storeToMemory m bytes len s = afterAccess (s.checkOperand m bytes.length .write) (storeAt bytes len s) := by
  unfold storeToMemory State.memWrite State.checkOperand
  cases s.accessCheck (operandSegment m) (s.effectiveAddress m.addr) bytes.length .write with
  | error f => rfl
  | ok a =>
    by_cases hp : s.storeHitsProgram a bytes.length = true <;> simp [afterAccess, storeAt, hp]

theorem State.withMode_effectiveAddress (s : State) (mode : Mode) (cpl : BitVec 2) (a : Addr) :
    (s.withMode mode cpl).effectiveAddress a = s.effectiveAddress a := by
  cases a <;> rfl

theorem State.storeBytes_withMode (s : State) (mode : Mode) (cpl : BitVec 2) (a : Dword) (bytes : List Byte) :
    (s.withMode mode cpl).storeBytes a bytes = (s.storeBytes a bytes).withMode mode cpl := by
  induction bytes generalizing s a with
  | nil => rfl
  | cons b bs ih => exact ih (s.setByte a b) (a + 1)

theorem storeAt_withMode (bytes : List Byte) (len : Nat) (s : State) (mode : Mode) (cpl : BitVec 2) (a : Dword) :
    storeAt bytes len (s.withMode mode cpl) a = mapNext (·.withMode mode cpl) (storeAt bytes len s a) := by
  have hhits : (s.withMode mode cpl).storeHitsProgram a bytes.length = s.storeHitsProgram a bytes.length := rfl
  simp only [storeAt, hhits, State.storeBytes_withMode]
  split <;> rfl

/-- A form that stores to its memory operand, the bytes being data of the state other than the mode and the level. -/
theorem ExecForm.of_store {i : Instr} {m : MemOperand} {n len : Nat} (bytes : State → List Byte)
    (hlen : ∀ s, (bytes s).length = n) (hm : i.memOperand? = some m) (ha : i.access = some (n, .write))
    (hn : n = 4 ∨ n = 8) (hx : ∀ s, exec i s = checked s (storeToMemory m (bytes s) len s))
    (hbytes : ∀ s mode cpl, bytes (s.withMode mode cpl) = bytes s) : ExecForm i := by
  refine .access m n .write (fun s => storeAt (bytes s) len s) hm ha hn (fun s => ?_) (fun s a f => ?_)
    (fun s a r h => ?_) fun s mode cpl a => ?_
  · rw [hx, storeToMemory_eq, hlen]
  · unfold storeAt
    split <;> simp
  · unfold storeAt at h
    split at h
    · cases h
      rfl
    · cases h
  · rw [hbytes, storeAt_withMode]

/-- SAY ONCE WHAT AN INSTRUCTION IS AFTER ITS ENTRY CHECKS. -/
theorem exec_form (i : Instr) : ExecForm i := by
  cases exec_shape i with
  | emms hi =>
    subst hi
    exact .plain (fun s => (s.setTags tagsEmpty).advance formatELength) rfl (fun _ => rfl) fun _ _ _ => rfl
  | packed64 f d src hi hx hl hm ha hd =>
    cases src with
    | reg r => exact .plain (fun s => s.afterMm d (f (s.readMm d) (s.readMm r)) 3) hm hx fun _ _ _ => rfl
    | mem m =>
      refine .of_read (fun s a => s.afterMm d (f (s.readMm d) (s.load64 a)) (Rm.mem (ρ := Mm) m).length) hm ha
        (.inr rfl) (fun s => ?_) fun _ _ _ _ => rfl
      rw [hx, packed64, State.source64, State.memRead64, State.checkOperand]
      cases s.accessCheck (operandSegment m) (s.effectiveAddress m.addr) 8 .read <;> rfl
  | packed32 f d src hi hx hl hm ha hd =>
    cases src with
    | reg r =>
      exact .plain (fun s => s.afterMm d (f (s.readMm d) ((s.readMm r).extractLsb' 0 32)) 3) hm hx fun _ _ _ => rfl
    | mem m =>
      refine .of_read (fun s a => s.afterMm d (f (s.readMm d) (s.load32 a)) (Rm.mem (ρ := Mm) m).length) hm ha
        (.inl rfl) (fun s => ?_) fun _ _ _ _ => rfl
      rw [hx, packed32, State.source32, State.memRead32, State.checkOperand]
      cases s.accessCheck (operandSegment m) (s.effectiveAddress m.addr) 4 .read <;> rfl
  | imm f d imm hi hx hl hm ha hd =>
    exact .plain (fun s => s.afterMm d (f imm.toNat (s.readMm d)) formatRILength) hm hx fun _ _ _ => rfl
  | movdLoad d src hi =>
    subst hi
    cases src with
    | reg r =>
      exact .plain (fun s => s.afterMm d ((s.readGpr r).setWidth 64) 3) rfl (fun _ => rfl) fun _ _ _ => rfl
    | mem m =>
      refine .of_read (fun s a => s.afterMm d ((s.load32 a).setWidth 64) (Rm.mem (ρ := Gpr) m).length) rfl rfl
        (.inl rfl) (fun s => ?_) fun _ _ _ _ => rfl
      rw [exec, execMovdLoad, State.sourceGpr, State.memRead32, State.checkOperand]
      cases s.accessCheck (operandSegment m) (s.effectiveAddress m.addr) 4 .read <;> rfl
  | movdStore dst src hi =>
    subst hi
    cases dst with
    | reg r =>
      exact .plain (fun s => (s.writeGpr r ((s.readMm src).extractLsb' 0 32)).complete 3) rfl (fun _ => rfl)
        fun _ _ _ => rfl
    | mem m =>
      exact .of_store (fun s => bytes32 ((s.readMm src).extractLsb' 0 32)) (fun _ => rfl) rfl rfl (.inl rfl)
        (fun _ => rfl) fun _ _ _ => rfl
  | movqStore dst src hi =>
    subst hi
    cases dst with
    | reg r => exact .plain (fun s => s.afterMm r (s.readMm src) 3) rfl (fun _ => rfl) fun _ _ _ => rfl
    | mem m =>
      exact .of_store (fun s => bytes64 (s.readMm src)) (fun _ => rfl) rfl rfl (.inr rfl) (fun _ => rfl)
        fun _ _ _ => rfl

/-! ### What an instruction raises and refuses -/

theorem exec_checked (i : Instr) (s : State) : ∃ body, exec i s = checked s body := by
  cases exec_form i with
  | plain result hm hx hmode => exact ⟨_, hx s⟩
  | access m n kind next hm ha hn hx hfault hrefused hmode => exact ⟨_, hx s⟩

/-- A fault is that of an entry check, or a memory fault whose condition holds. -/
theorem exec_fault {i : Instr} {s : State} {f : Fault} (h : exec i s = .fault f) :
    s.entryFault = some f ∨ (s.entryClear ∧ ∃ seg ea n kind, s.FaultHolds seg ea n kind f) := by
  cases exec_form i with
  | plain result hm hx hmode =>
    rw [hx] at h
    exact (checked_fault h).imp_right fun ⟨_, hnext⟩ => by cases hnext
  | access m n kind next hm ha hn hx hfault hrefused hmode =>
    rw [hx] at h
    refine (checked_fault h).imp_right fun ⟨hclear, hf⟩ => ⟨hclear, ?_⟩
    exact ⟨_, _, n, kind, State.faultHolds_of_accessCheck_error ((afterAccess_fault_iff (hfault s) f).1 hf)⟩

/-- The only refusal of a meaning is a store into the program (R78). -/
theorem exec_refused {i : Instr} {s : State} {r : Refusal} (h : exec i s = .refused r) : r = .storeIntoProgram := by
  cases exec_form i with
  | plain result hm hx hmode =>
    rw [hx, checked_refused_iff] at h
    cases h.2
  | access m n kind next hm ha hn hx hfault hrefused hmode =>
    rw [hx, checked_refused_iff] at h
    obtain ⟨a, -, hnext⟩ := ok_of_afterAccess h.2 (by simp)
    exact hrefused s a r hnext

/-- The causes of the three entry exceptions, in their order (R231, R232, R233, R236). -/
theorem State.entryFault_eq_some {s : State} {f : Fault} :
    s.entryFault = some f ↔
      (f = .invalidOpcode ∧ s.cr0Em = true)
        ∨ (f = .deviceNotAvailable ∧ s.cr0Em = false ∧ s.cr0Ts = true)
        ∨ (f = .floatingPointError ∧ s.cr0Em = false ∧ s.cr0Ts = false ∧ s.fpPending = true) := by
  unfold State.entryFault
  cases s.cr0Em <;> cases s.cr0Ts <;> cases s.fpPending <;> simp [eq_comm]

/-- No memory fault is one of the three entry exceptions. -/
theorem State.FaultHolds.not_entry {s : State} {seg : SegReg} {ea : Dword} {n : Nat} {kind : AccessKind} {f : Fault}
    (h : s.FaultHolds seg ea n kind f) :
    f ≠ .invalidOpcode ∧ f ≠ .deviceNotAvailable ∧ f ≠ .floatingPointError := by
  cases h <;> simp

/-- Each of the three entry exceptions is raised by the entry checks and by nothing else. -/
theorem exec_entry_fault_iff (i : Instr) (s : State) {f : Fault}
    (hf : f = .invalidOpcode ∨ f = .deviceNotAvailable ∨ f = .floatingPointError) :
    exec i s = .fault f ↔ s.entryFault = some f := by
  constructor
  · intro h
    refine (exec_fault h).resolve_right fun ⟨_, _, _, _, _, hholds⟩ => ?_
    have := hholds.not_entry
    tauto
  · intro h
    obtain ⟨body, hx⟩ := exec_checked i s
    rw [hx, checked_raises body h]

/-! ### During a run -/

theorem run_succ_of_step_next {s t : State} (h : step s = .next t) (k : Nat) :
    Sys2Proof.core.run (k + 1) s = Sys2Proof.core.run k t := by
  simp [Host.Core.run, Sys2Proof.core, h]

theorem run_succ_of_step_stops {s : State} {o : Host.Outcome State Fault Refusal} (h : step s = o)
    (ho : ∀ t, o ≠ .next t) (k : Nat) : Sys2Proof.core.run (k + 1) s = o := by
  cases o with
  | next t => exact absurd rfl (ho t)
  | fault f => simp [Host.Core.run, Sys2Proof.core, h]
  | refused r => simp [Host.Core.run, Sys2Proof.core, h]

/-- A run that stops reached the state whose step stopped it. -/
theorem run_stops {s : State} {k : Nat} {o : Host.Outcome State Fault Refusal} (h : Sys2Proof.core.run k s = o)
    (ho : ∀ t, o ≠ .next t) : ∃ j < k, ∃ t, Sys2Proof.core.run j s = .next t ∧ step t = o := by
  induction k generalizing s with
  | zero => exact absurd h.symm (ho s)
  | succ k ih =>
    by_cases hnext : ∃ s', step s = .next s'
    · obtain ⟨s', hstep⟩ := hnext
      rw [run_succ_of_step_next hstep] at h
      obtain ⟨j, hj, t, hrun, ht⟩ := ih h
      exact ⟨j + 1, Nat.succ_lt_succ hj, t, (run_succ_of_step_next hstep j).trans hrun, ht⟩
    · have hstops := run_succ_of_step_stops (s := s) rfl (fun t ht => hnext ⟨t, ht⟩) k
      exact ⟨0, Nat.succ_pos k, s, rfl, hstops.symm.trans h⟩

/-- A step that faults ran the instruction it fetched. -/
theorem step_fault {s : State} {f : Fault} (h : step s = .fault f) : ∃ i, exec i s = .fault f := by
  unfold step at h
  split at h
  · cases h
  · exact ⟨_, h⟩

theorem State.sameControl.entryClear {s t : State} (h : s.sameControl t) (hclear : s.entryClear) : t.entryClear := by
  obtain ⟨-, hem, hts, hfp, -⟩ := h
  simpa only [State.entryClear, hem, hts, hfp] using hclear

/-! ### The exceptions of every form (R230 to R236, R241, R250) -/

/-- Settles O11: the three exceptions are those of the entry checks, which pass in every state of a run once they pass
in its first. -/
theorem entryChecksComeFirst : Obligations.EntryChecksComeFirst := by
  refine fun i s => ⟨?ud, ?nm, ?mf, fun t h => ?completed, fun hclear n f h => ?run⟩
  case ud => rw [exec_entry_fault_iff i s (by simp), State.entryFault_eq_some]; simp
  case nm => rw [exec_entry_fault_iff i s (by simp), State.entryFault_eq_some]; simp
  case mf => rw [exec_entry_fault_iff i s (by simp), State.entryFault_eq_some]; simp
  case completed =>
    obtain ⟨hclear, heffect⟩ := exec_next h
    exact ⟨hclear, heffect.sameControl.entryClear hclear⟩
  case run =>
    obtain ⟨j, -, t, hrun, hstep⟩ := run_stops (o := .fault f) h (by simp)
    obtain ⟨i, hexec⟩ := step_fault hstep
    rcases exec_fault hexec with hentry | ⟨-, _, _, _, _, hholds⟩
    · simp [(State.entryFault_eq_none t).2 ((run_sameControl hrun).entryClear hclear)] at hentry
    · exact hholds.not_entry

/-- Settles O12: the table of R230, row by row. -/
theorem exceptionVectorsAndCodes : Obligations.ExceptionVectorsAndCodes :=
  ⟨⟨rfl, rfl, rfl⟩, ⟨rfl, rfl, rfl, rfl⟩, ⟨rfl, rfl, rfl, rfl⟩, ⟨rfl, rfl, rfl⟩, fun _ => ⟨rfl, rfl⟩⟩

/-- A form without a memory operand completes where the entry checks pass. -/
theorem exec_completes_of_no_memory {i : Instr} {s : State} (hm : i.memOperand? = none) (hclear : s.entryClear) :
    ∃ t, exec i s = .next t := by
  cases exec_form i with
  | plain result hm' hx hmode => exact ⟨result s, by rw [hx, checked_clear _ hclear]⟩
  | access m n kind next hm' ha hn hx hfault hrefused hmode => simp [hm] at hm'

/-- Only the two store forms write (R63). -/
theorem store_form_of_access_write {i : Instr} {n : Nat} (ha : i.access = some (n, .write)) :
    (∃ dst src, i = .movdStore dst src ∧ n = 4) ∨ (∃ dst src, i = .movqStore dst src ∧ n = 8) := by
  cases exec_shape i with
  | emms hi => simp [hi, Instr.access] at ha
  | packed64 f d src hi hx hl hm ha' hd => simp [ha'] at ha
  | packed32 f d src hi hx hl hm ha' hd => simp [ha'] at ha
  | imm f d imm hi hx hl hm ha' hd => simp [ha'] at ha
  | movdLoad d src hi => simp [hi, Instr.access] at ha
  | movdStore dst src hi =>
    subst hi
    cases ha
    exact .inl ⟨dst, src, rfl, rfl⟩
  | movqStore dst src hi =>
    subst hi
    cases ha
    exact .inr ⟨dst, src, rfl, rfl⟩

/-- Settles O13: past the entry checks nothing but the one access of `exec_form` raises. -/
theorem memoryExceptionsOfEachForm : Obligations.MemoryExceptionsOfEachForm := by
  refine fun i s hclear => ⟨fun hm => exec_completes_of_no_memory hm hclear, fun m hm => ?access,
    fun n ha => store_form_of_access_write ha⟩
  cases exec_form i with
  | plain result hm' hx hmode => simp [hm] at hm'
  | access m' n kind next hm' ha hn hx hfault hrefused hmode =>
    obtain rfl : m' = m := by simpa [hm] using hm'.symm
    refine ⟨n, kind, ha, hn, fun f => ?_⟩
    rw [hx, checked_clear _ hclear, afterAccess_fault_iff (hfault s)]

/-- Settles O14: each memory fault has the mode and the level in its condition. -/
theorem exceptionsOfEachMode : Obligations.ExceptionsOfEachMode := by
  intro i s f h
  rcases exec_fault h with hentry | ⟨-, seg, ea, n, kind, hholds⟩
  · rcases State.entryFault_eq_some.1 hentry with ⟨rfl, -⟩ | ⟨rfl, -⟩ | ⟨rfl, -⟩ <;> simp
  · cases hholds with
    | stack hmode | protection hmode | limit hmode | page hmode => simp [hmode]
    | alignment hchecks => simpa using hchecks.2

/-! ### The results in every mode (R250) -/

/-- Where an instruction completes under two modes and levels, it leaves the same results. -/
theorem exec_withMode_next {i : Instr} {s t t' : State} {mode : Mode} {cpl : BitVec 2} (h : exec i s = .next t)
    (h' : exec i (s.withMode mode cpl) = .next t') : t' = t.withMode mode cpl := by
  cases exec_form i with
  | plain result hm hx hmode =>
    rw [hx] at h h'
    obtain ⟨-, ht⟩ := checked_next h
    obtain ⟨-, ht'⟩ := checked_next h'
    cases ht
    cases ht'
    exact hmode s mode cpl
  | access m n kind next hm ha hn hx hfault hrefused hmode =>
    rw [hx] at h h'
    obtain ⟨a, hok, hnext⟩ := ok_of_afterAccess (checked_next h).2 (by simp)
    obtain ⟨a', hok', hnext'⟩ := ok_of_afterAccess (checked_next h').2 (by simp)
    have haddress : a' = a := by
      rw [(State.accessCheck_ok_iff_legal.1 hok).2, (State.accessCheck_ok_iff_legal.1 hok').2,
        State.withMode_effectiveAddress]
      rfl
    rw [haddress, hmode, hnext] at hnext'
    cases hnext'
    rfl

/-- Settles O15: what follows the access is the same under every mode and level, and so is the linear address. -/
theorem resultsAreTheSameInEveryMode : Obligations.ResultsAreTheSameInEveryMode := by
  refine fun i s mode cpl => ⟨fun t t' h h' => exec_withMode_next h h', fun hm t h => ?_⟩
  have hclear : (s.withMode mode cpl).entryClear := (exec_next h).1
  obtain ⟨t', h'⟩ := exec_completes_of_no_memory hm hclear
  rw [exec_withMode_next h h'] at h'
  exact h'

/-! ### The segment checks of protected mode (R68, R234, R235) -/

/-- In protected mode, with pages and alignment clear, only the conditions of #SS and #GP can hold. -/
theorem State.FaultHolds.stack_or_protection {s : State} {seg : SegReg} {ea : Dword} {n : Nat} {kind : AccessKind}
    {f : Fault} (hmode : s.mode = .protectedMode) (hpages : s.pagesPresent (s.linear seg ea) n kind)
    (halign : s.checksAlignment → (s.linear seg ea).toNat % n = 0) (h : s.FaultHolds seg ea n kind f) :
    (f = .stackFault ∧ seg = .ss ∧ ¬ (s.segment seg).legalAddress ea n kind)
      ∨ (f = .generalProtection ∧ ((seg ≠ .ss ∧ ¬ (s.segment seg).legalAddress ea n kind)
          ∨ (kind = .write ∧ (s.segment seg).writable = false))) := by
  cases h with
  | stack _ hseg hillegal => exact .inl ⟨rfl, hseg, hillegal⟩
  | protection _ hwhy => exact .inr ⟨rfl, hwhy⟩
  | limit hother => exact absurd hmode hother
  | page _ r hr k hk hhit => simp [hpages r hr k hk] at hhit
  | alignment hchecks hodd => exact absurd (halign hchecks) hodd

/-- In protected mode, with pages and alignment clear, an access is legal exactly where its segment admits it. -/
theorem State.accessLegal_protected {s : State} {seg : SegReg} {ea : Dword} {n : Nat} {kind : AccessKind}
    (hmode : s.mode = .protectedMode) (hpages : s.pagesPresent (s.linear seg ea) n kind)
    (halign : s.checksAlignment → (s.linear seg ea).toNat % n = 0) :
    s.accessLegal seg ea n kind ↔ (s.segment seg).admits ea n kind :=
  ⟨fun ⟨hadmits, _⟩ => hadmits hmode, fun hadmits => ⟨fun _ => hadmits, (absurd hmode ·), fun _ => hpages, halign⟩⟩

/-- Settles O19: of the two conditions that can hold, each clause excludes the other. -/
theorem protectedModeSegmentChecks : Obligations.ProtectedModeSegmentChecks := by
  intro s seg ea n kind hmode _ hpages halign
  have hlegal := State.accessLegal_protected hmode hpages halign
  have hillegal (hout : ¬ (s.segment seg).legalAddress ea n kind) : ¬ s.accessLegal seg ea n kind := fun hl =>
    have ⟨husable, hfirst, hlast, hread, _⟩ := hlegal.1 hl
    hout ⟨husable, hfirst, hlast, hread⟩
  refine ⟨fun hin hwritable => ?admitted, fun hout hwritable hss => ?stack, fun hout hss => ?protection,
    fun hin hnonwritable => ?nonwritable⟩
  case admitted =>
    obtain ⟨husable, hfirst, hlast, hread⟩ := hin
    exact State.accessCheck_legal (hlegal.2 ⟨husable, hfirst, hlast, hread, hwritable⟩)
  case stack =>
    refine State.accessCheck_only (hillegal hout) fun g hg => ?_
    rcases hg.stack_or_protection hmode hpages halign with ⟨rfl, -⟩ | ⟨-, ⟨hother, -⟩ | ⟨hwrite, hnon⟩⟩
    · rfl
    · exact absurd hss hother
    · simp [hwritable hwrite] at hnon
  case protection =>
    refine State.accessCheck_only (hillegal hout) fun g hg => ?_
    rcases hg.stack_or_protection hmode hpages halign with ⟨-, hseg, -⟩ | ⟨rfl, -⟩
    · exact absurd hseg hss
    · rfl
  case nonwritable =>
    refine State.accessCheck_only (fun hl => ?_) fun g hg => ?_
    · obtain ⟨-, -, -, -, hwrite⟩ := hlegal.1 hl
      exact hnonwritable hwrite
    · rcases hg.stack_or_protection hmode hpages halign with ⟨-, -, hout⟩ | ⟨rfl, -⟩
      · exact absurd hin hout
      · rfl

end Sys2Proof.Machine
end

section
/-!
Steps and runs of a program (spec/70_reset_and_hazards.md R272, decisions D19, D23): where a step is refused, what a
step keeps, and that a program of admitted forms is a straight line.
-/

namespace Sys2Proof.Machine

/-! ### Where a step is refused -/

theorem State.atProgramEnd_iff (s : State) :
    s.atProgramEnd = true ↔ s.eip.toNat = s.program.first.toNat + s.program.length := by
  simp [State.atProgramEnd]

theorem State.fetch_at_end {s : State} (h : s.atProgramEnd = true) : s.fetch = .error .programDone := by
  simp [State.fetch, h]

theorem State.fetch_outside {s : State} (hend : s.atProgramEnd ≠ true) (hin : s.eipInProgram ≠ true) :
    s.fetch = .error .fetchOutsideProgram := by
  simp [State.fetch, hend, hin]

theorem State.fetch_not_fetchable {s : State} (hin : s.eipInProgram = true) (hf : ¬ s.programFetchable) :
    s.fetch = .error .programNotFetchable := by
  have hend : s.atProgramEnd ≠ true := by
    rw [ne_eq, State.atProgramEnd_iff]
    exact Nat.ne_of_lt ((State.eipInProgram_iff s).1 hin).2
  rw [← State.programFetchable_iff] at hf
  simp only [State.fetch, hend, hin, hf]
  rfl

theorem step_of_fetch_error {s : State} {r : Refusal} (h : s.fetch = .error r) : step s = .refused r := by
  simp only [step, h]

theorem step_of_truncated {s : State} (hin : s.eipInProgram = true) (hf : s.programFetchable)
    (hd : decode s.addrSize s.fetchBytes = .error .truncated) : step s = .refused .fetchOutsideProgram :=
  step_of_fetch_error (by rw [State.fetch_inside hin hf, hd])

/-- Inside a fetchable program a step is refused for the bytes at EIP or for a store. -/
theorem step_refused_inside {s : State} {r : Refusal} (hin : s.eipInProgram = true) (hf : s.programFetchable)
    (h : step s = .refused r) : r = .storeIntoProgram ∨ r = .fetchOutsideProgram ∨ ∃ e, r = .undecodable e := by
  cases hd : decode s.addrSize s.fetchBytes with
  | ok answer =>
    rw [step_of_fetch_ok (State.fetch_of_decode_ok hin hf hd)] at h
    exact .inl (exec_refused h)
  | error e =>
    by_cases he : e = .truncated
    · subst he
      cases (step_of_truncated hin hf hd).symm.trans h
      exact .inr (.inl rfl)
    · cases (step_of_decode_error hin hf hd he).symm.trans h
      exact .inr (.inr ⟨e, rfl⟩)

/-- SAY ONCE WHY A STEP IS REFUSED, by the place of EIP. -/
theorem step_refused {s : State} {r : Refusal} (h : step s = .refused r) :
    (s.atProgramEnd = true ∧ r = .programDone)
      ∨ (s.eipInProgram ≠ true ∧ r = .fetchOutsideProgram)
      ∨ (s.eipInProgram = true ∧ ¬ s.programFetchable ∧ r = .programNotFetchable)
      ∨ (r = .storeIntoProgram ∨ r = .fetchOutsideProgram ∨ ∃ e, r = .undecodable e) := by
  by_cases hend : s.atProgramEnd = true
  · cases (step_of_fetch_error (State.fetch_at_end hend)).symm.trans h
    exact .inl ⟨hend, rfl⟩
  by_cases hin : s.eipInProgram = true
  · by_cases hf : s.programFetchable
    · exact .inr (.inr (.inr (step_refused_inside hin hf h)))
    · cases (step_of_fetch_error (State.fetch_not_fetchable hin hf)).symm.trans h
      exact .inr (.inr (.inl ⟨hin, hf, rfl⟩))
  · cases (step_of_fetch_error (State.fetch_outside hend hin)).symm.trans h
    exact .inr (.inl ⟨hin, rfl⟩)

/-- A step is done exactly at the first byte after the program (D23). -/
theorem step_programDone_iff (s : State) : step s = .refused .programDone ↔ s.atProgramEnd = true := by
  refine ⟨fun h => ?_, fun h => step_of_fetch_error (State.fetch_at_end h)⟩
  simpa using step_refused h

theorem step_programNotFetchable_iff (s : State) :
    step s = .refused .programNotFetchable ↔ s.eipInProgram = true ∧ ¬ s.programFetchable := by
  refine ⟨fun h => ?_, fun ⟨hin, hf⟩ => step_of_fetch_error (State.fetch_not_fetchable hin hf)⟩
  simpa using step_refused h

/-- EIP neither inside the program nor at its end. -/
theorem step_outside {s : State} (h : s.eip.toNat < s.program.first.toNat
    ∨ s.program.first.toNat + s.program.length < s.eip.toNat) : step s = .refused .fetchOutsideProgram := by
  refine step_of_fetch_error (State.fetch_outside ?_ ?_)
  · rw [ne_eq, State.atProgramEnd_iff]
    omega
  · rw [ne_eq, State.eipInProgram_iff]
    omega

/-- Settles O26: each clause is one place of EIP. -/
theorem stepsOutsideTheProgramAreRefused : Obligations.StepsOutsideTheProgramAreRefused := by
  intro s
  rw [← State.atProgramEnd_iff]
  exact ⟨step_programDone_iff s, fun h => step_outside (.inl h), fun h => step_outside (.inr h),
    step_programNotFetchable_iff s, step_of_truncated⟩

/-! ### What a step keeps -/

/-- A completed instruction keeps memory canonical: only a store changes it. -/
theorem Effect.wf {i : Instr} {s t : State} (h : Effect i s t) (hwf : s.mem.wf = true) : t.mem.wf = true := by
  cases h with
  | emms hi => exact hwf
  | mm hi d r hd => exact hwf
  | gpr d src v hi => exact hwf
  | store hi m bytes hm ha hd hp => exact State.storeBytes_wf _ bytes hwf

/-- Settles O30: EIP moves past bytes of the program, whose region is launch data. -/
theorem stepKeepsTheRunInvariant : Obligations.StepKeepsTheRunInvariant := by
  rintro s t ⟨hwf, hbound, -, -⟩ h
  obtain ⟨i, -, -, -, hexec, -, hfirst, hlast, heip, -⟩ := stepAdvancesPastItsBytes s t h
  obtain ⟨-, heffect⟩ := exec_next hexec
  obtain ⟨hprogram, -⟩ := programTextIsFixed s t h
  rw [State.runInv, hprogram, heip]
  exact ⟨heffect.wf hwf, hbound, Nat.le_add_right_of_le hfirst, hlast⟩

/-! ### A straight line -/

theorem State.length_bytesAhead (s : State) : s.bytesAhead.length = s.programBytesLeft := by
  simp [State.bytesAhead]

/-- The fetch looks at the bytes ahead, at no more than the longest instruction. -/
theorem State.fetchBytes_eq_take (s : State) : s.fetchBytes = s.bytesAhead.take maxLength := by
  simp only [State.fetchBytes, State.bytesAhead, ← List.map_take, List.take_range]

/-- Bytes that lie ahead end inside the program. -/
theorem State.ahead_inside {s : State} {bytes rest : List Byte}
    (hlast : s.eip.toNat ≤ s.program.first.toNat + s.program.length) (h : s.bytesAhead = bytes ++ rest) :
    s.eip.toNat + bytes.length ≤ s.program.first.toNat + s.program.length := by
  have hlen := congrArg List.length h
  rw [State.length_bytesAhead, List.length_append, State.programBytesLeft] at hlen
  omega

/-- Where an instruction lies ahead, EIP is inside the program: no encoding is empty (R106). -/
theorem State.eipInProgram_of_ahead {s : State} {i : Instr} {rest : List Byte}
    (hfirst : s.program.first.toNat ≤ s.eip.toNat)
    (hlast : s.eip.toNat ≤ s.program.first.toNat + s.program.length) (h : s.bytesAhead = encode i ++ rest) :
    s.eipInProgram = true := by
  obtain ⟨hlen, hpos, -⟩ := lengthCountsEncodedBytes i
  have hend := State.ahead_inside hlast h
  exact (State.eipInProgram_iff s).2 ⟨hfirst, by omega⟩

/-- The next instruction of a straight line is the one that a step runs. -/
theorem step_of_programAhead {s : State} {i : Instr} {is : List Instr} (h : s.programAhead (i :: is)) :
    step s = exec i s := by
  obtain ⟨hwf, hf, hfirst, hlast, hbytes⟩ := h
  rw [List.flatMap_cons] at hbytes
  have hfetch : s.fetchBytes = encode i ++ (is.flatMap encode).take (maxLength - (encode i).length) := by
    obtain ⟨hlen, -, hmax⟩ := lengthCountsEncodedBytes i
    have hle : (encode i).length ≤ maxLength := by rw [hlen]; exact hmax
    rw [State.fetchBytes_eq_take, hbytes, List.take_append, List.take_of_length_le hle]
  have hdecode := decodeInvertsEncode s.addrSize i ((is.flatMap encode).take (maxLength - (encode i).length))
    (hwf i List.mem_cons_self)
  rw [← hfetch] at hdecode
  exact step_of_fetch_ok (State.fetch_of_decode_ok (State.eipInProgram_of_ahead hfirst hlast hbytes) hf hdecode)

/-- A step that moves EIP by n bytes inside the program leaves the bytes ahead but the first n. -/
theorem bytesAhead_of_step {s t : State} {n : Nat} (h : step s = .next t)
    (hfirst : s.program.first.toNat ≤ s.eip.toNat) (heip : t.eip = s.eip + BitVec.ofNat 32 n)
    (hnowrap : t.eip.toNat = s.eip.toNat + n) : t.bytesAhead = s.bytesAhead.drop n := by
  obtain ⟨hprogram, -, -, -, htext⟩ := programTextIsFixed s t h
  have hleft : t.programBytesLeft = s.programBytesLeft - n := by
    rw [State.programBytesLeft, State.programBytesLeft, hprogram, hnowrap]
    omega
  refine List.ext_getElem (by simp [State.length_bytesAhead, hleft]) fun k hk _ => ?_
  rw [State.length_bytesAhead, hleft, State.programBytesLeft] at hk
  obtain ⟨d, hd⟩ := Nat.exists_eq_add_of_le hfirst
  have hoffset : s.eip + BitVec.ofNat 32 (n + k) = s.program.first + BitVec.ofNat 32 (d + (n + k)) := by
    apply BitVec.eq_of_toNat_eq
    simp only [BitVec.toNat_add, BitVec.toNat_ofNat, hd]
    omega
  have hbyte := htext (d + (n + k)) (by omega)
  rw [← hoffset] at hbyte
  simpa [State.bytesAhead, heip, BitVec.add_assoc, ← BitVec.ofNat_add] using hbyte

theorem State.programFetchable_of_sameControl {s t : State} (h : s.sameControl t) (hf : s.programFetchable) :
    t.programFetchable := by
  obtain ⟨-, -, -, -, hmode, -, -, -, hsegs, hrules, -, hprogram⟩ := h
  simpa only [State.programFetchable, State.pagesPresent, State.codeLinear, hmode, hsegs, hrules, hprogram] using hf

/-- A step of a straight line runs its first instruction and stands before the rest. -/
theorem programAhead_of_step {s t : State} {i : Instr} {is : List Instr} (hahead : s.programAhead (i :: is))
    (h : step s = .next t) : t.programAhead is ∧ t.eip = s.eip + BitVec.ofNat 32 (encode i).length := by
  have hexec : exec i s = .next t := (step_of_programAhead hahead).symm.trans h
  obtain ⟨hwf, hf, hfirst, hlast, hbytes⟩ := hahead
  rw [List.flatMap_cons] at hbytes
  obtain ⟨hprogram, -, -, haddrSize, -⟩ := programTextIsFixed s t h
  have heip : t.eip = s.eip + BitVec.ofNat 32 (encode i).length := by rw [length_encode, (exec_next hexec).2.eip]
  have hend := State.ahead_inside hlast hbytes
  have hnowrap : t.eip.toNat = s.eip.toNat + (encode i).length := by
    obtain ⟨-, -, -, hbound, -⟩ := hf
    rw [heip, toNat_add_ofNat (Nat.lt_of_le_of_lt hend hbound)]
  refine ⟨⟨fun j hj => ?_, State.programFetchable_of_sameControl (step_sameControl h) hf, ?_, ?_, ?_⟩, heip⟩
  · rw [haddrSize]
    exact hwf j (List.mem_cons_of_mem i hj)
  · rw [hprogram, hnowrap]
    exact Nat.le_add_right_of_le hfirst
  · rw [hprogram, hnowrap]
    exact hend
  · rw [bytesAhead_of_step h hfirst heip hnowrap, hbytes, List.drop_left]

/-- The end of a straight line is the end of the program. -/
theorem step_of_programAhead_nil {s : State} (h : s.programAhead []) : step s = .refused .programDone := by
  obtain ⟨-, -, hfirst, hlast, hbytes⟩ := h
  have hlen := congrArg List.length hbytes
  rw [State.length_bytesAhead, State.programBytesLeft, List.flatMap_nil, List.length_nil] at hlen
  exact (step_programDone_iff s).2 ((State.atProgramEnd_iff s).2 (by omega))

/-- After k steps a straight line has run its first k instructions. -/
theorem run_of_programAhead {s t : State} {is : List Instr} {k : Nat} (hahead : s.programAhead is)
    (h : Sys2Proof.core.run k s = .next t) :
    k ≤ is.length ∧ t.programAhead (is.drop k)
      ∧ t.eip = s.eip + BitVec.ofNat 32 ((is.take k).flatMap encode).length := by
  induction k generalizing s is with
  | zero =>
    cases h
    exact ⟨Nat.zero_le _, hahead, by simp⟩
  | succ k ih =>
    obtain ⟨s', hstep, hrun⟩ := run_succ_next h
    cases is with
    | nil =>
      rw [step_of_programAhead_nil hahead] at hstep
      cases hstep
    | cons i is =>
      obtain ⟨hahead', heip'⟩ := programAhead_of_step hahead hstep
      obtain ⟨hk, hrest, heip⟩ := ih hahead' hrun
      refine ⟨Nat.succ_le_succ hk, hrest, ?_⟩
      rw [heip, heip', List.take_succ_cons, List.flatMap_cons, List.length_append, BitVec.ofNat_add, BitVec.add_assoc]

/-- The step after a run of k steps is made from the state it reached. -/
theorem run_succ_of_run_next {s t : State} {k : Nat} (h : Sys2Proof.core.run k s = .next t) :
    Sys2Proof.core.run (k + 1) s = Sys2Proof.core.run 1 t := by
  induction k generalizing s with
  | zero =>
    cases h
    rfl
  | succ k ih =>
    obtain ⟨s', hstep, hrun⟩ := run_succ_next h
    exact (run_succ_of_step_next hstep (k + 1)).trans (ih hrun)

/-- Settles O33: the clauses are the run by instructions, its end, and the step at which a refused run stopped. -/
theorem straightLineRunsEnd : Obligations.StraightLineRunsEnd := by
  refine fun s is hahead => ⟨fun k t h => run_of_programAhead hahead h, fun t h => ?done, fun k r h => ?refused⟩
  case done =>
    obtain ⟨-, hnil, -⟩ := run_of_programAhead hahead h
    rw [List.drop_length] at hnil
    exact (run_succ_of_run_next h).trans (run_succ_of_step_stops (step_of_programAhead_nil hnil) (by simp) 0)
  case refused =>
    obtain ⟨j, hjk, t, hrun, hstep⟩ := run_stops (o := .refused r) h (by simp)
    obtain ⟨hj, hahead', -⟩ := run_of_programAhead hahead hrun
    cases hrest : is.drop j with
    | nil =>
      rw [hrest] at hahead'
      cases (step_of_programAhead_nil hahead').symm.trans hstep
      exact .inr ⟨rfl, Nat.lt_of_le_of_lt (List.drop_eq_nil_iff.1 hrest) hjk⟩
    | cons i rest =>
      rw [hrest] at hahead'
      exact .inl (exec_refused ((step_of_programAhead hahead').symm.trans hstep))

end Sys2Proof.Machine
end
